-- ==== Sys2Proof/Word.lean ====
section
/-! DEFINITION. The word types of the block: bytes, command words, 64-bit operands, the encodings of
binary32 values and snapshot versions. -/

namespace Sys2Proof

/-- One byte of the frame buffer or of `DIN` (20_memory.md R70). -/
abbrev Byte := BitVec 8

/-- A 32-bit value: a command word `CMD`, a response's `DATA`, a register (30_encoding.md R90). -/
abbrev Word := BitVec 32

/-- The 16-bit immediate field `IMM` (30_encoding.md R92). -/
abbrev Half := BitVec 16

/-- A 64-bit value: `OPND`, a time in milliseconds (30_encoding.md R90, R94). -/
abbrev DWord := BitVec 64

/-- `bits32(f)`, the encoding of a binary32 value `f`: sign in bit 31, exponent in bits 30 to 23,
fraction in bits 22 to 0 (00_scope.md R18). -/
abbrev F32 := BitVec 32

/-- The version number of a published snapshot, a u32 (10_state.md R55). -/
abbrev Version := BitVec 32

end Sys2Proof
end

