-- ==== Sys2Proof/Config.lean ====
section
/-! DEFINITION. The configuration of the block (00_scope.md R8): one record, `Config.Build`, which the
state carries unchanged, with the constants R8 derives from it. The last part holds the free values:
opaque constants with no body. -/

namespace Sys2Proof.Config

/-- `NUM_READERS`: the readers are the two constructors of `Machine.Reader` (60_exceptions.md R244, log 22). -/
def numReaders : Nat := 2

/-! ## The configuration record (R8) -/

/-- The bounds of the class table (43_impulse.md R180, registers `CFG_CLS_*`), in Hz: A is
`[aLo, aHi]`, B is `[bLo, bHi)`, C is `[cLo, cHi)`. -/
structure ClassTable where
  aLo : F32
  aHi : F32
  bLo : F32
  bHi : F32
  cLo : F32
  cHi : F32
  deriving DecidableEq, Repr

/-- The class table of R8: A `[1900, 2800]`, B `[700, 899)`, C `[900, 1700)`. -/
def classesR8 : ClassTable where
  aLo := 0x44ED8000#32
  aHi := 0x452F0000#32
  bLo := 0x442F0000#32
  bHi := 0x4460C000#32
  cLo := 0x44610000#32
  cHi := 0x44D48000#32

/-- `BUTTON_MODE` (R8, OPEN; 44_snapshot.md R191). -/
inductive ButtonMode where
  | rising
  | toggle
  deriving DecidableEq, Repr

/-- `LATEST_IMPULSE_POLICY` (R8; 44_snapshot.md R194). The block's value is `retain`. -/
inductive ImpulsePolicy where
  | retain
  | perFrame
  deriving DecidableEq, Repr

/-- The configuration constants of one block, fixed for its life (R8). `fftLength` is `N`, `sampleRate`
is `FS` in Hz, `binWidth` is `BIN_WIDTH = FS/N` (`Machine.geometryValid` checks it), `hann` is
`HANN_TABLE` (R16, 10_state.md R39). -/
structure Build where
  fftLength : Nat
  sampleRate : Nat
  binWidth : F32
  freqCutoff : F32
  lowThr : F32
  highThr : F32
  impulseThr : F32
  refractoryMs : DWord
  minImpulseFreq : F32
  peakHalfWindow : Nat
  peaksPerSide : Nat
  classes : ClassTable
  buttonMode : ButtonMode
  policy : ImpulsePolicy
  gateBusy : Bool
  hann : List F32
  deriving DecidableEq, Repr

/-- `FRAME_BYTES = 4*N`. -/
def Build.frameBytes (b : Build) : Nat := 4 * b.fftLength

/-- `NBINS = N/2`. -/
def Build.nbins (b : Build) : Nat := b.fftLength / 2

/-- `MAX_PEAKS = 1 + 2*PEAKS_PER_SIDE`. -/
def Build.maxPeaks (b : Build) : Nat := 1 + 2 * b.peaksPerSide

/-! ## Free values -/

/-- One complex binary32 value (R17). -/
structure C32 where
  re : F32
  im : F32
  deriving DecidableEq, Repr, Inhabited

/-- The binary32 operations that can make a NaN, as an argument of `nanBits`. -/
inductive FloatOp where
  | add
  | mul
  | div
  | sqrt
  deriving DecidableEq, Repr

/-- FREE VALUE (log 6): bin `k` of the transform of a sequence, before property FFT-Z is imposed
(R17; `Machine.fft32` imposes it). -/
opaque fftRaw : List C32 → Nat → C32

/-- FREE VALUE (log 7): the bits of the NaN an operation makes from its operands. -/
opaque nanBits : FloatOp → F32 → F32 → F32

/-- FREE VALUE (log 14): the outcome of the `n`-th `BUSY_DRAW()` (44_snapshot.md R201). -/
opaque busyDraw : Nat → Bool

/-- FREE VALUE (log 20): the digits a consumer writes for a number in JSON (30_encoding.md R110), which
no step of the block uses. -/
opaque decimalText : F32 → List Byte

end Sys2Proof.Config
end

