-- ==== Sys2Proof/Syntax.lean ====
section
/-! DEFINITION. The commands as syntax: one constructor of `Instr` per row of the opcode map
(30_encoding.md R95), and the field selectors of `SNAP_READ` (R100). -/

namespace Sys2Proof

/-- The field selectors of `SNAP_READ`, 0 to 12 (30_encoding.md R100). -/
inductive Selector where
  | mag
  | dom
  | recording
  | impPresent
  | impTsLo
  | impTsHi
  | impFreq
  | impNpeaks
  | pkIdx
  | pkFreq
  | pkMag
  | impLabel
  | version
  deriving DecidableEq, Repr

/-- A command, decoded (30_encoding.md R95). `OPND` and `DIN` are not part of the command word: they
come with the transaction (R90). -/
inductive Instr where
  | nop
  | accPush (len : Half)
  | accReset
  | analyze
  | buttonEdge (level : Bool)
  | idleTick
  | csrRead (reg : Half)
  | snapAcquire
  | snapRead (sel : Selector) (idx : Half)
  | snapRelease
  deriving DecidableEq, Repr

end Sys2Proof
end

