-- ==== Sys2Proof/WellFormed.lean ====
section
/-! DEFINITION. Which commands have an encoding: the one condition is that a selector which takes no
index has index 0 (30_encoding.md R97, R100). -/

namespace Sys2Proof

/-- The selectors that take an element index in `IMM`: `MAG` and the three `PK_*` (R100). -/
def Selector.takesIndex : Selector → Bool
  | .mag | .pkIdx | .pkFreq | .pkMag => true
  | .dom | .recording | .impPresent | .impTsLo | .impTsHi | .impFreq | .impNpeaks | .impLabel
  | .version => false

/-- A command that some command word encodes. -/
def Instr.wellFormed : Instr → Bool
  | .snapRead sel idx => sel.takesIndex || idx == 0#16
  | .nop | .accPush _ | .accReset | .analyze | .buttonEdge _ | .idleTick | .csrRead _
  | .snapAcquire | .snapRelease => true

end Sys2Proof
end

