-- ==== Sys2Proof/Decode.lean ====
section
/-! DEFINITION. Decoding and encoding of command words (30_encoding.md R92 to R98). Decoding is total
and names what is wrong with a word it rejects; every rejection is the one status `ILLEGAL`. -/

namespace Sys2Proof

/-- Why a command word is rejected (R97, R98); each is `ILLEGAL` to the port. -/
inductive DecodeError where
  /-- fewer than four bytes (only where a word is given as bytes) -/
  | truncated
  /-- an opcode outside `0x00..0x06` and `0x10..0x12` -/
  | reservedOpcode
  /-- `RSV` is not 0 -/
  | reservedField
  /-- a `SEL` bit that must be 0 is not -/
  | selNotZero
  /-- an `IMM` that must be 0 is not -/
  | immNotZero
  /-- a `SNAP_READ` selector 13, 14 or 15 -/
  | reservedSelector
  deriving DecidableEq, Repr

/-! ## Fields of the format C32 (R92) -/

def fieldOpc (w : Word) : BitVec 8 := w.extractLsb' 0 8
def fieldSel (w : Word) : BitVec 4 := w.extractLsb' 8 4
def fieldRsv (w : Word) : BitVec 4 := w.extractLsb' 12 4
def fieldImm (w : Word) : Half := w.extractLsb' 16 16

/-- The command word with the given fields, `{IMM, RSV, SEL, OPC}` (R92). -/
def packC32 (opc : BitVec 8) (sel rsv : BitVec 4) (imm : Half) : Word :=
  imm ++ rsv ++ sel ++ opc

/-! ## Selector codes (R100) -/

def Selector.code : Selector → BitVec 4
  | .mag => 0#4
  | .dom => 1#4
  | .recording => 2#4
  | .impPresent => 3#4
  | .impTsLo => 4#4
  | .impTsHi => 5#4
  | .impFreq => 6#4
  | .impNpeaks => 7#4
  | .pkIdx => 8#4
  | .pkFreq => 9#4
  | .pkMag => 10#4
  | .impLabel => 11#4
  | .version => 12#4

def Selector.ofCode (c : BitVec 4) : Option Selector :=
  match c.toNat with
  | 0 => some .mag
  | 1 => some .dom
  | 2 => some .recording
  | 3 => some .impPresent
  | 4 => some .impTsLo
  | 5 => some .impTsHi
  | 6 => some .impFreq
  | 7 => some .impNpeaks
  | 8 => some .pkIdx
  | 9 => some .pkFreq
  | 10 => some .pkMag
  | 11 => some .impLabel
  | 12 => some .version
  | _ => none

/-! ## Decoding (R97) -/

/-- A command whose `SEL` and `IMM` must both be 0. -/
def decodePlain (i : Instr) (sel : BitVec 4) (imm : Half) : Except DecodeError Instr :=
  if sel ≠ 0#4 then .error .selNotZero
  else if imm ≠ 0#16 then .error .immNotZero
  else .ok i

/-- A command whose `SEL` must be 0 and whose `IMM` is an operand. -/
def decodeImm (f : Half → Instr) (sel : BitVec 4) (imm : Half) : Except DecodeError Instr :=
  if sel ≠ 0#4 then .error .selNotZero else .ok (f imm)

/-- `BUTTON_EDGE`: `SEL[0]` is the level, `SEL[3:1]` and `IMM` must be 0. -/
def decodeButton (sel : BitVec 4) (imm : Half) : Except DecodeError Instr :=
  if sel.extractLsb' 1 3 ≠ 0#3 then .error .selNotZero
  else if imm ≠ 0#16 then .error .immNotZero
  else .ok (.buttonEdge (sel.getLsbD 0))

/-- `SNAP_READ`: selectors 13 to 15 are reserved, and `IMM` must be 0 unless the selector takes an
index. -/
def decodeSnapRead (sel : BitVec 4) (imm : Half) : Except DecodeError Instr :=
  match Selector.ofCode sel with
  | none => .error .reservedSelector
  | some f =>
    if !f.takesIndex && imm != 0#16 then .error .immNotZero else .ok (.snapRead f imm)

/-- The fields after the opcode of each defined opcode (R95). -/
def decodeByOpcode (opc : BitVec 8) (sel : BitVec 4) (imm : Half) : Except DecodeError Instr :=
  match opc.toNat with
  | 0x00 => decodePlain .nop sel imm
  | 0x01 => decodeImm .accPush sel imm
  | 0x02 => decodePlain .accReset sel imm
  | 0x03 => decodePlain .analyze sel imm
  | 0x04 => decodeButton sel imm
  | 0x05 => decodePlain .idleTick sel imm
  | 0x06 => decodeImm .csrRead sel imm
  | 0x10 => decodePlain .snapAcquire sel imm
  | 0x11 => decodeSnapRead sel imm
  | 0x12 => decodePlain .snapRelease sel imm
  | _ => .error .reservedOpcode

/-- The opcodes of the opcode map (R95): `0x00..0x06` and `0x10..0x12`. -/
def opcodeDefined (opc : BitVec 8) : Bool :=
  opc.toNat ≤ 0x06 || (0x10 ≤ opc.toNat && opc.toNat ≤ 0x12)

/-- Decoding of one command word, less the port check, in the order of R97. The port is checked by
the meanings (`onProducer`, `onReader`). -/
def decode (w : Word) : Except DecodeError Instr :=
  if !opcodeDefined (fieldOpc w) then .error .reservedOpcode
  else if fieldRsv w ≠ 0#4 then .error .reservedField
  else decodeByOpcode (fieldOpc w) (fieldSel w) (fieldImm w)

/-- A command word as bytes is little-endian (20_memory.md R74). -/
def wordOfBytes (b0 b1 b2 b3 : Byte) : Word := b3 ++ b2 ++ b1 ++ b0

def bytesOfWord (w : Word) : List Byte :=
  [w.extractLsb' 0 8, w.extractLsb' 8 8, w.extractLsb' 16 8, w.extractLsb' 24 8]

/-- Decoding from bytes: the command of the first four, and the bytes after it. -/
def decodeBytes : List Byte → Except DecodeError (Instr × List Byte)
  | b0 :: b1 :: b2 :: b3 :: rest =>
    match decode (wordOfBytes b0 b1 b2 b3) with
    | .ok i => .ok (i, rest)
    | .error e => .error e
  | _ => .error .truncated

/-! ## Encoding (R92, R95, R100) -/

/-- The command word of a command. -/
def encode : Instr → Word
  | .nop => packC32 0x00#8 0#4 0#4 0#16
  | .accPush len => packC32 0x01#8 0#4 0#4 len
  | .accReset => packC32 0x02#8 0#4 0#4 0#16
  | .analyze => packC32 0x03#8 0#4 0#4 0#16
  | .buttonEdge level => packC32 0x04#8 (if level then 1#4 else 0#4) 0#4 0#16
  | .idleTick => packC32 0x05#8 0#4 0#4 0#16
  | .csrRead reg => packC32 0x06#8 0#4 0#4 reg
  | .snapAcquire => packC32 0x10#8 0#4 0#4 0#16
  | .snapRead sel idx => packC32 0x11#8 sel.code 0#4 idx
  | .snapRelease => packC32 0x12#8 0#4 0#4 0#16

/-! ## The host's view of the decoder -/

/-- The command the decoder reads from a word whose bits are numbered as the opcode table numbers
them: bit 0 is bit 0 of `CMD`. Bits at and above `nbits` are 0. -/
def decodeTableWord (nbits w : Nat) : Option Instr :=
  match decodeBytes (bytesOfWord (BitVec.ofNat 32 (w % 2 ^ nbits))) with
  | .ok (i, []) => some i
  | .ok (_, _ :: _) => none
  | .error _ => none

end Sys2Proof
end

