-- ==== Sys2Proof/Machine/Binary32.lean ====
section
/-! DEFINITION. IEEE 754 binary32 arithmetic, round to nearest, ties to even, subnormals kept
(00_scope.md R11 to R15, R18). A finite value is an integer multiple of the least subnormal
`2^-149`; every operation is computed exactly in those units, over Nat and Int, and rounded once at
the end by `f32Round`. The bits of a NaN that an operation makes are a free value (log 7). -/

namespace Sys2Proof.Machine

open Sys2Proof.Config (FloatOp)

/-! ## Fields and special values -/

/-- Exponent and fraction as one number: the encoding without its sign bit. On numbers of one sign
the order of the encodings is the order of the values. -/
def f32Mag (a : F32) : Nat := a.toNat % 2 ^ 31

def f32Sign (a : F32) : Bool := a.msb

/-- The encoding of infinity without its sign. -/
def f32InfMag : Nat := 0x7F800000

def f32IsNaN (a : F32) : Bool := f32InfMag < f32Mag a
def f32IsInf (a : F32) : Bool := f32Mag a == f32InfMag

/-- `+0.0` or `-0.0`. -/
def f32IsZero (a : F32) : Bool := f32Mag a == 0

def f32IsFinite (a : F32) : Bool := f32Mag a < f32InfMag

/-- The value with the given sign and encoding without sign. -/
def f32OfMag (sign : Bool) (m : Nat) : F32 := BitVec.ofNat 32 (m + if sign then 2 ^ 31 else 0)

def f32Inf (sign : Bool) : F32 := f32OfMag sign f32InfMag
def f32Zero (sign : Bool) : F32 := f32OfMag sign 0

/-- The NaN an operation makes: any NaN, its bits a free value of the operation and its operands. -/
def f32NaN (op : FloatOp) (a b : F32) : F32 :=
  if f32IsNaN (Config.nanBits op a b) then Config.nanBits op a b else 0x7FC00000#32

/-! ## Exact values -/

/-- The magnitude of a finite value in units of `2^-149`. -/
def f32Units (a : F32) : Nat :=
  if f32Mag a < 2 ^ 23 then f32Mag a
  else (2 ^ 23 + f32Mag a % 2 ^ 23) * 2 ^ (f32Mag a / 2 ^ 23 - 1)

/-- A finite value in units of `2^-149`. -/
def f32Val (a : F32) : Int := if f32Sign a then -(f32Units a : Int) else f32Units a

/-! ## Rounding (R11) -/

/-- The integer nearest to `num / den`, ties to even. -/
def roundHalfEven (num den : Nat) : Nat :=
  if 2 * (num % den) < den then num / den
  else if den < 2 * (num % den) then num / den + 1
  else num / den + num / den % 2

/-- The exponent of the spacing of binary32 values around `n` units: values below `2^24` units lie
one unit apart, and the spacing doubles with each binade. -/
def f32Spacing (n : Nat) : Nat := Nat.log2 n - 23

/-- The encoding, without sign, of `m * 2^k` units for `m ≤ 2^24` (and `2^23 ≤ m` when `k > 0`);
what is too large is infinity. -/
def f32Pack (m k : Nat) : Nat := min (k * 2 ^ 23 + m) f32InfMag

/-- The encoding, without sign, of the binary32 value nearest to `num / den` units, ties to even. -/
def f32Round (num den : Nat) : Nat :=
  f32Pack (roundHalfEven num (den * 2 ^ f32Spacing (num / den))) (f32Spacing (num / den))

/-! ## Conversion, arithmetic and square root -/

/-- `f32(i)` for an integer (R13). -/
def f32OfInt (i : Int) : F32 := f32OfMag (i < 0) (f32Round (i.natAbs * 2 ^ 149) 1)

def f32OfNat (n : Nat) : F32 := f32OfInt n

/-- Change of sign. -/
def f32Neg (a : F32) : F32 := a ^^^ 0x80000000#32

/-- `abs(v)` clears the sign bit (R13). -/
def f32Abs (a : F32) : F32 := a &&& 0x7FFFFFFF#32

/-- The sum of two finite values. A sum of exactly 0 is `+0.0`, unless both terms are negative. -/
def f32AddFinite (a b : F32) : F32 :=
  if f32Val a + f32Val b = 0 then f32Zero (f32Sign a && f32Sign b)
  else f32OfMag (f32Val a + f32Val b < 0) (f32Round (f32Val a + f32Val b).natAbs 1)

def f32Add (a b : F32) : F32 :=
  if f32IsNaN a || f32IsNaN b then f32NaN .add a b
  else if f32IsInf a then
    if f32IsInf b && f32Sign a != f32Sign b then f32NaN .add a b else a
  else if f32IsInf b then b
  else f32AddFinite a b

def f32Sub (a b : F32) : F32 := f32Add a (f32Neg b)

def f32Mul (a b : F32) : F32 :=
  if f32IsNaN a || f32IsNaN b then f32NaN .mul a b
  else if f32IsInf a || f32IsInf b then
    if f32IsZero a || f32IsZero b then f32NaN .mul a b else f32Inf (f32Sign a != f32Sign b)
  else f32OfMag (f32Sign a != f32Sign b) (f32Round (f32Units a * f32Units b) (2 ^ 149))

def f32Div (a b : F32) : F32 :=
  if f32IsNaN a || f32IsNaN b then f32NaN .div a b
  else if f32IsInf a then
    if f32IsInf b then f32NaN .div a b else f32Inf (f32Sign a != f32Sign b)
  else if f32IsInf b then f32Zero (f32Sign a != f32Sign b)
  else if f32IsZero b then
    if f32IsZero a then f32NaN .div a b else f32Inf (f32Sign a != f32Sign b)
  else f32OfMag (f32Sign a != f32Sign b) (f32Round (f32Units a * 2 ^ 149) (f32Units b))

/-- The largest `m < m0 + 2^bits` above `m0` with `(m * 2^k)^2 ≤ x`, found bit by bit from the top. -/
def sqrtBits (x k : Nat) : Nat → Nat → Nat
  | 0, m => m
  | bits + 1, m =>
    if ((m + 2 ^ bits) * 2 ^ k) ^ 2 ≤ x then sqrtBits x k bits (m + 2 ^ bits)
    else sqrtBits x k bits m

/-- The encoding of the binary32 value nearest to the square root of `x`, in units, for
`x ≥ 2^149`. A tie cannot arise: the midpoint of two values has a square of more significant bits
than `x` has. -/
def f32SqrtRound (x : Nat) : Nat :=
  let k := Nat.log2 x / 2 - 23
  let m := sqrtBits x k 24 0
  f32Pack (if ((2 * m + 1) * 2 ^ (k - 1)) ^ 2 < x then m + 1 else m) k

/-- `sqrt32(v)`, correctly rounded (R15). -/
def f32Sqrt (a : F32) : F32 :=
  if f32IsNaN a then f32NaN .sqrt a a
  else if f32IsZero a then a
  else if f32Sign a then f32NaN .sqrt a a
  else if f32IsInf a then a
  else f32OfMag false (f32SqrtRound (f32Units a * 2 ^ 149))

/-! ## Comparisons (R12) -/

/-- The place of a number in the order of binary32; `-0.0` and `+0.0` share one. -/
def f32Key (a : F32) : Int := if f32Sign a then -(f32Mag a : Int) else f32Mag a

def f32Lt (a b : F32) : Bool := !f32IsNaN a && !f32IsNaN b && decide (f32Key a < f32Key b)
def f32Le (a b : F32) : Bool := !f32IsNaN a && !f32IsNaN b && decide (f32Key a ≤ f32Key b)
def f32Gt (a b : F32) : Bool := f32Lt b a

end Sys2Proof.Machine
end

