-- ==== Sys2Proof/Machine/Hann.lean ====
section
/-! DEFINITION. The reference Hann window (00_scope.md R16): `HANN_TABLE[i]` is the binary32 value
nearest to `0.5 (1 - cos(2 pi i/2047))`. The entries below were computed outside Lean to 75 decimal
digits and rounded once (log 8); the table is symmetric, so its first half is written out. -/

namespace Sys2Proof.Machine

/-- Entries 0 to 63. -/
def hannHalf0 : List Nat :=
  [0x00000000, 0x361E1160, 0x371E1148, 0x37B1D343, 0x381E10E6, 0x3876F9F5, 0x38B1D24C, 0x38F20845,
   0x391E0F60, 0x39480AC6, 0x3976F63C, 0x399568D2, 0x39B1CE70, 0x39D0ABE5, 0x39F2011F, 0x3A0AE704,
   0x3A1E0946, 0x3A326749, 0x3A480101, 0x3A5ED660, 0x3A76E758, 0x3A8819ED, 0x3A955DEC, 0x3AA33FA0,
   0x3AB1BF00, 0x3AC0DC04, 0x3AD096A2, 0x3AE0EED1, 0x3AF1E486, 0x3B01BBDC, 0x3B0AD42D, 0x3B143B31,
   0x3B1DF0E2, 0x3B27F53B, 0x3B324834, 0x3B3CE9C8, 0x3B47D9F1, 0x3B5318A6, 0x3B5EA5E2, 0x3B6A819D,
   0x3B76ABD0, 0x3B81923A, 0x3B87F5BF, 0x3B8E8076, 0x3B953259, 0x3B9C0B64, 0x3BA30B92, 0x3BAA32E1,
   0x3BB1814B, 0x3BB8F6CC, 0x3BC0935E, 0x3BC856FE, 0x3BD041A7, 0x3BD85354, 0x3BE08BFF, 0x3BE8EBA4,
   0x3BF1723E, 0x3BFA1FC7, 0x3C017A1D, 0x3C05F7C8, 0x3C0A88E3, 0x3C0F2D6B, 0x3C13E55D, 0x3C18B0B5]

/-- Entries 64 to 127. -/
def hannHalf1 : List Nat :=
  [0x3C1D8F71, 0x3C22818E, 0x3C278709, 0x3C2C9FDF, 0x3C31CC0C, 0x3C370B8E, 0x3C3C5E60, 0x3C41C481,
   0x3C473DEC, 0x3C4CCA9E, 0x3C526A94, 0x3C581DCB, 0x3C5DE43E, 0x3C63BDEA, 0x3C69AACC, 0x3C6FAADF,
   0x3C75BE21, 0x3C7BE48D, 0x3C810F10, 0x3C84356B, 0x3C876555, 0x3C8A9ECD, 0x3C8DE1D0, 0x3C912E5D,
   0x3C948471, 0x3C97E40B, 0x3C9B4D28, 0x3C9EBFC6, 0x3CA23BE3, 0x3CA5C17D, 0x3CA95092, 0x3CACE91F,
   0x3CB08B23, 0x3CB4369B, 0x3CB7EB84, 0x3CBBA9DD, 0x3CBF71A4, 0x3CC342D5, 0x3CC71D6E, 0x3CCB016E,
   0x3CCEEED2, 0x3CD2E597, 0x3CD6E5BA, 0x3CDAEF3B, 0x3CDF0215, 0x3CE31E46, 0x3CE743CC, 0x3CEB72A5,
   0x3CEFAACD, 0x3CF3EC43, 0x3CF83703, 0x3CFC8B0A, 0x3D00742C, 0x3D02A773, 0x3D04DF5B, 0x3D071BE1,
   0x3D095D04, 0x3D0BA2C3, 0x3D0DED1C, 0x3D103C0E, 0x3D128F98, 0x3D14E7B7, 0x3D17446C, 0x3D19A5B3]

/-- Entries 128 to 191. -/
def hannHalf2 : List Nat :=
  [0x3D1C0B8C, 0x3D1E75F5, 0x3D20E4ED, 0x3D235872, 0x3D25D083, 0x3D284D1E, 0x3D2ACE42, 0x3D2D53ED,
   0x3D2FDE1D, 0x3D326CD1, 0x3D350007, 0x3D3797BF, 0x3D3A33F5, 0x3D3CD4A9, 0x3D3F79D9, 0x3D422384,
   0x3D44D1A7, 0x3D478441, 0x3D4A3B50, 0x3D4CF6D3, 0x3D4FB6C8, 0x3D527B2E, 0x3D554402, 0x3D581142,
   0x3D5AE2EE, 0x3D5DB904, 0x3D609381, 0x3D637263, 0x3D6655AA, 0x3D693D54, 0x3D6C295D, 0x3D6F19C6,
   0x3D720E8B, 0x3D7507AC, 0x3D780525, 0x3D7B06F7, 0x3D7E0D1D, 0x3D808BCC, 0x3D821332, 0x3D839CC0,
   0x3D852875, 0x3D86B650, 0x3D884650, 0x3D89D875, 0x3D8B6CBC, 0x3D8D0326, 0x3D8E9BB1, 0x3D90365C,
   0x3D91D326, 0x3D93720F, 0x3D951314, 0x3D96B636, 0x3D985B74, 0x3D9A02CB, 0x3D9BAC3C, 0x3D9D57C4,
   0x3D9F0564, 0x3DA0B51A, 0x3DA266E5, 0x3DA41AC4, 0x3DA5D0B6, 0x3DA788BA, 0x3DA942CF, 0x3DAAFEF3]

/-- Entries 192 to 255. -/
def hannHalf3 : List Nat :=
  [0x3DACBD26, 0x3DAE7D67, 0x3DB03FB4, 0x3DB2040D, 0x3DB3CA70, 0x3DB592DC, 0x3DB75D50, 0x3DB929CC,
   0x3DBAF84D, 0x3DBCC8D4, 0x3DBE9B5E, 0x3DC06FEA, 0x3DC24678, 0x3DC41F07, 0x3DC5F994, 0x3DC7D620,
   0x3DC9B4A8, 0x3DCB952C, 0x3DCD77AB, 0x3DCF5C23, 0x3DD14293, 0x3DD32AFB, 0x3DD51558, 0x3DD701AA,
   0x3DD8EFF0, 0x3DDAE028, 0x3DDCD250, 0x3DDEC669, 0x3DE0BC71, 0x3DE2B466, 0x3DE4AE48, 0x3DE6AA14,
   0x3DE8A7CA, 0x3DEAA769, 0x3DECA8F0, 0x3DEEAC5C, 0x3DF0B1AE, 0x3DF2B8E3, 0x3DF4C1FA, 0x3DF6CCF3,
   0x3DF8D9CB, 0x3DFAE882, 0x3DFCF917, 0x3DFF0B87, 0x3E008FE9, 0x3E019AFC, 0x3E02A6FA, 0x3E03B3E4,
   0x3E04C1B9, 0x3E05D078, 0x3E06E020, 0x3E07F0B2, 0x3E09022B, 0x3E0A148C, 0x3E0B27D4, 0x3E0C3C02,
   0x3E0D5116, 0x3E0E670F, 0x3E0F7DEB, 0x3E1095AC, 0x3E11AE4F, 0x3E12C7D4, 0x3E13E23B, 0x3E14FD83]

/-- Entries 256 to 319. -/
def hannHalf4 : List Nat :=
  [0x3E1619AB, 0x3E1736B2, 0x3E185498, 0x3E19735C, 0x3E1A92FE, 0x3E1BB37C, 0x3E1CD4D6, 0x3E1DF70C,
   0x3E1F1A1C, 0x3E203E06, 0x3E2162C9, 0x3E228865, 0x3E23AED8, 0x3E24D623, 0x3E25FE44, 0x3E27273A,
   0x3E285106, 0x3E297BA6, 0x3E2AA719, 0x3E2BD35F, 0x3E2D0077, 0x3E2E2E60, 0x3E2F5D1A, 0x3E308CA4,
   0x3E31BCFD, 0x3E32EE24, 0x3E342019, 0x3E3552DB, 0x3E368669, 0x3E37BAC2, 0x3E38EFE6, 0x3E3A25D4,
   0x3E3B5C8C, 0x3E3C940B, 0x3E3DCC53, 0x3E3F0561, 0x3E403F36, 0x3E4179D0, 0x3E42B52E, 0x3E43F151,
   0x3E452E37, 0x3E466BDF, 0x3E47AA49, 0x3E48E973, 0x3E4A295E, 0x3E4B6A08, 0x3E4CAB70, 0x3E4DED97,
   0x3E4F307A, 0x3E507419, 0x3E51B874, 0x3E52FD8A, 0x3E544359, 0x3E5589E2, 0x3E56D122, 0x3E58191B,
   0x3E5961CA, 0x3E5AAB2E, 0x3E5BF548, 0x3E5D4017, 0x3E5E8B99, 0x3E5FD7CD, 0x3E6124B4, 0x3E62724B]

/-- Entries 320 to 383. -/
def hannHalf5 : List Nat :=
  [0x3E63C093, 0x3E650F8B, 0x3E665F31, 0x3E67AF85, 0x3E690086, 0x3E6A5233, 0x3E6BA48C, 0x3E6CF790,
   0x3E6E4B3D, 0x3E6F9F93, 0x3E70F492, 0x3E724A37, 0x3E73A084, 0x3E74F776, 0x3E764F0D, 0x3E77A748,
   0x3E790026, 0x3E7A59A7, 0x3E7BB3C9, 0x3E7D0E8C, 0x3E7E69EE, 0x3E7FC5F0, 0x3E809148, 0x3E813FE7,
   0x3E81EED4, 0x3E829E0F, 0x3E834D97, 0x3E83FD6C, 0x3E84AD8E, 0x3E855DFC, 0x3E860EB5, 0x3E86BFBA,
   0x3E87710A, 0x3E8822A4, 0x3E88D489, 0x3E8986B6, 0x3E8A392D, 0x3E8AEBED, 0x3E8B9EF5, 0x3E8C5245,
   0x3E8D05DC, 0x3E8DB9BB, 0x3E8E6DDF, 0x3E8F224A, 0x3E8FD6FB, 0x3E908BF1, 0x3E91412C, 0x3E91F6AB,
   0x3E92AC6E, 0x3E936274, 0x3E9418BE, 0x3E94CF4A, 0x3E958619, 0x3E963D29, 0x3E96F47A, 0x3E97AC0D,
   0x3E9863DF, 0x3E991BF2, 0x3E99D444, 0x3E9A8CD6, 0x3E9B45A6, 0x3E9BFEB4, 0x3E9CB800, 0x3E9D7189]

/-- Entries 384 to 447. -/
def hannHalf6 : List Nat :=
  [0x3E9E2B4F, 0x3E9EE552, 0x3E9F9F90, 0x3EA05A0A, 0x3EA114BF, 0x3EA1CFAF, 0x3EA28AD8, 0x3EA3463C,
   0x3EA401D9, 0x3EA4BDAE, 0x3EA579BC, 0x3EA63602, 0x3EA6F27F, 0x3EA7AF33, 0x3EA86C1E, 0x3EA9293F,
   0x3EA9E695, 0x3EAAA421, 0x3EAB61E1, 0x3EAC1FD6, 0x3EACDDFE, 0x3EAD9C5A, 0x3EAE5AE8, 0x3EAF19A9,
   0x3EAFD89C, 0x3EB097C0, 0x3EB15716, 0x3EB2169C, 0x3EB2D652, 0x3EB39638, 0x3EB4564D, 0x3EB51690,
   0x3EB5D702, 0x3EB697A2, 0x3EB7586F, 0x3EB81969, 0x3EB8DA8F, 0x3EB99BE1, 0x3EBA5D5F, 0x3EBB1F07,
   0x3EBBE0DB, 0x3EBCA2D8, 0x3EBD64FF, 0x3EBE274F, 0x3EBEE9C7, 0x3EBFAC68, 0x3EC06F31, 0x3EC13220,
   0x3EC1F537, 0x3EC2B874, 0x3EC37BD7, 0x3EC43F5F, 0x3EC5030C, 0x3EC5C6DD, 0x3EC68AD2, 0x3EC74EEB,
   0x3EC81327, 0x3EC8D785, 0x3EC99C06, 0x3ECA60A8, 0x3ECB256B, 0x3ECBEA4F, 0x3ECCAF52, 0x3ECD7476]

/-- Entries 448 to 511. -/
def hannHalf7 : List Nat :=
  [0x3ECE39B9, 0x3ECEFF1A, 0x3ECFC49A, 0x3ED08A38, 0x3ED14FF3, 0x3ED215CA, 0x3ED2DBBE, 0x3ED3A1CE,
   0x3ED467F9, 0x3ED52E40, 0x3ED5F4A0, 0x3ED6BB1B, 0x3ED781AF, 0x3ED8485C, 0x3ED90F22, 0x3ED9D5FF,
   0x3EDA9CF5, 0x3EDB6401, 0x3EDC2B24, 0x3EDCF25D, 0x3EDDB9AC, 0x3EDE8110, 0x3EDF4888, 0x3EE01015,
   0x3EE0D7B5, 0x3EE19F69, 0x3EE26730, 0x3EE32F08, 0x3EE3F6F3, 0x3EE4BEEF, 0x3EE586FB, 0x3EE64F18,
   0x3EE71745, 0x3EE7DF81, 0x3EE8A7CD, 0x3EE97026, 0x3EEA388E, 0x3EEB0103, 0x3EEBC985, 0x3EEC9213,
   0x3EED5AAD, 0x3EEE2353, 0x3EEEEC04, 0x3EEFB4C0, 0x3EF07D85, 0x3EF14654, 0x3EF20F2C, 0x3EF2D80D,
   0x3EF3A0F6, 0x3EF469E7, 0x3EF532DE, 0x3EF5FBDD, 0x3EF6C4E1, 0x3EF78DEC, 0x3EF856FB, 0x3EF9200F,
   0x3EF9E928, 0x3EFAB244, 0x3EFB7B64, 0x3EFC4486, 0x3EFD0DAB, 0x3EFDD6D1, 0x3EFE9FF9, 0x3EFF6921]

/-- Entries 512 to 575. -/
def hannHalf8 : List Nat :=
  [0x3F001925, 0x3F007DBA, 0x3F00E24E, 0x3F0146E1, 0x3F01AB74, 0x3F021006, 0x3F027496, 0x3F02D925,
   0x3F033DB2, 0x3F03A23E, 0x3F0406C7, 0x3F046B4D, 0x3F04CFD1, 0x3F053452, 0x3F0598CF, 0x3F05FD49,
   0x3F0661C0, 0x3F06C632, 0x3F072AA0, 0x3F078F0A, 0x3F07F36F, 0x3F0857D0, 0x3F08BC2B, 0x3F092081,
   0x3F0984D1, 0x3F09E91B, 0x3F0A4D5F, 0x3F0AB19D, 0x3F0B15D4, 0x3F0B7A04, 0x3F0BDE2D, 0x3F0C424F,
   0x3F0CA66A, 0x3F0D0A7C, 0x3F0D6E87, 0x3F0DD289, 0x3F0E3682, 0x3F0E9A73, 0x3F0EFE5B, 0x3F0F623A,
   0x3F0FC60F, 0x3F1029DA, 0x3F108D9B, 0x3F10F152, 0x3F1154FF, 0x3F11B8A1, 0x3F121C38, 0x3F127FC4,
   0x3F12E344, 0x3F1346B9, 0x3F13AA22, 0x3F140D7F, 0x3F1470CF, 0x3F14D413, 0x3F15374A, 0x3F159A73,
   0x3F15FD90, 0x3F16609F, 0x3F16C3A0, 0x3F172693, 0x3F178977, 0x3F17EC4D, 0x3F184F15, 0x3F18B1CD]

/-- Entries 576 to 639. -/
def hannHalf9 : List Nat :=
  [0x3F191476, 0x3F197710, 0x3F19D99A, 0x3F1A3C14, 0x3F1A9E7D, 0x3F1B00D7, 0x3F1B631F, 0x3F1BC557,
   0x3F1C277E, 0x3F1C8993, 0x3F1CEB96, 0x3F1D4D88, 0x3F1DAF68, 0x3F1E1135, 0x3F1E72F0, 0x3F1ED498,
   0x3F1F362D, 0x3F1F97AE, 0x3F1FF91C, 0x3F205A77, 0x3F20BBBD, 0x3F211CEF, 0x3F217E0D, 0x3F21DF16,
   0x3F22400A, 0x3F22A0E9, 0x3F2301B3, 0x3F236267, 0x3F23C305, 0x3F24238D, 0x3F2483FF, 0x3F24E45A,
   0x3F25449E, 0x3F25A4CC, 0x3F2604E2, 0x3F2664E1, 0x3F26C4C8, 0x3F272497, 0x3F27844D, 0x3F27E3EC,
   0x3F284372, 0x3F28A2DF, 0x3F290233, 0x3F29616D, 0x3F29C08E, 0x3F2A1F96, 0x3F2A7E83, 0x3F2ADD56,
   0x3F2B3C0E, 0x3F2B9AAC, 0x3F2BF92F, 0x3F2C5797, 0x3F2CB5E3, 0x3F2D1414, 0x3F2D7229, 0x3F2DD022,
   0x3F2E2DFE, 0x3F2E8BBF, 0x3F2EE962, 0x3F2F46E8, 0x3F2FA451, 0x3F30019D, 0x3F305ECB, 0x3F30BBDC]

/-- Entries 640 to 703. -/
def hannHalf10 : List Nat :=
  [0x3F3118CE, 0x3F3175A2, 0x3F31D257, 0x3F322EED, 0x3F328B65, 0x3F32E7BD, 0x3F3343F6, 0x3F33A010,
   0x3F33FC09, 0x3F3457E2, 0x3F34B39B, 0x3F350F34, 0x3F356AAB, 0x3F35C602, 0x3F362138, 0x3F367C4C,
   0x3F36D73E, 0x3F37320F, 0x3F378CBD, 0x3F37E749, 0x3F3841B3, 0x3F389BFA, 0x3F38F61E, 0x3F39501F,
   0x3F39A9FC, 0x3F3A03B6, 0x3F3A5D4C, 0x3F3AB6BE, 0x3F3B100C, 0x3F3B6935, 0x3F3BC239, 0x3F3C1B19,
   0x3F3C73D4, 0x3F3CCC69, 0x3F3D24D8, 0x3F3D7D22, 0x3F3DD546, 0x3F3E2D44, 0x3F3E851B, 0x3F3EDCCC,
   0x3F3F3456, 0x3F3F8BB9, 0x3F3FE2F5, 0x3F403A09, 0x3F4090F6, 0x3F40E7BA, 0x3F413E57, 0x3F4194CB,
   0x3F41EB17, 0x3F42413B, 0x3F429735, 0x3F42ED06, 0x3F4342AE, 0x3F43982C, 0x3F43ED81, 0x3F4442AB,
   0x3F4497AC, 0x3F44EC82, 0x3F45412D, 0x3F4595AE, 0x3F45EA04, 0x3F463E2F, 0x3F46922E, 0x3F46E602]

/-- Entries 704 to 767. -/
def hannHalf11 : List Nat :=
  [0x3F4739AA, 0x3F478D26, 0x3F47E075, 0x3F483399, 0x3F488690, 0x3F48D95A, 0x3F492BF7, 0x3F497E67,
   0x3F49D0A9, 0x3F4A22BE, 0x3F4A74A5, 0x3F4AC65E, 0x3F4B17E9, 0x3F4B6946, 0x3F4BBA74, 0x3F4C0B73,
   0x3F4C5C44, 0x3F4CACE5, 0x3F4CFD57, 0x3F4D4D99, 0x3F4D9DAC, 0x3F4DED8F, 0x3F4E3D41, 0x3F4E8CC3,
   0x3F4EDC15, 0x3F4F2B36, 0x3F4F7A26, 0x3F4FC8E5, 0x3F501773, 0x3F5065D0, 0x3F50B3FA, 0x3F5101F3,
   0x3F514FBA, 0x3F519D4F, 0x3F51EAB1, 0x3F5237E1, 0x3F5284DE, 0x3F52D1A8, 0x3F531E3F, 0x3F536AA2,
   0x3F53B6D2, 0x3F5402CF, 0x3F544E97, 0x3F549A2C, 0x3F54E58C, 0x3F5530B8, 0x3F557BAF, 0x3F55C671,
   0x3F5610FF, 0x3F565B57, 0x3F56A57A, 0x3F56EF67, 0x3F57391F, 0x3F5782A1, 0x3F57CBED, 0x3F581503,
   0x3F585DE2, 0x3F58A68B, 0x3F58EEFD, 0x3F593738, 0x3F597F3C, 0x3F59C708, 0x3F5A0E9E, 0x3F5A55FB]

/-- Entries 768 to 831. -/
def hannHalf12 : List Nat :=
  [0x3F5A9D21, 0x3F5AE40F, 0x3F5B2AC5, 0x3F5B7143, 0x3F5BB788, 0x3F5BFD94, 0x3F5C4368, 0x3F5C8903,
   0x3F5CCE64, 0x3F5D138C, 0x3F5D587B, 0x3F5D9D30, 0x3F5DE1AC, 0x3F5E25ED, 0x3F5E69F4, 0x3F5EADC1,
   0x3F5EF154, 0x3F5F34AC, 0x3F5F77C9, 0x3F5FBAAB, 0x3F5FFD52, 0x3F603FBE, 0x3F6081EE, 0x3F60C3E3,
   0x3F61059C, 0x3F614719, 0x3F61885A, 0x3F61C95F, 0x3F620A27, 0x3F624AB3, 0x3F628B02, 0x3F62CB14,
   0x3F630AEA, 0x3F634A82, 0x3F6389DD, 0x3F63C8FA, 0x3F6407DA, 0x3F64467C, 0x3F6484E0, 0x3F64C306,
   0x3F6500EE, 0x3F653E98, 0x3F657C03, 0x3F65B92F, 0x3F65F61C, 0x3F6632CB, 0x3F666F3A, 0x3F66AB6B,
   0x3F66E75B, 0x3F67230D, 0x3F675E7E, 0x3F6799B0, 0x3F67D4A2, 0x3F680F54, 0x3F6849C5, 0x3F6883F6,
   0x3F68BDE7, 0x3F68F796, 0x3F693105, 0x3F696A33, 0x3F69A320, 0x3F69DBCC, 0x3F6A1437, 0x3F6A4C5F]

/-- Entries 832 to 895. -/
def hannHalf13 : List Nat :=
  [0x3F6A8447, 0x3F6ABBEC, 0x3F6AF350, 0x3F6B2A71, 0x3F6B6151, 0x3F6B97EE, 0x3F6BCE48, 0x3F6C0460,
   0x3F6C3A36, 0x3F6C6FC8, 0x3F6CA518, 0x3F6CDA24, 0x3F6D0EEE, 0x3F6D4374, 0x3F6D77B6, 0x3F6DABB5,
   0x3F6DDF70, 0x3F6E12E8, 0x3F6E461B, 0x3F6E790A, 0x3F6EABB5, 0x3F6EDE1C, 0x3F6F103F, 0x3F6F421C,
   0x3F6F73B5, 0x3F6FA509, 0x3F6FD619, 0x3F7006E3, 0x3F703768, 0x3F7067A8, 0x3F7097A2, 0x3F70C757,
   0x3F70F6C6, 0x3F7125F0, 0x3F7154D3, 0x3F718371, 0x3F71B1C8, 0x3F71DFDA, 0x3F720DA5, 0x3F723B29,
   0x3F726867, 0x3F72955F, 0x3F72C20F, 0x3F72EE79, 0x3F731A9C, 0x3F734678, 0x3F73720C, 0x3F739D5A,
   0x3F73C860, 0x3F73F31E, 0x3F741D95, 0x3F7447C4, 0x3F7471AB, 0x3F749B4B, 0x3F74C4A2, 0x3F74EDB2,
   0x3F751679, 0x3F753EF8, 0x3F75672E, 0x3F758F1C, 0x3F75B6C1, 0x3F75DE1E, 0x3F760532, 0x3F762BFD]

/-- Entries 896 to 959. -/
def hannHalf14 : List Nat :=
  [0x3F76527F, 0x3F7678B8, 0x3F769EA8, 0x3F76C44F, 0x3F76E9AC, 0x3F770EC0, 0x3F77338A, 0x3F77580B,
   0x3F777C42, 0x3F77A02F, 0x3F77C3D3, 0x3F77E72C, 0x3F780A3C, 0x3F782D01, 0x3F784F7C, 0x3F7871AD,
   0x3F789394, 0x3F78B530, 0x3F78D681, 0x3F78F788, 0x3F791844, 0x3F7938B6, 0x3F7958DC, 0x3F7978B8,
   0x3F799848, 0x3F79B78E, 0x3F79D688, 0x3F79F538, 0x3F7A139B, 0x3F7A31B4, 0x3F7A4F81, 0x3F7A6D02,
   0x3F7A8A38, 0x3F7AA723, 0x3F7AC3C1, 0x3F7AE014, 0x3F7AFC1B, 0x3F7B17D6, 0x3F7B3345, 0x3F7B4E68,
   0x3F7B693E, 0x3F7B83C9, 0x3F7B9E07, 0x3F7BB7F9, 0x3F7BD19F, 0x3F7BEAF8, 0x3F7C0404, 0x3F7C1CC4,
   0x3F7C3538, 0x3F7C4D5E, 0x3F7C6538, 0x3F7C7CC5, 0x3F7C9406, 0x3F7CAAF9, 0x3F7CC19F, 0x3F7CD7F9,
   0x3F7CEE05, 0x3F7D03C4, 0x3F7D1936, 0x3F7D2E5A, 0x3F7D4332, 0x3F7D57BC, 0x3F7D6BF8, 0x3F7D7FE8]

/-- Entries 960 to 1023. -/
def hannHalf15 : List Nat :=
  [0x3F7D9389, 0x3F7DA6DE, 0x3F7DB9E4, 0x3F7DCC9D, 0x3F7DDF08, 0x3F7DF126, 0x3F7E02F6, 0x3F7E1478,
   0x3F7E25AC, 0x3F7E3692, 0x3F7E472A, 0x3F7E5775, 0x3F7E6771, 0x3F7E771F, 0x3F7E8680, 0x3F7E9592,
   0x3F7EA456, 0x3F7EB2CB, 0x3F7EC0F3, 0x3F7ECECC, 0x3F7EDC57, 0x3F7EE994, 0x3F7EF682, 0x3F7F0322,
   0x3F7F0F73, 0x3F7F1B76, 0x3F7F272B, 0x3F7F3291, 0x3F7F3DA8, 0x3F7F4871, 0x3F7F52EB, 0x3F7F5D17,
   0x3F7F66F4, 0x3F7F7082, 0x3F7F79C2, 0x3F7F82B3, 0x3F7F8B55, 0x3F7F93A8, 0x3F7F9BAD, 0x3F7FA363,
   0x3F7FAACA, 0x3F7FB1E2, 0x3F7FB8AC, 0x3F7FBF26, 0x3F7FC552, 0x3F7FCB2F, 0x3F7FD0BD, 0x3F7FD5FC,
   0x3F7FDAEC, 0x3F7FDF8D, 0x3F7FE3DF, 0x3F7FE7E2, 0x3F7FEB96, 0x3F7FEEFC, 0x3F7FF212, 0x3F7FF4D9,
   0x3F7FF751, 0x3F7FF97A, 0x3F7FFB55, 0x3F7FFCE0, 0x3F7FFE1C, 0x3F7FFF09, 0x3F7FFFA7, 0x3F7FFFF6]

/-- Entries 0 to 1023. -/
def hannHalf : List F32 :=
  (hannHalf0 ++ hannHalf1 ++ hannHalf2 ++ hannHalf3 ++ hannHalf4 ++ hannHalf5 ++ hannHalf6 ++ hannHalf7 ++
    hannHalf8 ++ hannHalf9 ++ hannHalf10 ++ hannHalf11 ++ hannHalf12 ++ hannHalf13 ++ hannHalf14 ++ hannHalf15).map (BitVec.ofNat 32)

/-- The reference `HANN_TABLE`: `HANN_TABLE[i] = HANN_TABLE[N-1-i]` (R16). -/
def hannReference : List F32 := hannHalf ++ hannHalf.reverse

end Sys2Proof.Machine
end

