-- ==== Sys2Proof/Machine/State.lean ====
section
/-! DEFINITION. The state of the block (10_state.md), the inputs and responses on its ports
(30_encoding.md R90), the outcomes a step can have besides a next state, and the reset state
(70_reset_and_hazards.md R260, R261). -/

namespace Sys2Proof.Machine

open Sys2Proof.Config

/-! ## Ports, transactions and responses -/

/-- A reader port (00_scope.md R22). -/
inductive Reader where
  | rd0
  | rd1
  deriving DecidableEq, Repr

/-- A command port: the producer port `P` or a reader port (R22). -/
inductive Port where
  | p
  | rd (r : Reader)
  deriving DecidableEq, Repr

/-- One command transaction: what the issuing agent supplies (30_encoding.md R90). -/
structure Request where
  port : Port
  cmd : Word
  opnd : DWord
  din : List Byte
  deriving DecidableEq, Repr

/-- The status codes of 60_exceptions.md R231. -/
inductive Status where
  | ok
  | illegal
  | portDenied
  | wrongState
  | notFull
  | noPin
  | badIndex
  | noData
  | busy
  | badReg
  deriving DecidableEq, Repr

/-- What the block returns for a command (R90, R96). -/
structure Response where
  status : Status
  data : Word
  deriving DecidableEq, Repr

/-- What arrives at the block next: a command, or the reset input (70_reset_and_hazards.md R260). -/
inductive Input where
  | command (q : Request)
  | reset
  deriving DecidableEq, Repr

/-- The last response on each port; `none` when the port has had none since reset. -/
structure Responses where
  p : Option Response
  rd0 : Option Response
  rd1 : Option Response
  deriving DecidableEq, Repr

/-! ## Records (10_state.md section 3) -/

/-- A `PeakData` record (R45). -/
structure PeakData where
  idx : Nat
  freq : F32
  mag : F32
  deriving DecidableEq, Repr

/-- A classification label (R46). -/
inductive Label where
  | unknown
  | a
  | b
  | c
  deriving DecidableEq, Repr

/-- An `ImpulseEvent` record (R47); `NPEAKS` is the length of `peaks`. -/
structure ImpulseEvent where
  ts : DWord
  freq : F32
  peaks : List PeakData
  label : Label
  deriving DecidableEq, Repr

/-- A snapshot record `{MAG, DOM, REC, IMP}` (R48). -/
structure Snapshot where
  mag : List F32
  dom : F32
  recording : Bool
  imp : Option ImpulseEvent
  deriving DecidableEq, Repr

/-- The recording state machine (R35). -/
inductive RecState where
  | idle
  | recording
  deriving DecidableEq, Repr

/-- `PIN[r]` for the two readers (R57). -/
structure Pins where
  rd0 : Option Version
  rd1 : Option Version
  deriving DecidableEq, Repr

/-! ## The state -/

/-- The state. The fields from `build` to `pin` are the spec's; the last four are the model's own
(INVENTORY.md). `fb` lists the bytes of the frame buffer that are not 0, by rising index; `snap` maps
versions to records. -/
structure State where
  build : Build
  fb : List Host.Cell
  accCount : Nat
  recState : RecState
  btnLevel : Bool
  prevSum : F32
  lastImpTs : DWord
  w : Snapshot
  cur : Version
  snap : List (Version × Snapshot)
  pin : Pins
  inbox : List Input
  txn : Request
  rsp : Responses
  draws : Nat
  deriving DecidableEq, Repr

/-- The block has no fault outcome: no command has an undefined result (60_exceptions.md R240). -/
inductive Fault where
  deriving DecidableEq, Repr

/-- The reasons a step is refused. Each is SAFE: the model stops and proves nothing further. -/
inductive Refusal where
  /-- Raised by no meaning: kept for an arm of `exec` that has no meaning yet. Safe. -/
  | notModelled (mnemonic : String)
  /-- Raised by `ACC_PUSH`: `DIN` does not hold exactly `IMM` bytes (30_encoding.md R91). Safe. -/
  | dinLengthMismatch
  /-- Raised by `publish()`: the next version is one a reader still pins (10_state.md R59). Safe. -/
  | pinnedVersionReused
  /-- Raised by the step: the configuration violates 00_scope.md R9 or R10 (60_exceptions.md R240). Safe. -/
  | configurationInvalid
  /-- Raised by `SNAP_READ`: the pinned version is not in the store, which 10_state.md R58 rules out
  and no reachable state shows (log 13). Safe. -/
  | pinnedVersionMissing
  deriving DecidableEq, Repr

/-! ## Reset -/

/-- `W` at reset (R50). -/
def resetSnapshot (b : Build) : Snapshot where
  mag := List.replicate b.nbins 0#32
  dom := 0#32
  recording := false
  imp := none

/-- The transaction the model shows before any command: an all-zero `NOP` on `P` (log 2). -/
def idleRequest : Request where
  port := .p
  cmd := 0#32
  opnd := 0#64
  din := []

/-- The state right after reset of the block built as `b` (70_reset_and_hazards.md R261). -/
def resetOf (b : Build) : State where
  build := b
  fb := []
  accCount := 0
  recState := .idle
  btnLevel := false
  prevSum := 0#32
  lastImpTs := 0#64
  w := resetSnapshot b
  cur := 0#32
  snap := [(0#32, resetSnapshot b)]
  pin := ⟨none, none⟩
  inbox := []
  txn := idleRequest
  rsp := ⟨none, none, none⟩
  draws := 0

/-- The build the model resets into: every constant at the value R8 gives (log 22), the OPEN ones at the
values T1 of 95_test_vectors.md (log 3), and the reference window. -/
def buildT1 : Build where
  fftLength := 2048
  sampleRate := 48000
  binWidth := 0x41BB8000#32
  freqCutoff := 0x447A0000#32
  lowThr := 0x3C23D70A#32
  highThr := 0x3D4CCCCD#32
  impulseThr := 0x3D4CCCCD#32
  refractoryMs := 100#64
  minImpulseFreq := 0x42C80000#32
  peakHalfWindow := 25
  peaksPerSide := 5
  classes := classesR8
  buttonMode := .rising
  policy := .retain
  gateBusy := false
  hann := hannReference

/-- The machine right after reset. -/
def State.reset : State := resetOf buildT1

end Sys2Proof.Machine
end

