-- ==== Sys2Proof/Machine/Ops.lean ====
section
/-! DEFINITION. The named operations over the state: responses and errors, the frame buffer, the
snapshot store and its gate, and the checks on a build. -/

namespace Sys2Proof.Machine

open Sys2Proof.Config

/-- The outcome of one step of this machine. -/
abbrev Result := Host.Outcome State Fault Refusal

/-! ## Responses (30_encoding.md R96, 60_exceptions.md R230, R231) -/

/-- The 8-bit code of a status (R231). -/
def statusCode : Status → BitVec 8
  | .ok => 0x00#8
  | .illegal => 0x01#8
  | .portDenied => 0x02#8
  | .wrongState => 0x03#8
  | .notFull => 0x04#8
  | .noPin => 0x05#8
  | .badIndex => 0x06#8
  | .noData => 0x07#8
  | .busy => 0x08#8
  | .badReg => 0x09#8

/-- The last response on a port. -/
def responseOn (rs : Responses) : Port → Option Response
  | .p => rs.p
  | .rd .rd0 => rs.rd0
  | .rd .rd1 => rs.rd1

/-- A response goes to the port that issued the command and to no other (R239). -/
def deliver (rs : Responses) (port : Port) (x : Response) : Responses :=
  match port with
  | .p => { rs with p := some x }
  | .rd .rd0 => { rs with rd0 := some x }
  | .rd .rd1 => { rs with rd1 := some x }

/-- `respond(status, data)` on the port of the current transaction (00_scope.md R20). -/
def respond (s : State) (status : Status) (data : Word) : State :=
  { s with rsp := deliver s.rsp s.txn.port ⟨status, data⟩ }

/-- The command took its effect, which is already in `s`. -/
def succeed (s : State) (data : Word) : Result := .next (respond s .ok data)

/-- `raise E`: the error goes back as a status, `DATA` is 0 and no other state changes
(00_scope.md R20, R21; 60_exceptions.md R230). This is all an error does: there is no trap entry and
no return from one (R237, R238). -/
def raiseStatus (s : State) (e : Status) : Result := .next (respond s e 0#32)

/-! ## The frame buffer (20_memory.md R70, R72) -/

/-- What a byte that is not listed reads as (log 5). -/
def unlistedByte : Byte := 0#8

/-- `FB[a]`. -/
def fbRead (fb : List Host.Cell) (a : Nat) : Byte := (fb.lookup a).getD unlistedByte

/-- The cells that list the bytes `bs` from index `a` up, those that differ from `unlistedByte`. -/
def cellsOf (a : Nat) : List Byte → List Host.Cell
  | [] => []
  | b :: bs => if b = unlistedByte then cellsOf (a + 1) bs else (a, b) :: cellsOf (a + 1) bs

/-- `FB[a + j] <- bs[j]` for every `j`. -/
def fbWrite (fb : List Host.Cell) (a : Nat) (bs : List Byte) : List Host.Cell :=
  fb.filter (fun c => c.1 < a) ++ cellsOf a bs ++ fb.filter (fun c => a + bs.length ≤ c.1)

/-- `MemRead(a, n)`: `n` bytes from index `a`, little-endian (00_scope.md R20). -/
def memRead (fb : List Host.Cell) (a : Nat) : Nat → Nat
  | 0 => 0
  | n + 1 => (fbRead fb a).toNat + 2 ^ 8 * memRead fb (a + 1) n

/-- The canonical form: indices strictly rising, and no cell listing `unlistedByte`. -/
def cellsCanonical (fb : List Host.Cell) : Bool :=
  decide (fb.Pairwise fun x y => x.1 < y.1) && fb.all fun c => c.2 != unlistedByte

/-- `Memory.wf` of a frame buffer of `size` bytes: canonical, and every index is one the buffer has. -/
def fbWf (size : Nat) (fb : List Host.Cell) : Bool :=
  cellsCanonical fb && fb.all fun c => decide (c.1 < size)

/-! ## Pins and the snapshot store (10_state.md R56 to R58) -/

def pinOf (pins : Pins) : Reader → Option Version
  | .rd0 => pins.rd0
  | .rd1 => pins.rd1

def setPin (pins : Pins) (r : Reader) (v : Option Version) : Pins :=
  match r with
  | .rd0 => { pins with rd0 := v }
  | .rd1 => { pins with rd1 := v }

/-- Some reader pins version `v`. -/
def pinned (pins : Pins) (v : Version) : Bool := pins.rd0 == some v || pins.rd1 == some v

/-- `SNAP[v]`. -/
def snapAt (snap : List (Version × Snapshot)) (v : Version) : Option Snapshot := snap.lookup v

/-- The store keeps a version while it is current or pinned (R58) and drops it after (log 9). -/
def retained (snap : List (Version × Snapshot)) (cur : Version) (pins : Pins) :
    List (Version × Snapshot) :=
  snap.filter fun e => e.1 == cur || pinned pins e.1

/-! ## The gate (44_snapshot.md R196, R201) -/

/-- `GATE_BUSY and BUSY_DRAW()`: the draw is the free value `Config.busyDraw` (log 14). -/
def gateIsBusy (s : State) : Bool := s.build.gateBusy && Config.busyDraw s.draws

/-- The state after the gate was consulted: a draw is used up when the build draws at all. -/
def afterDraw (s : State) : State := { s with draws := if s.build.gateBusy then s.draws + 1 else s.draws }

/-- The state with `W` published as the next version (R196). -/
def publishNow (s : State) : State :=
  { s with
    cur := s.cur + 1#32
    snap := (s.cur + 1#32, s.w) :: s.snap.filter fun e => pinned s.pin e.1 }

/-- `publish()` on the state `s`, then `k skipped s'`. -/
def publishThen (s : State) (k : Bool → State → Result) : Result :=
  if gateIsBusy s then k true (afterDraw s)
  else if pinned s.pin (s.cur + 1#32) then .refused .pinnedVersionReused
  else k false (publishNow (afterDraw s))

/-! ## Checks on the build (00_scope.md R9, R10) -/

/-- R9: `N` is a power of two and at least 4, `FS > 0`, and `FS/N` is exact in binary32 and is
`BIN_WIDTH`. -/
def geometryValid (b : Build) : Bool :=
  2 ^ Nat.log2 b.fftLength == b.fftLength && decide (4 ≤ b.fftLength) &&
    decide (0 < b.sampleRate) && f32IsFinite b.binWidth &&
    f32Val b.binWidth * b.fftLength == b.sampleRate * 2 ^ 149

/-- R9, and R10: the thresholds of both bands are at least 0. -/
def buildValid (b : Build) : Bool :=
  f32Le 0#32 b.lowThr && f32Le 0#32 b.highThr && geometryValid b

end Sys2Proof.Machine
end

