-- ==== Sys2Proof/Machine/Operands.lean ====
section
/-! DEFINITION. The operand forms: the issuing port with its permission check, `OPND`, `DIN` and the
fields of the command word as the meanings use them; and the transaction the host places to run one
command word. -/

namespace Sys2Proof.Machine

open Sys2Proof.Config

/-- A producer command: accepted on port `P` only (60_exceptions.md R241; the last checks of
30_encoding.md R97). -/
def onProducer (s : State) (k : Result) : Result :=
  match s.txn.port with
  | .p => k
  | .rd _ => raiseStatus s .portDenied

/-- A reader command: accepted on a reader port only. -/
def onReader (s : State) (k : Reader → Result) : Result :=
  match s.txn.port with
  | .p => raiseStatus s .portDenied
  | .rd r => k r

/-- `now`, the operand of `ANALYZE`: unsigned milliseconds (30_encoding.md R94). -/
def now (s : State) : DWord := s.txn.opnd

/-- `take` of `ACC_PUSH`: the bytes the buffer still has room for (40_frame_input.md R120). -/
def takeCount (s : State) : Nat := min s.txn.din.length (s.build.frameBytes - s.accCount)

/-- The accepted bytes `DIN[0 .. take-1]`. -/
def takenBytes (s : State) : List Byte := s.txn.din.take (takeCount s)

/-- `FULL`: `ACC_COUNT = FRAME_BYTES` (10_state.md R34). -/
def bufferFull (s : State) : Bool := s.accCount == s.build.frameBytes

/-- The transaction by which an agent issues the command word `cmd` (log 16): on port `P`, or on
`RD0` for the opcodes `0x10` and up, with `OPND = 0` and, for `ACC_PUSH`, `IMM` bytes 0. -/
def requestFor (cmd : Word) : Request where
  port := if 0x10 ≤ (fieldOpc cmd).toNat then .rd .rd0 else .p
  cmd := cmd
  opnd := 0#64
  din := if fieldOpc cmd = 0x01#8 then List.replicate (fieldImm cmd).toNat 0#8 else []

end Sys2Proof.Machine
end

