-- ==== Sys2Proof/Machine/Flags.lean ====
section
/-! DEFINITION. The status bits: the `DATA` words the commands report, and the register views that are
put together from single bits (10_state.md R32, R61, R62). -/

namespace Sys2Proof.Machine

open Sys2Proof.Config

/-- A bit as a 1-bit vector. -/
def bit (b : Bool) : BitVec 1 := BitVec.ofBool b

def recBit : RecState → Bool
  | .idle => false
  | .recording => true

/-- `DATA` of `ACC_PUSH`: `{full, take[15:0]}` (40_frame_input.md R120). -/
def accPushData (full : Bool) (take : Nat) : Word := 0#15 ++ bit full ++ BitVec.ofNat 16 take

/-- `DATA` of `ANALYZE`: `{maxIndex[15:0], 13'b0, skipped, valid, fired}` (41_spectral.md R130). -/
def analyzeData (maxIndex : Nat) (skipped valid fired : Bool) : Word :=
  BitVec.ofNat 16 maxIndex ++ 0#13 ++ bit skipped ++ bit valid ++ bit fired

/-- `DATA` of `BUTTON_EDGE`: `{skipped, edge, REC_STATE}` (44_snapshot.md R190). -/
def buttonData (skipped edge : Bool) (rec : RecState) : Word :=
  0#29 ++ bit skipped ++ bit edge ++ bit (recBit rec)

/-- `DATA` of `IDLE_TICK`: `{skipped, 2'b00}` (R195). -/
def idleTickData (skipped : Bool) : Word := 0#29 ++ bit skipped ++ 0#2

/-- The register `STATUS` (10_state.md R62). -/
def statusReg (s : State) : Word :=
  0#28 ++ bit s.w.imp.isSome ++ bit s.btnLevel ++ bit (bufferFull s) ++ bit (recBit s.recState)

def buttonModeBit : ButtonMode → Bool
  | .rising => false
  | .toggle => true

def policyBit : ImpulsePolicy → Bool
  | .retain => false
  | .perFrame => true

/-- The register `CFG_GEOM` (10_state.md R61). A `PEAK_HALF_WINDOW` or `PEAKS_PER_SIDE` above 255, for
which R61 gives no value, reads as its low 8 bits: the model's choice (log 19). -/
def geomReg (b : Build) : Word :=
  0#5 ++ bit b.gateBusy ++ bit (policyBit b.policy) ++ bit (buttonModeBit b.buttonMode) ++
    BitVec.ofNat 8 numReaders ++ BitVec.ofNat 8 b.peaksPerSide ++ BitVec.ofNat 8 b.peakHalfWindow

/-- The label codes (10_state.md R46). -/
def labelCode : Label → Word
  | .unknown => 0#32
  | .a => 1#32
  | .b => 2#32
  | .c => 3#32

/-- A bit as a 32-bit value, `zext_32`. -/
def bitWord (b : Bool) : Word := (bit b).setWidth 32

end Sys2Proof.Machine
end

