-- ==== Sys2Proof/Machine/Spectral.lean ====
section
/-! DEFINITION. The spectral frame processor (41_spectral.md R131 to R138): decode, normalise, window,
transform, magnitude. -/

namespace Sys2Proof.Machine

open Sys2Proof.Config (C32)

/-- Sample `n` of the frame, a little-endian two's-complement 32-bit integer (R131, 20_memory.md R72). -/
def sampleAt (fb : List Host.Cell) (n : Nat) : BitVec 32 := BitVec.ofNat 32 (memRead fb (4 * n) 4)

/-- `2^-31` (00_scope.md R14). -/
def twoPowMinus31 : F32 := 0x30000000#32

/-- `x[n] = f32(s[n]) * 2^-31` (R132). -/
def normalise (s : BitVec 32) : F32 := f32Mul (f32OfInt s.toInt) twoPowMinus31

/-- Element `i` of a binary32 array (00_scope.md R19). -/
def elemAt (a : List F32) (i : Nat) : F32 := a.getD i 0#32

/-- `xw[n] = x[n] * HANN_TABLE[n]` (R133). -/
def windowed (b : Config.Build) (fb : List Host.Cell) (n : Nat) : F32 :=
  f32Mul (normalise (sampleAt fb n)) (elemAt b.hann n)

/-- The complex sequence `z[0 .. N-1]`, imaginary parts `+0.0` (R134). -/
def complexFrame (b : Config.Build) (fb : List Host.Cell) : List C32 :=
  (List.range b.fftLength).map fun n => ⟨windowed b fb n, 0#32⟩

/-- Every part of the sequence is `+0.0` or `-0.0`. -/
def allZero (z : List C32) : Bool := z.all fun c => f32IsZero c.re && f32IsZero c.im

/-- The zero with the sign of `a`. -/
def zeroLike (a : F32) : F32 := a &&& 0x80000000#32

/-- Bin `k` of `FFT32(z)` (R135, 00_scope.md R17): a free function of the sequence (FFT-D), whose
parts are `+0.0` or `-0.0` where the sequence is all zero (FFT-Z). See log 6. -/
def fft32 (z : List C32) (k : Nat) : C32 :=
  if allZero z then ⟨zeroLike (Config.fftRaw z k).re, zeroLike (Config.fftRaw z k).im⟩
  else Config.fftRaw z k

/-- The magnitude of one bin of a transform of length `n` (R136). -/
def magnitude (n : Nat) (x : C32) : F32 :=
  f32Div (f32Sqrt (f32Add (f32Mul x.re x.re) (f32Mul x.im x.im))) (f32OfNat n)

/-- The magnitudes of bins 0 to `NBINS - 1` of a transformed sequence (R136, R137). -/
def magnitudesOf (b : Config.Build) (z : List C32) : List F32 :=
  (List.range b.nbins).map fun k => magnitude b.fftLength (fft32 z k)

/-- `SPECTRUM(FB)` (R137). -/
def spectrumOf (b : Config.Build) (fb : List Host.Cell) : List F32 :=
  magnitudesOf b (complexFrame b fb)

/-- `BINFREQ(k) = f32(k) * BIN_WIDTH` (R138). -/
def binFreq (b : Config.Build) (k : Nat) : F32 := f32Mul (f32OfNat k) b.binWidth

end Sys2Proof.Machine
end

