-- ==== Sys2Proof/Machine/Peak.lean ====
section
/-! DEFINITION. The peak detector, the parabolic interpolator and the harmonic peak selector
(42_peak.md R150 to R164). -/

namespace Sys2Proof.Machine

open Sys2Proof.Config

/-! ## Adaptive threshold and dominant bin (R150 to R152) -/

/-- `THR(k)`: the threshold of bin `k`'s band (R150). -/
def threshold (b : Build) (k : Nat) : F32 :=
  if f32Lt (binFreq b k) b.freqCutoff then b.lowThr else b.highThr

/-- Bin `k` with magnitude `m` qualifies (R150): the comparison is strict. -/
def qualifies (b : Build) (k : Nat) (m : F32) : Bool := f32Gt m (threshold b k)

/-- One bin of the scan of R151: bin `x.2` of magnitude `x.1` replaces `best` when it qualifies and is
larger. -/
def scanStep (b : Build) (best : Option (F32 × Nat)) (x : F32 × Nat) : Option (F32 × Nat) :=
  if qualifies b x.2 x.1 then
    match best with
    | none => some x
    | some y => if f32Gt x.1 y.1 then some x else some y
  else best

/-- The ascending scan of R151 over the bins from `k` up; `best` is the bin found so far. -/
def scanDominant (b : Build) (mag : List F32) (k : Nat) (best : Option (F32 × Nat)) :
    Option (F32 × Nat) := (mag.zipIdx k).foldl (scanStep b) best

/-- The dominant bin, if any bin qualifies (R151). -/
def dominantBin (b : Build) (mag : List F32) : Option Nat := (scanDominant b mag 0 none).map (·.2)

/-! ## Parabolic interpolation (R153 to R156) -/

/-- `2.0` and `0.5`. -/
def f32Two : F32 := 0x40000000#32
def f32Half : F32 := 0x3F000000#32

/-- `denom = (ym - 2.0*y0) + yp` (R154). -/
def parabolaDenom (ym y0 yp : F32) : F32 := f32Add (f32Sub ym (f32Mul f32Two y0)) yp

/-- `p = (0.5*(ym - yp)) / denom` (R154). -/
def parabolaOffset (ym y0 yp : F32) : F32 :=
  f32Div (f32Mul f32Half (f32Sub ym yp)) (parabolaDenom ym y0 yp)

/-- `dom` of the dominant bin `i`: refined when `i` is interior and `denom` is not 0, the bin's own
frequency otherwise (R153 to R156). -/
def refine (b : Build) (mag : List F32) (i : Nat) : F32 :=
  if i = 0 ∨ i + 1 = b.nbins then binFreq b i
  else if f32IsZero (parabolaDenom (elemAt mag (i - 1)) (elemAt mag i) (elemAt mag (i + 1))) then
    binFreq b i
  else
    f32Mul
      (f32Add (f32OfNat i)
        (parabolaOffset (elemAt mag (i - 1)) (elemAt mag i) (elemAt mag (i + 1))))
      b.binWidth

/-- The result of `DETECT_PEAK` (R158). -/
structure Peak where
  valid : Bool
  maxIndex : Nat
  dom : F32
  deriving DecidableEq, Repr

/-- `DETECT_PEAK(mag)`; with no qualifying bin the fallback of R152. -/
def detectPeak (b : Build) (mag : List F32) : Peak :=
  match dominantBin b mag with
  | none => ⟨false, 0, 0#32⟩
  | some i => ⟨true, i, refine b mag i⟩

/-! ## Harmonic peaks (R160 to R164) -/

/-- One step of the scan of `ARGMAX`: bin `k` replaces `best` when it is not excluded and larger. -/
def argmaxStep (mag : List F32) (excluded : List Nat) (best : Option Nat) (k : Nat) : Option Nat :=
  if excluded.contains k then best
  else match best with
    | none => some k
    | some i => if f32Gt (elemAt mag k) (elemAt mag i) then some k else some i

/-- `ARGMAX` over the span `[lo, hi)` (R160): ascending scan, the lowest index wins ties. -/
def argmax (mag : List F32) (lo hi : Nat) (excluded : List Nat) : Option Nat :=
  (List.range' lo (hi - lo)).foldl (argmaxStep mag excluded) none

/-- The pick of one round: the largest bin of the span, if its magnitude is positive. -/
def pick (mag : List F32) (lo hi : Nat) (excluded : List Nat) : Option Nat :=
  match argmax mag lo hi excluded with
  | none => none
  | some c => if f32Gt (elemAt mag c) 0#32 then some c else none

/-- `rounds` rounds below the dominant bin: the span `[lo, d-1]` is fixed and picked bins are
excluded (R161). -/
def picksBelow (mag : List F32) (lo d : Nat) : Nat → List Nat → List Nat
  | 0, sel => sel
  | rounds + 1, sel =>
    match pick mag lo d sel with
    | none => picksBelow mag lo d rounds sel
    | some c => picksBelow mag lo d rounds (c :: sel)

/-- `rounds` rounds above the last pick: the span `[last+1, top]` shrinks (R162). -/
def picksAbove (mag : List F32) (top : Nat) : Nat → Nat → List Nat → List Nat
  | 0, _, sel => sel
  | rounds + 1, last, sel =>
    match pick mag (last + 1) (top + 1) [] with
    | none => picksAbove mag top rounds last sel
    | some c => picksAbove mag top rounds c (c :: sel)

/-- The selected bins, `sel` of R160, as a set held in a list. -/
def selectedBins (b : Build) (mag : List F32) (d : Nat) : List Nat :=
  picksAbove mag (min (b.nbins - 1) (d + b.peakHalfWindow)) b.peaksPerSide d
    (picksBelow mag (d - b.peakHalfWindow) d b.peaksPerSide [d])

/-- `PEAK(k)`: the frequency is the bin's own, not the refined one (R164). -/
def peakOf (b : Build) (mag : List F32) (k : Nat) : PeakData := ⟨k, binFreq b k, elemAt mag k⟩

/-- `FIND_PEAKS(mag, d)`: the selected bins in ascending order (R160, R163). -/
def findPeaks (b : Build) (mag : List F32) (d : Nat) : List PeakData :=
  ((List.range b.nbins).filter (selectedBins b mag d).contains).map (peakOf b mag)

end Sys2Proof.Machine
end

