-- ==== Sys2Proof/Machine/Impulse.lean ====
section
/-! DEFINITION. The transient detector with its refractory debounce, and the classifier
(43_impulse.md R170 to R181). -/

namespace Sys2Proof.Machine

open Sys2Proof.Config

/-- `SUM(mag)`: accumulated in ascending bin order from `+0.0` (R170). -/
def energy (mag : List F32) : F32 := mag.foldl f32Add 0#32

/-- `c_energy`: `abs(sum - PREV_SUM) > IMPULSE_THR` (R171). -/
def energyJumps (b : Build) (sum prevSum : F32) : Bool :=
  f32Gt (f32Abs (f32Sub sum prevSum)) b.impulseThr

/-- `c_time`: `((now - LAST_IMP_TS) mod 2^64) > REFRACTORY_MS`, unsigned (R171, R172). -/
def refractoryOver (b : Build) (time lastImpTs : DWord) : Bool :=
  decide (b.refractoryMs < time - lastImpTs)

/-- `c_freq`: `dom > MIN_IMPULSE_FREQ` (R171). -/
def audible (b : Build) (dom : F32) : Bool := f32Gt dom b.minImpulseFreq

/-- `fired` (R171). -/
def fires (b : Build) (sum prevSum : F32) (time lastImpTs : DWord) (dom : F32) : Bool :=
  energyJumps b sum prevSum && refractoryOver b time lastImpTs && audible b dom

/-- `CLASSIFY(f)` (R180). -/
def classify (t : ClassTable) (f : F32) : Label :=
  if f32Le t.aLo f && f32Le f t.aHi then .a
  else if f32Le t.bLo f && f32Lt f t.bHi then .b
  else if f32Le t.cLo f && f32Lt f t.cHi then .c
  else .unknown

/-- The event of a frame that fires (R173, R175). -/
def impulseEvent (b : Build) (mag : List F32) (peak : Peak) (time : DWord) : ImpulseEvent where
  ts := time
  freq := peak.dom
  peaks := findPeaks b mag peak.maxIndex
  label := classify b.classes peak.dom

/-- What `IMPULSE_STEP` returns and writes (R175): the event if the detector fired, and the new
`PREV_SUM` and `LAST_IMP_TS`. -/
structure Impulse where
  event : Option ImpulseEvent
  prevSum : F32
  lastImpTs : DWord
  deriving DecidableEq, Repr

/-- `IMPULSE_STEP(mag, dom, maxIndex, now)` (R173 to R175). -/
def impulseStep (b : Build) (prevSum : F32) (lastImpTs : DWord) (mag : List F32) (peak : Peak)
    (time : DWord) : Impulse :=
  if fires b (energy mag) prevSum time lastImpTs peak.dom then
    ⟨some (impulseEvent b mag peak time), energy mag, time⟩
  else ⟨none, energy mag, lastImpTs⟩

end Sys2Proof.Machine
end

