-- ==== Sys2Proof/Machine/Analyze.lean ====
section
/-! DEFINITION. The command `ANALYZE` (41_spectral.md R130): the whole per-frame path in one step. -/

namespace Sys2Proof.Machine

open Sys2Proof.Config

/-- `W.IMP` after a frame: the new event if one fired, else what the policy says (44_snapshot.md
R194). -/
def latestImpulse (policy : ImpulsePolicy) (old event : Option ImpulseEvent) :
    Option ImpulseEvent :=
  match event, policy with
  | some e, _ => some e
  | none, .retain => old
  | none, .perFrame => none

/-- The spectrum of the frame in the buffer. -/
def frameSpectrum (s : State) : List F32 := spectrumOf s.build s.fb

/-- The dominant peak of the frame in the buffer. -/
def framePeak (s : State) : Peak := detectPeak s.build (frameSpectrum s)

/-- The detector's step on the frame in the buffer. -/
def frameImpulse (s : State) : Impulse :=
  impulseStep s.build s.prevSum s.lastImpTs (frameSpectrum s) (framePeak s) (now s)

/-- The state before `publish()`: the detector's state and `W` written, the frame consumed (R130,
40_frame_input.md R124). -/
def analyzed (s : State) : State :=
  { s with
    prevSum := (frameImpulse s).prevSum
    lastImpTs := (frameImpulse s).lastImpTs
    w :=
      { mag := frameSpectrum s
        dom := (framePeak s).dom
        recording := true
        imp := latestImpulse s.build.policy s.w.imp (frameImpulse s).event }
    accCount := 0 }

/-- `ANALYZE now` (R130). -/
def execAnalyze (s : State) : Result :=
  onProducer s <|
    match s.recState with
    | .idle => raiseStatus s .wrongState
    | .recording =>
      if s.accCount < s.build.frameBytes then raiseStatus s .notFull
      else
        publishThen (analyzed s) fun skipped t =>
          succeed t
            (analyzeData (framePeak s).maxIndex skipped (framePeak s).valid
              (frameImpulse s).event.isSome)

end Sys2Proof.Machine
end

