-- ==== Sys2Proof/Machine/Control.lean ====
section
/-! DEFINITION. The control and register-access commands (45_control.md R220, R221). -/

namespace Sys2Proof.Machine

open Sys2Proof.Config

/-- `NOP` (R220). -/
def execNop (s : State) : Result := succeed s 0#32

/-- `REGVALUE(reg)`: the value columns of 10_state.md R61 and R62; `none` for a reserved number. -/
def regValue (s : State) (reg : Nat) : Option Word :=
  match reg with
  | 0x00 => some (BitVec.ofNat 32 s.build.fftLength)
  | 0x01 => some (BitVec.ofNat 32 s.build.sampleRate)
  | 0x02 => some s.build.binWidth
  | 0x03 => some s.build.freqCutoff
  | 0x04 => some s.build.lowThr
  | 0x05 => some s.build.highThr
  | 0x06 => some s.build.impulseThr
  | 0x07 => some (s.build.refractoryMs.extractLsb' 0 32)
  | 0x08 => some s.build.minImpulseFreq
  | 0x09 => some (geomReg s.build)
  | 0x0A => some s.build.classes.aLo
  | 0x0B => some s.build.classes.aHi
  | 0x0C => some s.build.classes.bLo
  | 0x0D => some s.build.classes.bHi
  | 0x0E => some s.build.classes.cLo
  | 0x0F => some s.build.classes.cHi
  | 0x10 => some (statusReg s)
  | 0x11 => some (BitVec.ofNat 32 s.accCount)
  | 0x12 => some s.prevSum
  | 0x13 => some (s.lastImpTs.extractLsb' 0 32)
  | 0x14 => some (s.lastImpTs.extractLsb' 32 32)
  | 0x15 => some s.cur
  | 0x16 => some s.w.dom
  | _ => none

/-- `CSR_READ reg` (R221): on every port, no side effect. -/
def execCsrRead (reg : Half) (s : State) : Result :=
  match regValue s reg.toNat with
  | none => raiseStatus s .badReg
  | some v => succeed s v

end Sys2Proof.Machine
end

