-- ==== Sys2Proof/Machine/FrameInput.lean ====
section
/-! DEFINITION. The frame input commands (40_frame_input.md R120 to R122). -/

namespace Sys2Proof.Machine

open Sys2Proof.Config

/-- The state after the accepted bytes were appended (R120). -/
def accepted (s : State) : State :=
  { s with fb := fbWrite s.fb s.accCount (takenBytes s), accCount := s.accCount + takeCount s }

/-- `ACC_PUSH L` (R120). A transaction whose `DIN` does not hold `L` bytes is refused before anything
else (30_encoding.md R91, log 10). -/
def execAccPush (len : Half) (s : State) : Result :=
  if s.txn.din.length ≠ len.toNat then .refused .dinLengthMismatch
  else onProducer s <|
    match s.recState with
    | .idle => raiseStatus s .wrongState
    | .recording =>
      succeed (accepted s) (accPushData (bufferFull (accepted s)) (takeCount s))

/-- `ACC_RESET` (R122): the bytes of the buffer stay where they are. -/
def execAccReset (s : State) : Result :=
  onProducer s <| succeed { s with accCount := 0 } 0#32

end Sys2Proof.Machine
end

