-- ==== Sys2Proof/Machine/Gate.lean ====
section
/-! DEFINITION. The reader commands of the snapshot gate (44_snapshot.md R197 to R199, 30_encoding.md
R100). -/

namespace Sys2Proof.Machine

open Sys2Proof.Config

/-- The state with `PIN[r]` written; a version that is no longer current or pinned leaves the store
(10_state.md R57, R58). -/
def withPin (s : State) (r : Reader) (v : Option Version) : State :=
  { s with pin := setPin s.pin r v, snap := retained s.snap s.cur (setPin s.pin r v) }

/-- `SNAP_ACQUIRE` (R197). -/
def execSnapAcquire (s : State) : Result :=
  onReader s fun r =>
    if gateIsBusy s then raiseStatus (afterDraw s) .busy
    else succeed (withPin (afterDraw s) r (some s.cur)) s.cur

/-- A field of the event: `NO_DATA` when there is none (R198). -/
def impulseField (imp : Option ImpulseEvent) (f : ImpulseEvent → Except Status Word) :
    Except Status Word :=
  match imp with
  | none => .error .noData
  | some e => f e

/-- A field of peak `j` of the event: `BAD_INDEX` when `j >= NPEAKS` (R198). -/
def peakField (e : ImpulseEvent) (j : Nat) (f : PeakData → Word) : Except Status Word :=
  match e.peaks[j]? with
  | none => .error .badIndex
  | some p => .ok (f p)

/-- `FIELD(S, v, sel, idx)` with the checks on the record (R198, the table of R100). -/
def snapField (b : Build) (rec : Snapshot) (v : Version) (sel : Selector) (idx : Nat) : Except Status Word :=
  match sel with
  | .mag => if b.nbins ≤ idx then .error .badIndex else .ok (rec.mag.getD idx 0#32)
  | .dom => .ok rec.dom
  | .recording => .ok (bitWord rec.recording)
  | .impPresent => .ok (bitWord rec.imp.isSome)
  | .impTsLo => impulseField rec.imp fun e => .ok (e.ts.extractLsb' 0 32)
  | .impTsHi => impulseField rec.imp fun e => .ok (e.ts.extractLsb' 32 32)
  | .impFreq => impulseField rec.imp fun e => .ok e.freq
  | .impNpeaks => impulseField rec.imp fun e => .ok (BitVec.ofNat 32 e.peaks.length)
  | .pkIdx => impulseField rec.imp fun e => peakField e idx fun p => BitVec.ofNat 32 p.idx
  | .pkFreq => impulseField rec.imp fun e => peakField e idx fun p => p.freq
  | .pkMag => impulseField rec.imp fun e => peakField e idx fun p => p.mag
  | .impLabel => impulseField rec.imp fun e => .ok (labelCode e.label)
  | .version => .ok v

/-- `SNAP_READ sel, idx` (R198). No state is written. -/
def execSnapRead (sel : Selector) (idx : Half) (s : State) : Result :=
  onReader s fun r =>
    match pinOf s.pin r with
    | none => raiseStatus s .noPin
    | some v =>
      match snapAt s.snap v with
      | none => .refused .pinnedVersionMissing
      | some rec =>
        match snapField s.build rec v sel idx.toNat with
        | .error e => raiseStatus s e
        | .ok x => succeed s x

/-- `SNAP_RELEASE` (R199). -/
def execSnapRelease (s : State) : Result :=
  onReader s fun r => succeed (withPin s r none) 0#32

end Sys2Proof.Machine
end

