-- ==== Sys2Proof/Machine/Recording.lean ====
section
/-! DEFINITION. The recording state machine and the idle republish (44_snapshot.md R190 to R195). -/

namespace Sys2Proof.Machine

open Sys2Proof.Config

/-- `EDGE(level, prev)` (R191). -/
def edge (mode : ButtonMode) (level prev : Bool) : Bool :=
  match mode with
  | .toggle => true
  | .rising => level && !prev

/-- `TRANSITION()` (R192). -/
def transition (s : State) : State :=
  match s.recState with
  | .idle =>
    { s with
      recState := .recording
      w := { s.w with imp := none, recording := true }
      accCount := 0 }
  | .recording =>
    { s with
      recState := .idle
      w := { s.w with recording := false }
      accCount := 0 }

/-- `BUTTON_EDGE level` (R190). -/
def execButtonEdge (level : Bool) (s : State) : Result :=
  onProducer s <|
    if edge s.build.buttonMode level s.btnLevel then
      publishThen (transition { s with btnLevel := level }) fun skipped t =>
        succeed t (buttonData skipped true t.recState)
    else succeed { s with btnLevel := level } (buttonData false false s.recState)

/-- `IDLE_TICK` (R195). -/
def execIdleTick (s : State) : Result :=
  onProducer s <|
    match s.recState with
    | .recording => raiseStatus s .wrongState
    | .idle => publishThen s fun skipped t => succeed t (idleTickData skipped)

end Sys2Proof.Machine
end

