-- ==== Sys2Proof/Machine/Dispatch.lean ====
section
/-! DEFINITION. The dispatch: one arm per command (30_encoding.md R95). -/

namespace Sys2Proof.Machine

def exec (i : Instr) (s : State) : Host.Outcome State Fault Refusal :=
  match i with
  | .nop => Sys2Proof.Machine.execNop s
  | .accPush len => Sys2Proof.Machine.execAccPush len s
  | .accReset => Sys2Proof.Machine.execAccReset s
  | .analyze => Sys2Proof.Machine.execAnalyze s
  | .buttonEdge level => Sys2Proof.Machine.execButtonEdge level s
  | .idleTick => Sys2Proof.Machine.execIdleTick s
  | .csrRead reg => Sys2Proof.Machine.execCsrRead reg s
  | .snapAcquire => Sys2Proof.Machine.execSnapAcquire s
  | .snapRead sel idx => Sys2Proof.Machine.execSnapRead sel idx s
  | .snapRelease => Sys2Proof.Machine.execSnapRelease s

end Sys2Proof.Machine
end

