-- ==== Sys2Proof/Machine/Transact.lean ====
section
/-! DEFINITION. One input of the block: a command transaction, decoded and executed (30_encoding.md
R97), or the reset input (70_reset_and_hazards.md R260). -/

namespace Sys2Proof.Machine

/-- The state in which the command of the transaction `q` executes. -/
def latch (s : State) (q : Request) (rest : List Input) : State := { s with inbox := rest, txn := q }

/-- One command transaction: a word that does not decode is `ILLEGAL` (30_encoding.md R97, R98), whatever
`DIN` it comes with: decoding is before the check of R91 (log 23). -/
def transact (s : State) (q : Request) (rest : List Input) : Result :=
  match decode q.cmd with
  | .error _ => raiseStatus (latch s q rest) .illegal
  | .ok i => exec i (latch s q rest)

/-- The reset input: every state element takes its reset value at once; the build is not state that
resets, and the inputs still to come are the agents' (log 15). -/
def resetInput (s : State) (rest : List Input) : State :=
  { resetOf s.build with inbox := rest, draws := s.draws }

end Sys2Proof.Machine
end

