-- ==== Sys2Proof/Machine/Step.lean ====
section
/-! DEFINITION. One step of the block: it takes the next input of the order `<cmd` (20_memory.md R80);
with no input nothing happens (00_scope.md R23). -/

namespace Sys2Proof.Machine

def step (s : State) : Host.Outcome State Fault Refusal :=
  if !buildValid s.build then .refused .configurationInvalid
  else
    match s.inbox with
    | [] => .next s
    | .reset :: rest => .next (resetInput s rest)
    | .command q :: rest => transact s q rest

/-- The state with the command word `w` issued next (log 16). -/
def State.withFetchWord (s : State) (nbits w : Nat) : State :=
  { s with inbox := .command (requestFor (BitVec.ofNat 32 (w % 2 ^ nbits))) :: s.inbox }

end Sys2Proof.Machine
end

