-- ==== Sys2Proof/Safety.lean ====
section
/-! DEFINITION. What a safe state of the block is, and the terms the claims use: the answer a command
gives, the words decoding rejects, and the invariants every step keeps. -/

namespace Sys2Proof.Machine

open Sys2Proof.Config

/-! ## Answers -/

/-- The command `i` completes with status `OK` and `DATA = v`, and changes no state but the response
on its own port. -/
def answers (i : Instr) (s : State) (v : Word) : Prop :=
  exec i s = .next { s with rsp := deliver s.rsp s.txn.port ⟨.ok, v⟩ }

/-- The command `i` is turned away with the error `e` and `DATA = 0`, and changes no state but the
response on its own port (60_exceptions.md R230). -/
def rejects (i : Instr) (s : State) (e : Status) : Prop :=
  exec i s = .next { s with rsp := deliver s.rsp s.txn.port ⟨e, 0#32⟩ }

/-! ## The values R8 gives -/

/-- The constants whose value 00_scope.md R8 gives have it; the OPEN ones and the window are free. -/
structure CanonicalR8 (b : Build) : Prop where
  fftLength : b.fftLength = 2048
  sampleRate : b.sampleRate = 48000
  binWidth : b.binWidth = 0x41BB8000#32
  refractoryMs : b.refractoryMs = 100#64
  minImpulseFreq : b.minImpulseFreq = 0x42C80000#32
  peakHalfWindow : b.peakHalfWindow = 25
  peaksPerSide : b.peaksPerSide = 5
  classes : b.classes = classesR8
  policy : b.policy = .retain
  gateBusy : b.gateBusy = false

/-! ## Correct rounding (00_scope.md R11) -/

/-- `r` is what the exact result `x`, in units of `2^-149`, rounds to, with the sign bit `neg`: the finite
value nearest to `x`, of two equally near the one with the even encoding; or infinity, from the midpoint
between the largest finite value and `2^128` on. -/
def roundsTo (x : ℝ) (neg : Bool) (r : F32) : Prop :=
  f32Sign r = neg ∧
  (|x| < 2 ^ 277 - 2 ^ 252 → f32IsFinite r = true ∧ ∀ c : F32, f32IsFinite c = true →
    |(f32Val r : ℝ) - x| ≤ |(f32Val c : ℝ) - x| ∧
    (|(f32Val r : ℝ) - x| = |(f32Val c : ℝ) - x| → f32Val c ≠ f32Val r → r.toNat % 2 = 0)) ∧
  (2 ^ 277 - 2 ^ 252 ≤ |x| → f32IsInf r = true)

/-! ## Words that are not commands (30_encoding.md R97) -/

/-- The conditions of R97 under which a command word raises `ILLEGAL`, on the numeric fields of R92. -/
abbrev illegalFields (opc sel rsv imm : Nat) : Prop :=
  ¬(opc ≤ 0x06 ∨ (0x10 ≤ opc ∧ opc ≤ 0x12)) ∨
  rsv ≠ 0 ∨
  (opc = 0x04 ∧ (sel / 2 ≠ 0 ∨ imm ≠ 0)) ∨
  (opc = 0x11 ∧
    (13 ≤ sel ∨ (sel ≠ 0 ∧ sel ≠ 8 ∧ sel ≠ 9 ∧ sel ≠ 10 ∧ imm ≠ 0))) ∨
  ((opc = 0x01 ∨ opc = 0x06) ∧ sel ≠ 0) ∨
  ((opc = 0x00 ∨ opc = 0x02 ∨ opc = 0x03 ∨ opc = 0x05 ∨ opc = 0x10 ∨ opc = 0x12) ∧
    (sel ≠ 0 ∨ imm ≠ 0))

/-- The command word `w` raises `ILLEGAL`. -/
abbrev illegalWord (w : Word) : Prop :=
  illegalFields (w.toNat % 256) (w.toNat / 256 % 16) (w.toNat / 4096 % 16) (w.toNat / 65536)

/-! ## The order of the checks (60_exceptions.md R233) -/

/-- The first check of `SNAP_READ` that fails, for the selector `sel` and the index `imm`: `NO_PIN`,
`NO_DATA`, `BAD_INDEX`. -/
def firstReadFailure (s : State) (port : Port) (sel imm : Nat) : Status :=
  match (match port with | .p => none | .rd r => pinOf s.pin r) with
  | none => .noPin
  | some v =>
    match snapAt s.snap v with
    | none => .ok
    | some x =>
      if x.imp = none ∧ 4 ≤ sel ∧ sel ≤ 11 then .noData
      else if (sel = 0 ∧ s.build.nbins ≤ imm) ∨
          (8 ≤ sel ∧ sel ≤ 10 ∧ ((x.imp.map (·.peaks.length)).getD 0) ≤ imm) then .badIndex
      else .ok

/-- The first check that fails for the transaction `q` issued in `s`, on the numeric fields of R92; `ok`
when none does. -/
def firstFailure (s : State) (q : Request) : Status :=
  let opc := q.cmd.toNat % 256
  let imm := q.cmd.toNat / 65536
  if illegalWord q.cmd then .illegal
  else if (1 ≤ opc ∧ opc ≤ 5 ∧ q.port ≠ .p) ∨ (0x10 ≤ opc ∧ q.port = .p) then .portDenied
  else if ((opc = 1 ∨ opc = 3) ∧ s.recState = .idle) ∨ (opc = 5 ∧ s.recState = .recording) then
    .wrongState
  else if opc = 3 ∧ s.accCount < s.build.frameBytes then .notFull
  else if opc = 6 ∧ 0x16 < imm then .badReg
  else if opc = 0x10 ∧ gateIsBusy s = true then .busy
  else if opc = 0x11 then firstReadFailure s q.port (q.cmd.toNat / 256 % 16) imm
  else .ok

/-! ## Commands that publish (44_snapshot.md R196) -/

/-- The command `i`, executed in `s`, reaches `publish()`: it passed its port and state checks and is
an `ANALYZE`, a `BUTTON_EDGE` with an edge, or an `IDLE_TICK`. -/
def reachesPublish (i : Instr) (s : State) : Prop :=
  s.txn.port = .p ∧
  ((i = .analyze ∧ s.recState = .recording ∧ s.build.frameBytes ≤ s.accCount) ∨
   (∃ level, i = .buttonEdge level ∧
     (s.build.buttonMode = .toggle ∨ (level = true ∧ s.btnLevel = false))) ∨
   (i = .idleTick ∧ s.recState = .idle))

/-! ## Invariants -/

/-- The frame buffer is in canonical form and no progress exceeds it (10_state.md R33, R34). -/
structure FrameInv (s : State) : Prop where
  canonical : fbWf s.build.frameBytes s.fb = true
  progress : s.accCount ≤ s.build.frameBytes

/-- The snapshot store (10_state.md R56 to R58): the current and every pinned version are stored, once,
and nothing else is, so at most `NUM_READERS + 1` records. -/
structure StoreInv (s : State) : Prop where
  currentStored : (snapAt s.snap s.cur).isSome = true
  pinnedStored : ∀ r v, pinOf s.pin r = some v → (snapAt s.snap v).isSome = true
  distinct : (s.snap.map (·.1)).Nodup
  live : ∀ x ∈ s.snap, x.1 = s.cur ∨ pinned s.pin x.1 = true

/-- A peak list as 10_state.md R45 and R47 require it: 1 to `MAX_PEAKS` bins of the spectrum in strictly
ascending order, each with its own bin frequency. -/
structure PeaksOk (b : Build) (ps : List PeakData) : Prop where
  nonempty : 1 ≤ ps.length
  bounded : ps.length ≤ b.maxPeaks
  ascending : ps.Pairwise fun x y => x.idx < y.idx
  inSpectrum : ∀ p ∈ ps, p.idx < b.nbins
  ownFrequency : ∀ p ∈ ps, p.freq = binFreq b p.idx

/-- An event as 10_state.md R47 and 43_impulse.md R182 require it. -/
structure EventOk (b : Build) (e : ImpulseEvent) : Prop where
  peaks : PeaksOk b e.peaks
  label : e.label = classify b.classes e.freq

/-- A snapshot record as 10_state.md R48 and R49 require it: `NBINS` magnitudes, and a sound event. -/
structure SnapshotOk (b : Build) (r : Snapshot) : Prop where
  length : r.mag.length = b.nbins
  event : ∀ e, r.imp = some e → EventOk b e

/-- The records of the state: `W` and everything stored is sound, `W.REC` shows the recording state, and
the event in `W` is the last one that fired. -/
structure RecordInv (s : State) : Prop where
  working : SnapshotOk s.build s.w
  stored : ∀ x ∈ s.snap, SnapshotOk s.build x.2
  recording : s.w.recording = true ↔ s.recState = .recording
  lastEvent : ∀ e, s.w.imp = some e → e.ts = s.lastImpTs

/-- With the block's gate (`GATE_BUSY = false`) the current snapshot is `W`. -/
def PublishedInv (s : State) : Prop := s.build.gateBusy = false → snapAt s.snap s.cur = some s.w

/-- A safe state: all of the above. -/
structure Inv (s : State) : Prop where
  frame : FrameInv s
  store : StoreInv s
  records : RecordInv s
  published : PublishedInv s

/-! ## States that differ in the frame buffer alone -/

/-- The two states agree in everything but frame-buffer bytes at or above `ACC_COUNT`
(10_state.md R33). -/
def agreeBelowProgress (s t : State) : Prop :=
  t = { s with fb := t.fb } ∧ ∀ a, a < s.accCount → fbRead s.fb a = fbRead t.fb a

end Sys2Proof.Machine
end

