-- ==== Sys2Proof/Certificates/Slice0/Obligations.lean ====
section
/-! DEFINITION. The statements for the provers. Each formalises rules of the spec, named in its
docstring; `answers`, `rejects`, `illegalWord`, `reachesPublish`, `firstFailure` and the invariants are defined in
Sys2Proof/Safety.lean. The fields `inbox`, `txn`, `rsp` and `draws` are the model's own carriers of the
inputs, the transaction, the responses and the gate draws (logs 1, 2, 14). -/

open Sys2Proof Sys2Proof.Config Sys2Proof.Machine

/-! ## Encoding and stepping -/

/-- R92: the command word is `zext(OPC) | zext(SEL) << 8 | zext(RSV) << 12 | zext(IMM) << 16`, and its
four fields are read back at bits 7..0, 11..8, 15..12 and 31..16. `SEL` holds the button level of
`BUTTON_EDGE` (bit 8) and the selector of `SNAP_READ`, `IMM` the byte count, the register number or the
index; both are 0 in every other command. -/
def Obligations.CommandWordLayout : Prop :=
  ∀ (opc : BitVec 8) (sel rsv : BitVec 4) (imm : Half),
    packC32 opc sel rsv imm =
      opc.setWidth 32 ||| (sel.setWidth 32 <<< 8) ||| (rsv.setWidth 32 <<< 12) |||
        (imm.setWidth 32 <<< 16) ∧
    fieldOpc (packC32 opc sel rsv imm) = opc ∧ fieldSel (packC32 opc sel rsv imm) = sel ∧
    fieldRsv (packC32 opc sel rsv imm) = rsv ∧ fieldImm (packC32 opc sel rsv imm) = imm ∧
    encode .nop = packC32 0x00#8 0#4 0#4 0#16 ∧
    (∀ len, encode (.accPush len) = packC32 0x01#8 0#4 0#4 len) ∧
    encode .accReset = packC32 0x02#8 0#4 0#4 0#16 ∧
    encode .analyze = packC32 0x03#8 0#4 0#4 0#16 ∧
    encode (.buttonEdge true) = packC32 0x04#8 1#4 0#4 0#16 ∧
    encode (.buttonEdge false) = packC32 0x04#8 0#4 0#4 0#16 ∧
    encode .idleTick = packC32 0x05#8 0#4 0#4 0#16 ∧
    (∀ reg, encode (.csrRead reg) = packC32 0x06#8 0#4 0#4 reg) ∧
    encode .snapAcquire = packC32 0x10#8 0#4 0#4 0#16 ∧
    (∀ field idx, encode (.snapRead field idx) = packC32 0x11#8 field.code 0#4 idx) ∧
    encode .snapRelease = packC32 0x12#8 0#4 0#4 0#16

/-- R92, R95, R97, R100: decoding inverts encoding on every well-formed command, and a word that decodes
is the encoding of the well-formed command it decodes to. -/
def Obligations.DecodeInvertsEncode : Prop :=
  (∀ i : Instr, i.wellFormed = true → decode (encode i) = .ok i) ∧
  (∀ (w : Word) (i : Instr), decode w = .ok i → i.wellFormed = true ∧ encode i = w)

/-- R99: the worked command words decode to the commands of their lines. -/
def Obligations.WorkedCommandWordsDecode : Prop :=
  decode 0x00000000#32 = .ok .nop ∧
  decode 0x10000001#32 = .ok (.accPush 4096#16) ∧
  decode 0x20000001#32 = .ok (.accPush 8192#16) ∧
  decode 0x00000002#32 = .ok .accReset ∧
  decode 0x00000003#32 = .ok .analyze ∧
  decode 0x00000104#32 = .ok (.buttonEdge true) ∧
  decode 0x00000004#32 = .ok (.buttonEdge false) ∧
  decode 0x00000005#32 = .ok .idleTick ∧
  decode 0x00110006#32 = .ok (.csrRead 0x0011#16) ∧
  decode 0x00000010#32 = .ok .snapAcquire ∧
  decode 0x00400011#32 = .ok (.snapRead .mag 64#16) ∧
  decode 0x00000111#32 = .ok (.snapRead .dom 0#16) ∧
  decode 0x00020811#32 = .ok (.snapRead .pkIdx 2#16) ∧
  decode 0x00000012#32 = .ok .snapRelease

/-- R98 with the conditions of R97: a reserved opcode, a nonzero `RSV` and a nonzero must-be-zero field
answer `ILLEGAL` with no other effect; every other word is the encoding of a command. That a word of
opcode 0x01 does so whatever the length of its `DIN`, R91 notwithstanding, is the model's choice
(log 23). -/
def Obligations.IllegalWordsHaveNoEffect : Prop :=
  ∀ (s : State) (q : Request) (rest : List Input), buildValid s.build = true →
    s.inbox = .command q :: rest →
    (illegalWord q.cmd →
      step s =
        .next { s with
          inbox := rest, txn := q, rsp := deliver s.rsp q.port ⟨.illegal, 0#32⟩ }) ∧
    (¬ illegalWord q.cmd → ∃ i : Instr, decode q.cmd = .ok i ∧ encode i = q.cmd)

/-- R21, R97: a step whose next transaction decodes to `i` is `exec i` with that transaction taken from
the inputs; nothing else surrounds it. -/
def Obligations.StepExecutesDecodedCommand : Prop :=
  ∀ (s : State) (q : Request) (rest : List Input) (i : Instr), buildValid s.build = true →
    s.inbox = .command q :: rest → decode q.cmd = .ok i →
    step s = exec i { s with inbox := rest, txn := q }

/-- R23: with no command issued nothing happens. R23 gives the block no step of its own then; that the
model's step answers the same state is the model's choice (log 17). -/
def Obligations.NothingHappensBetweenCommands : Prop :=
  ∀ s : State, buildValid s.build = true → s.inbox = [] → step s = .next s

/-- R240: a step is refused exactly for an invalid configuration, a `DIN` of the wrong length, or a
publish that would reuse a pinned version; it never faults. `StoreInv` (10_state.md R58) rules out a
pin on a version that is not stored. The model's choices: every step of an invalid configuration is
refused (log 12), the length of `DIN` is checked before the port and the state (log 10) and after
decoding (log 23). -/
def Obligations.StepsAreRefusedForThreeReasonsOnly : Prop :=
  ∀ s : State, StoreInv s →
    (∀ f : Fault, step s ≠ .fault f) ∧
    ((∃ r : Refusal, step s = .refused r) ↔
      buildValid s.build = false ∨
      ∃ (q : Request) (rest : List Input) (i : Instr),
        s.inbox = .command q :: rest ∧ decode q.cmd = .ok i ∧
        ((∃ len : Half, i = .accPush len ∧ q.din.length ≠ len.toNat) ∨
         (reachesPublish i { s with inbox := rest, txn := q } ∧ gateIsBusy s = false ∧
           pinned s.pin (s.cur + 1#32) = true)))

/-- R9, R10, R240: a configuration is valid exactly when `N` is a power of two and at least 4, `FS > 0`,
`BIN_WIDTH` is the finite value `FS/N` exactly, and both band thresholds are at least 0; an invalid one
is refused. That every step of it is refused, the reset input and a step without input included, is the
model's choice (log 12). Values are in units of `2^-149`. -/
def Obligations.InvalidConfigurationsAreRefused : Prop :=
  ∀ s : State,
    (buildValid s.build = true ↔
      (∃ k, s.build.fftLength = 2 ^ k) ∧ 4 ≤ s.build.fftLength ∧ 0 < s.build.sampleRate ∧
      f32IsFinite s.build.binWidth = true ∧
      f32Val s.build.binWidth * s.build.fftLength = s.build.sampleRate * 2 ^ 149 ∧
      f32Le 0#32 s.build.lowThr = true ∧ f32Le 0#32 s.build.highThr = true) ∧
    (buildValid s.build = false → step s = .refused .configurationInvalid)

/-! ## Reset -/

/-- R260, R261: the reset input gives every state element its reset value at once, in any state. The
build (with `HANN_TABLE`) is constant. -/
def Obligations.ResetInputSetsResetValues : Prop :=
  ∀ (s : State) (rest : List Input), buildValid s.build = true → s.inbox = .reset :: rest →
    ∃ t : State, step s = .next t ∧
      t.accCount = 0 ∧ t.recState = .idle ∧ t.btnLevel = false ∧ t.prevSum = 0#32 ∧
      t.lastImpTs = 0#64 ∧ t.build = s.build ∧
      t.w = ⟨List.replicate s.build.nbins 0#32, 0#32, false, none⟩ ∧ t.cur = 0#32 ∧
      (∀ v r, snapAt t.snap v = some r ↔ v = 0#32 ∧ r = t.w) ∧
      (∀ r, pinOf t.pin r = none) ∧ statusReg t = 0#32

/-- The invariants hold right after reset, whatever the build (10_state.md R34, R47 to R50, R56 to R58).
That the frame buffer, whose contents R33 leaves open, is a canonical list then is the model's choice
(log 5), and so is that the store holds each version once and nothing else (log 9). -/
def Obligations.InvariantHoldsAtReset : Prop := ∀ b : Build, Inv (resetOf b)

/-! ## Control and register access -/

/-- R220: `NOP` answers 0 on every port and writes no state. -/
def Obligations.NopAnswersZero : Prop := ∀ s : State, answers .nop s 0#32

/-- R61: the configuration registers read the constants of R8, on every port and in every state; at the
values R8 gives, they read what R61 lists. That a constant too wide for its register or field of
`CFG_GEOM` reads as its low bits is the model's choice (log 19). -/
def Obligations.ConfigurationRegistersRead : Prop :=
  ∀ s : State,
    answers (.csrRead 0x0000#16) s (BitVec.ofNat 32 s.build.fftLength) ∧
    answers (.csrRead 0x0001#16) s (BitVec.ofNat 32 s.build.sampleRate) ∧
    answers (.csrRead 0x0002#16) s s.build.binWidth ∧
    answers (.csrRead 0x0003#16) s s.build.freqCutoff ∧
    answers (.csrRead 0x0004#16) s s.build.lowThr ∧
    answers (.csrRead 0x0005#16) s s.build.highThr ∧
    answers (.csrRead 0x0006#16) s s.build.impulseThr ∧
    answers (.csrRead 0x0007#16) s (BitVec.ofNat 32 s.build.refractoryMs.toNat) ∧
    answers (.csrRead 0x0008#16) s s.build.minImpulseFreq ∧
    answers (.csrRead 0x0009#16) s
      (BitVec.ofNat 32 (s.build.peakHalfWindow % 2 ^ 8 + s.build.peaksPerSide % 2 ^ 8 * 2 ^ 8 +
        2 * 2 ^ 16 + (if s.build.buttonMode = .toggle then 2 ^ 24 else 0) +
        (if s.build.policy = .perFrame then 2 ^ 25 else 0) +
        (if s.build.gateBusy = true then 2 ^ 26 else 0))) ∧
    answers (.csrRead 0x000A#16) s s.build.classes.aLo ∧
    answers (.csrRead 0x000B#16) s s.build.classes.aHi ∧
    answers (.csrRead 0x000C#16) s s.build.classes.bLo ∧
    answers (.csrRead 0x000D#16) s s.build.classes.bHi ∧
    answers (.csrRead 0x000E#16) s s.build.classes.cLo ∧
    answers (.csrRead 0x000F#16) s s.build.classes.cHi ∧
    (CanonicalR8 s.build →
      answers (.csrRead 0x0000#16) s 2048#32 ∧ answers (.csrRead 0x0001#16) s 48000#32 ∧
      answers (.csrRead 0x0002#16) s 0x41BB8000#32 ∧ answers (.csrRead 0x0007#16) s 100#32 ∧
      answers (.csrRead 0x0008#16) s 0x42C80000#32 ∧
      answers (.csrRead 0x0009#16) s
        (if s.build.buttonMode = .toggle then 0x01020519#32 else 0x00020519#32) ∧
      answers (.csrRead 0x000A#16) s 0x44ED8000#32 ∧ answers (.csrRead 0x000B#16) s 0x452F0000#32 ∧
      answers (.csrRead 0x000C#16) s 0x442F0000#32 ∧ answers (.csrRead 0x000D#16) s 0x4460C000#32 ∧
      answers (.csrRead 0x000E#16) s 0x44610000#32 ∧ answers (.csrRead 0x000F#16) s 0x44D48000#32)

/-- R62: the status registers read the state at the command's place in the order; right after reset each
reads 0. That an `ACC_COUNT` of more than 32 bits reads as its low bits is the model's choice
(log 19). -/
def Obligations.StatusRegistersRead : Prop :=
  ∀ s : State,
    answers (.csrRead 0x0010#16) s
      (BitVec.ofNat 32 ((if s.recState = .recording then 1 else 0) +
        (if s.accCount = s.build.frameBytes then 2 else 0) + (if s.btnLevel = true then 4 else 0) +
        (if s.w.imp = none then 0 else 8))) ∧
    answers (.csrRead 0x0011#16) s (BitVec.ofNat 32 s.accCount) ∧
    answers (.csrRead 0x0012#16) s s.prevSum ∧
    answers (.csrRead 0x0013#16) s (BitVec.ofNat 32 s.lastImpTs.toNat) ∧
    answers (.csrRead 0x0014#16) s (BitVec.ofNat 32 (s.lastImpTs.toNat / 2 ^ 32)) ∧
    answers (.csrRead 0x0015#16) s s.cur ∧
    answers (.csrRead 0x0016#16) s s.w.dom ∧
    (buildValid s.build = true → ∀ reg : Half, 0x0010 ≤ reg.toNat → reg.toNat ≤ 0x0016 →
      answers (.csrRead reg) (resetOf s.build) 0#32)

/-- R60, R221: a register number above 0x0016 is reserved and raises `BAD_REG`; every other number
answers a value, on every port. -/
def Obligations.ReservedRegistersAreRejected : Prop :=
  ∀ (s : State) (reg : Half),
    if reg.toNat ≤ 0x0016 then ∃ v, answers (.csrRead reg) s v
    else rejects (.csrRead reg) s .badReg

/-! ## Ports, errors and responses -/

/-- R241: the producer commands are denied on a reader port and the reader commands on port `P`; `NOP`
and `CSR_READ` are denied on none. (An `ACC_PUSH` whose `DIN` has another length than `IMM` is no
transaction, R91.) -/
def Obligations.PortPermissions : Prop :=
  ∀ s : State,
    (∀ r : Reader, s.txn.port = .rd r →
      (∀ len : Half, s.txn.din.length = len.toNat → rejects (.accPush len) s .portDenied) ∧
      rejects .accReset s .portDenied ∧ rejects .analyze s .portDenied ∧
      (∀ level, rejects (.buttonEdge level) s .portDenied) ∧ rejects .idleTick s .portDenied) ∧
    (s.txn.port = .p →
      rejects .snapAcquire s .portDenied ∧
      (∀ sel idx, rejects (.snapRead sel idx) s .portDenied) ∧
      rejects .snapRelease s .portDenied) ∧
    ¬ rejects .nop s .portDenied ∧ (∀ reg, ¬ rejects (.csrRead reg) s .portDenied)

/-- R230, R96: a command that answers another status than `OK` returns `DATA = 0` and changes no state.
(`draws` is the model's own counter of gate draws, log 14.) -/
def Obligations.ErrorsChangeNoState : Prop :=
  ∀ (s t : State) (q : Request) (rest : List Input) (x : Response),
    s.inbox = .command q :: rest → step s = .next t →
    responseOn t.rsp q.port = some x → x.status ≠ .ok →
    x.data = 0#32 ∧
    t = { s with
      inbox := rest, txn := q, rsp := deliver s.rsp q.port x, draws := t.draws }

/-- R239: every command that completes is answered on its own port, and on no other. -/
def Obligations.ResponsesGoToTheIssuingPort : Prop :=
  ∀ (s t : State) (q : Request) (rest : List Input),
    s.inbox = .command q :: rest → step s = .next t →
    (∃ x, t.rsp = deliver s.rsp q.port x) ∧
    ∀ port, port ≠ q.port → responseOn t.rsp port = responseOn s.rsp port

/-- R233: a command that completes reports exactly one status: that of the first check that fails, in the
order `ILLEGAL`, `PORT_DENIED`, the command's own checks, and `OK` when none fails. -/
def Obligations.ErrorsAreReportedInOrder : Prop :=
  ∀ (s t : State) (q : Request) (rest : List Input),
    s.inbox = .command q :: rest → step s = .next t →
    ∃ x, responseOn t.rsp q.port = some x ∧ x.status = firstFailure s q

/-- R79: `NOP`, `CSR_READ` and `SNAP_READ` change no state, and repeating one gives the same response. -/
def Obligations.ReadsChangeNoStateAndRepeat : Prop :=
  ∀ (i : Instr) (s t : State),
    (i = .nop ∨ (∃ reg, i = .csrRead reg) ∨ ∃ sel idx, i = .snapRead sel idx) →
    exec i s = .next t →
    t = { s with rsp := t.rsp } ∧ exec i t = .next t

/-- R85, R241, R79: a command on a reader port leaves the producer's state, `CUR`, `W`, the build and the
other reader's pin unchanged, and every version that stays current or pinned stored as it was. -/
def Obligations.ReaderPortsWriteOnlyTheirPin : Prop :=
  ∀ (i : Instr) (s t : State) (r : Reader), s.txn.port = .rd r → exec i s = .next t →
    t.build = s.build ∧ t.fb = s.fb ∧ t.accCount = s.accCount ∧ t.recState = s.recState ∧
    t.btnLevel = s.btnLevel ∧ t.prevSum = s.prevSum ∧ t.lastImpTs = s.lastImpTs ∧ t.w = s.w ∧
    t.cur = s.cur ∧ (∀ q, q ≠ r → pinOf t.pin q = pinOf s.pin q) ∧
    (∀ v, v = t.cur ∨ pinned t.pin v = true → snapAt t.snap v = snapAt s.snap v)

/-- R88, R60: no step changes the build. -/
def Obligations.ConfigurationNeverChanges : Prop :=
  ∀ s t : State, step s = .next t → t.build = s.build

/-! ## Frame input -/

/-- R120: while Recording, `ACC_PUSH L` appends the first `min(L, FRAME_BYTES - ACC_COUNT)` bytes and
discards the rest; every other byte and every other field is unchanged. -/
def Obligations.AccPushAppends : Prop :=
  ∀ (s : State) (len : Half) (take : Nat), s.txn.port = .p → s.recState = .recording →
    s.txn.din.length = len.toNat → take = min len.toNat (s.build.frameBytes - s.accCount) →
    ∃ fb, exec (.accPush len) s =
        .next { s with
          fb := fb
          accCount := s.accCount + take
          rsp := deliver s.rsp .p
            ⟨.ok, BitVec.ofNat 32 (take +
              if s.accCount + take = s.build.frameBytes then 2 ^ 16 else 0)⟩ } ∧
      ∀ a, fbRead fb a =
        if s.accCount ≤ a ∧ a < s.accCount + take then s.txn.din.getD (a - s.accCount) 0#8
        else fbRead s.fb a

/-- R73: pushing a chunk in two parts leaves the same progress and the same bytes as pushing it whole. -/
def Obligations.PushesMayBeSplit : Prop :=
  ∀ (s t t₁ t₂ : State) (xs ys : List Byte) (n n₁ n₂ : Half), s.txn.port = .p →
    s.recState = .recording →
    exec (.accPush n) { s with txn := { s.txn with din := xs ++ ys } } = .next t →
    exec (.accPush n₁) { s with txn := { s.txn with din := xs } } = .next t₁ →
    exec (.accPush n₂) { t₁ with txn := { s.txn with din := ys } } = .next t₂ →
    t₂.accCount = t.accCount ∧ ∀ a, fbRead t₂.fb a = fbRead t.fb a

/-- R122: `ACC_RESET` sets the progress to 0, in both recording states, and changes nothing else. -/
def Obligations.AccResetClearsProgress : Prop :=
  ∀ s : State, s.txn.port = .p →
    exec .accReset s =
      .next { s with accCount := 0, rsp := deliver s.rsp .p ⟨.ok, 0#32⟩ }

/-- R33: the bytes of the frame buffer at and above `ACC_COUNT` are unobservable: two states that differ
in them alone step alike, are answered alike and go on differing in such bytes alone. -/
def Obligations.BytesBeyondProgressAreUnobservable : Prop :=
  ∀ s t : State, agreeBelowProgress s t →
    (∀ s', step s = .next s' →
      ∃ t', step t = .next t' ∧ t'.rsp = s'.rsp ∧ agreeBelowProgress s' t') ∧
    (∀ r, step s = .refused r → step t = .refused r)

/-! ## Recording states -/

/-- R193: no command changes the frame buffer, the detector state, `W.MAG` or `W.DOM` while Idle, and
`ACC_PUSH` and `ANALYZE` raise `WRONG_STATE` there. (An `ACC_PUSH` whose `DIN` has another length than
`IMM` is no transaction, R91.) -/
def Obligations.NothingIsCapturedWhileIdle : Prop :=
  ∀ s : State, s.recState = .idle →
    (∀ (i : Instr) (t : State), exec i s = .next t →
      t.fb = s.fb ∧ t.prevSum = s.prevSum ∧ t.lastImpTs = s.lastImpTs ∧ t.w.mag = s.w.mag ∧
      t.w.dom = s.w.dom) ∧
    (s.txn.port = .p →
      (∀ len : Half, s.txn.din.length = len.toNat → rejects (.accPush len) s .wrongState) ∧
      rejects .analyze s .wrongState)

/-- R190, R191: a `BUTTON_EDGE` that is no edge writes `BTN_LEVEL` alone. -/
def Obligations.ButtonLevelWithoutEdge : Prop :=
  ∀ (s : State) (level : Bool), s.txn.port = .p → s.build.buttonMode = .rising →
    (level = false ∨ s.btnLevel = true) →
    exec (.buttonEdge level) s =
      .next { s with
        btnLevel := level
        rsp := deliver s.rsp .p
          ⟨.ok, if s.recState = .recording then 1#32 else 0#32⟩ }

/-- R190 to R192, R196: a `BUTTON_EDGE` with an edge moves the recording state machine, performs its
resets and publishes; a busy gate skips the publish only. The next version must be unpinned (R59). -/
def Obligations.ButtonEdgeMovesTheMachine : Prop :=
  ∀ (s : State) (level : Bool), s.txn.port = .p →
    (s.build.buttonMode = .toggle ∨ (level = true ∧ s.btnLevel = false)) →
    pinned s.pin (s.cur + 1#32) = false →
    ∃ t : State, exec (.buttonEdge level) s = .next t ∧
      t.btnLevel = level ∧ t.accCount = 0 ∧
      (s.recState = .idle → t.recState = .recording ∧
        t.w = { s.w with recording := true, imp := none }) ∧
      (s.recState = .recording → t.recState = .idle ∧ t.w = { s.w with recording := false }) ∧
      t.rsp = deliver s.rsp .p
        ⟨.ok, BitVec.ofNat 32 ((if s.recState = .idle then 1 else 0) + 2 +
          if gateIsBusy s = true then 4 else 0)⟩ ∧
      (if gateIsBusy s = true then t.cur = s.cur ∧ t.snap = s.snap
       else t.cur = s.cur + 1#32 ∧ snapAt t.snap t.cur = some t.w ∧
         ∀ v, pinned s.pin v = true → snapAt t.snap v = snapAt s.snap v) ∧
      t.build = s.build ∧ t.fb = s.fb ∧ t.prevSum = s.prevSum ∧ t.lastImpTs = s.lastImpTs ∧
      t.pin = s.pin ∧ t.inbox = s.inbox ∧ t.txn = s.txn

/-- R203: two transitions, from Recording to Idle and back, with any inputs between them, leave no latest
impulse and no progress, and the snapshot the second one publishes has no impulse. -/
def Obligations.RestartClearsImpulseAndProgress : Prop :=
  ∀ (s t₁ u t₂ : State) (l₁ l₂ : Bool) (n : Nat) (q : Request), s.recState = .recording →
    exec (.buttonEdge l₁) s = .next t₁ → t₁.recState = .idle →
    Sys2Proof.core.run n t₁ = .next u → u.recState = .idle →
    exec (.buttonEdge l₂) { u with txn := q } = .next t₂ → t₂.recState = .recording →
    t₂.w.imp = none ∧ t₂.accCount = 0 ∧
    (gateIsBusy u = false →
      t₂.cur = u.cur + 1#32 ∧ ∃ r, snapAt t₂.snap t₂.cur = some r ∧ r.imp = none)

/-- R195: while Idle `IDLE_TICK` republishes `W` as a new version and changes nothing else; a busy gate
skips the publish. -/
def Obligations.IdleTickRepublishes : Prop :=
  ∀ s : State, s.txn.port = .p → s.recState = .idle → pinned s.pin (s.cur + 1#32) = false →
    ∃ t : State, exec .idleTick s = .next t ∧
      t = { s with
        cur := t.cur, snap := t.snap, draws := t.draws
        rsp := deliver s.rsp .p ⟨.ok, if gateIsBusy s = true then 4#32 else 0#32⟩ } ∧
      (if gateIsBusy s = true then t.cur = s.cur ∧ t.snap = s.snap
       else t.cur = s.cur + 1#32 ∧ snapAt t.snap t.cur = some s.w ∧
         ∀ v, pinned s.pin v = true → snapAt t.snap v = snapAt s.snap v)

/-! ## ANALYZE -/

/-- R123, R130: while Recording, `ANALYZE` on a partial frame raises `NOT_FULL` and changes nothing. -/
def Obligations.PartialFramesAreNotAnalyzed : Prop :=
  ∀ s : State, s.txn.port = .p → s.recState = .recording → s.accCount < s.build.frameBytes →
    rejects .analyze s .notFull

/-- R130 to R137, R170 to R175, R194, R124: while Recording, `ANALYZE` on a full frame runs the pipeline on
it. Bin `k` of the spectrum is `sqrt32(re*re + im*im) / f32(N)` of the transform of the normalised
samples times the window, with imaginary parts `+0.0`; the energy is the sum of the bins from `+0.0` up.
It writes the detector's state and `W`, consumes the frame and publishes; a busy gate skips the publish
only. The next version must be unpinned (R59). -/
def Obligations.AnalyzeRunsThePipeline : Prop :=
  ∀ (s : State) (z : List C32) (mag : List F32) (sum : F32) (peak : Peak) (fired : Bool),
    s.txn.port = .p → s.recState = .recording → s.build.frameBytes ≤ s.accCount →
    pinned s.pin (s.cur + 1#32) = false →
    z = (List.range s.build.fftLength).map (fun n =>
      ⟨f32Mul (f32Mul (f32OfInt (sampleAt s.fb n).toInt) 0x30000000#32) (elemAt s.build.hann n),
        0#32⟩) →
    mag = (List.range s.build.nbins).map (fun k =>
      f32Div
        (f32Sqrt (f32Add (f32Mul (fft32 z k).re (fft32 z k).re) (f32Mul (fft32 z k).im (fft32 z k).im)))
        (f32OfNat s.build.fftLength)) →
    sum = mag.foldl f32Add 0#32 → peak = detectPeak s.build mag →
    fired =
      (f32Gt (f32Abs (f32Sub sum s.prevSum)) s.build.impulseThr &&
        decide (s.build.refractoryMs.toNat < (s.txn.opnd - s.lastImpTs).toNat) &&
        f32Gt peak.dom s.build.minImpulseFreq) →
    spectrumOf s.build s.fb = mag ∧ energy mag = sum ∧
    ∃ t : State, exec .analyze s = .next t ∧
      t.accCount = 0 ∧ t.prevSum = sum ∧
      t.lastImpTs = (if fired = true then s.txn.opnd else s.lastImpTs) ∧
      t.w.mag = mag ∧ t.w.dom = peak.dom ∧ t.w.recording = true ∧
      t.w.imp =
        (if fired = true then
          some ⟨s.txn.opnd, peak.dom, findPeaks s.build mag peak.maxIndex,
            classify s.build.classes peak.dom⟩
        else if s.build.policy = .retain then s.w.imp else none) ∧
      t.rsp = deliver s.rsp .p
        ⟨.ok, BitVec.ofNat 32 (peak.maxIndex % 2 ^ 16 * 2 ^ 16 +
          (if gateIsBusy s = true then 4 else 0) + (if peak.valid = true then 2 else 0) +
          (if fired = true then 1 else 0))⟩ ∧
      (if gateIsBusy s = true then t.cur = s.cur ∧ t.snap = s.snap
       else t.cur = s.cur + 1#32 ∧ snapAt t.snap t.cur = some t.w ∧
         ∀ v, pinned s.pin v = true → snapAt t.snap v = snapAt s.snap v) ∧
      t.build = s.build ∧ t.fb = s.fb ∧ t.recState = s.recState ∧ t.btnLevel = s.btnLevel ∧
      t.pin = s.pin ∧ t.inbox = s.inbox ∧ t.txn = s.txn

/-- R141: the spectrum of a frame whose bytes are all 0 is all `+0.0`, for every transform with property
FFT-Z and every window of finite entries. -/
def Obligations.ZeroFrameHasZeroSpectrum : Prop :=
  ∀ (b : Build) (fb : List Host.Cell), (∀ a, a < b.frameBytes → fbRead fb a = 0#8) →
    (∀ x ∈ b.hann, f32IsFinite x = true) →
    spectrumOf b fb = List.replicate b.nbins 0#32

/-- R232, R152, R130: on an all-zero frame `ANALYZE` answers `OK` with no peak, dominant frequency `+0.0`
and no impulse; `DATA` is 0. `MIN_IMPULSE_FREQ` (100.0 in R8) must not be negative. -/
def Obligations.ZeroFrameIsNoError : Prop :=
  ∀ s : State, s.txn.port = .p → s.recState = .recording → s.build.frameBytes ≤ s.accCount →
    buildValid s.build = true → s.build.gateBusy = false → pinned s.pin (s.cur + 1#32) = false →
    (∀ a, a < s.build.frameBytes → fbRead s.fb a = 0#8) → (∀ x ∈ s.build.hann, f32IsFinite x = true) →
    f32Le 0#32 s.build.minImpulseFreq = true →
    ∃ t : State, exec .analyze s = .next t ∧
      responseOn t.rsp .p = some ⟨.ok, 0#32⟩ ∧ t.w.dom = 0#32 ∧
      t.w.mag = List.replicate s.build.nbins 0#32 ∧ t.lastImpTs = s.lastImpTs ∧ t.prevSum = 0#32

/-- R72, R131: sample `n` is the two's-complement integer with `FB[4n]` the least significant byte. -/
def Obligations.SamplesAreLittleEndian : Prop :=
  ∀ (fb : List Host.Cell) (n : Nat),
    sampleAt fb n =
      fbRead fb (4 * n + 3) ++ fbRead fb (4 * n + 2) ++ fbRead fb (4 * n + 1) ++ fbRead fb (4 * n)

/-- R132: every normalised sample lies in `[-1.0, 1.0]`; `-2^31` gives `-1.0`, every sample from
`2^31 - 64` up gives `+1.0`, and 0 gives `+0.0`. -/
def Obligations.NormalisedSamplesAreInRange : Prop :=
  (∀ x : BitVec 32,
    f32Le 0xBF800000#32 (normalise x) = true ∧ f32Le (normalise x) 0x3F800000#32 = true ∧
    (2 ^ 31 - 64 ≤ x.toInt → normalise x = 0x3F800000#32)) ∧
  normalise 0x80000000#32 = 0xBF800000#32 ∧ normalise 0#32 = 0#32

/-! ## Binary32 -/

/-- R11: rounding is to nearest, ties to even: the encoding `f32Round` gives is at least as near to
`num / den` as every other finite one, and is even when another is as near; from the midpoint above the
largest finite value on, it is infinity. Values are in units of `2^-149`. -/
def Obligations.RoundingIsToNearestEven : Prop :=
  ∀ num den m : Nat, 0 < den → m < f32InfMag →
    let err := fun k : Nat => ((f32Units (f32OfMag false k) : Int) * den - num).natAbs
    (f32Round num den = f32InfMag ↔ (2 ^ 277 - 2 ^ 252) * den ≤ num) ∧
    f32Round num den ≤ f32InfMag ∧
    (f32Round num den < f32InfMag →
      err (f32Round num den) ≤ err m ∧
      (err (f32Round num den) = err m → m ≠ f32Round num den → f32Round num den % 2 = 0))

/-- R11, R13, R15: on finite values the sum, the difference, the product, the quotient (of a divisor that
is not zero), the square root (of a value that is not negative) and the conversion of an integer are the
exact result correctly rounded (`roundsTo`: nearest, ties to even, overflow to infinity), with the sign
IEEE 754 gives; `abs` clears the sign bit. An operation makes a NaN exactly from a NaN, `inf - inf`,
`0 * inf`, `0/0`, `inf/inf` or the root of a negative value, and its other results on infinities and
zeros are as listed. Values are in units of `2^-149`. -/
def Obligations.ArithmeticIsCorrectlyRounded : Prop :=
  (∀ a b : F32, f32IsFinite a = true → f32IsFinite b = true →
    roundsTo (f32Val a + f32Val b)
      (if f32Val a + f32Val b = 0 then f32Sign a && f32Sign b
        else decide (f32Val a + f32Val b < 0)) (f32Add a b) ∧
    roundsTo (f32Val a - f32Val b)
      (if f32Val a - f32Val b = 0 then f32Sign a && !f32Sign b
        else decide (f32Val a - f32Val b < 0)) (f32Sub a b) ∧
    roundsTo (f32Val a * f32Val b / 2 ^ 149) (f32Sign a != f32Sign b) (f32Mul a b) ∧
    (f32IsZero b = false →
      roundsTo (f32Val a * 2 ^ 149 / f32Val b) (f32Sign a != f32Sign b) (f32Div a b)) ∧
    (f32Sign a = false → roundsTo (Real.sqrt (f32Val a * 2 ^ 149)) false (f32Sqrt a))) ∧
  (∀ i : Int, roundsTo (i * 2 ^ 149) (decide (i < 0)) (f32OfInt i)) ∧
  (∀ a : F32, (f32Abs a).toNat = a.toNat % 2 ^ 31) ∧
  ∀ a b : F32,
    (f32IsNaN (f32Add a b) = true ↔ f32IsNaN a = true ∨ f32IsNaN b = true ∨
      (f32IsInf a = true ∧ f32IsInf b = true ∧ f32Sign a ≠ f32Sign b)) ∧
    (f32IsNaN (f32Sub a b) = true ↔ f32IsNaN a = true ∨ f32IsNaN b = true ∨
      (f32IsInf a = true ∧ f32IsInf b = true ∧ f32Sign a = f32Sign b)) ∧
    (f32IsNaN (f32Mul a b) = true ↔ f32IsNaN a = true ∨ f32IsNaN b = true ∨
      (f32IsInf a = true ∧ f32IsZero b = true) ∨ (f32IsZero a = true ∧ f32IsInf b = true)) ∧
    (f32IsNaN (f32Div a b) = true ↔ f32IsNaN a = true ∨ f32IsNaN b = true ∨
      (f32IsInf a = true ∧ f32IsInf b = true) ∨ (f32IsZero a = true ∧ f32IsZero b = true)) ∧
    (f32IsNaN (f32Sqrt a) = true ↔ f32IsNaN a = true ∨ (f32Sign a = true ∧ f32IsZero a = false)) ∧
    (f32IsNaN (f32Add a b) = false →
      (f32IsInf a = true → f32Add a b = a) ∧ (f32IsInf b = true → f32Add a b = b)) ∧
    (f32IsNaN (f32Sub a b) = false →
      (f32IsInf a = true → f32Sub a b = a) ∧
      (f32IsInf b = true → f32Sub a b = f32Inf (!f32Sign b))) ∧
    (f32IsNaN (f32Mul a b) = false → f32IsInf a = true ∨ f32IsInf b = true →
      f32Mul a b = f32Inf (f32Sign a != f32Sign b)) ∧
    (f32IsNaN (f32Div a b) = false →
      (f32IsInf a = true ∨ f32IsZero b = true → f32Div a b = f32Inf (f32Sign a != f32Sign b)) ∧
      (f32IsInf b = true → f32Div a b = f32Zero (f32Sign a != f32Sign b))) ∧
    (f32IsZero a = true → f32Sqrt a = a) ∧ f32Sqrt 0x7F800000#32 = 0x7F800000#32

/-- R12: a comparison with a NaN is false; on finite values the comparisons are those of the values (so
`-0.0` and `+0.0` compare equal); with an infinite operand, `a <= b` holds exactly when `a` is `-inf` or
`b` is `+inf`, and `a < b` when the two differ besides; `a > b` is `b < a`; and the test `!= 0` is false
for the two zeros only. -/
def Obligations.ComparisonsFollowTheValues : Prop :=
  ∀ a b : F32,
    (f32IsNaN a = true ∨ f32IsNaN b = true →
      f32Lt a b = false ∧ f32Le a b = false ∧ f32Gt a b = false) ∧
    (f32IsFinite a = true → f32IsFinite b = true →
      (f32Lt a b = true ↔ f32Val a < f32Val b) ∧ (f32Le a b = true ↔ f32Val a ≤ f32Val b) ∧
      (f32Gt a b = true ↔ f32Val b < f32Val a)) ∧
    (f32IsNaN a = false → f32IsNaN b = false → f32IsInf a = true ∨ f32IsInf b = true →
      (f32Le a b = true ↔ a = 0xFF800000#32 ∨ b = 0x7F800000#32) ∧
      (f32Lt a b = true ↔ a ≠ b ∧ (a = 0xFF800000#32 ∨ b = 0x7F800000#32)) ∧
      (f32Gt a b = true ↔ a ≠ b ∧ (b = 0xFF800000#32 ∨ a = 0x7F800000#32))) ∧
    (f32IsZero a = true ↔ a = 0#32 ∨ a = 0x80000000#32)

/-! ## Peaks, impulses and classes -/

/-- R150, R151: bin `k` qualifies when its magnitude is above its band's threshold: `LOW_THR` where
`f32(k) * BIN_WIDTH < FREQ_CUTOFF`, `HIGH_THR` elsewhere. The dominant bin qualifies, no qualifying bin
is larger, and every qualifying bin below it is smaller, so ties go to the lowest index. -/
def Obligations.DominantBinIsLargestQualifying : Prop :=
  ∀ (b : Build) (mag : List F32) (i : Nat) (thr : Nat → F32),
    (∀ k, thr k =
      if f32Lt (f32Mul (f32OfNat k) b.binWidth) b.freqCutoff = true then b.lowThr else b.highThr) →
    dominantBin b mag = some i →
    i < mag.length ∧ f32Gt (elemAt mag i) (thr i) = true ∧
    ∀ k, k < mag.length → f32Gt (elemAt mag k) (thr k) = true →
      f32Gt (elemAt mag k) (elemAt mag i) = false ∧
      (k < i → f32Gt (elemAt mag i) (elemAt mag k) = true)

/-- R152, R150: the fallback `(0, 0, +0.0)` is returned exactly when no bin is above its band's
threshold. -/
def Obligations.NoQualifyingBinGivesZero : Prop :=
  ∀ (b : Build) (mag : List F32) (thr : Nat → F32),
    (∀ k, thr k =
      if f32Lt (f32Mul (f32OfNat k) b.binWidth) b.freqCutoff = true then b.lowThr else b.highThr) →
    ((detectPeak b mag).valid = false ↔
      ∀ k, k < mag.length → f32Gt (elemAt mag k) (thr k) = false) ∧
    ((detectPeak b mag).valid = false → detectPeak b mag = ⟨false, 0, 0#32⟩)

/-- R153 to R156: the dominant frequency of a dominant bin `i`: its own frequency at the boundary bins
and where `denom` is 0, the refined frequency otherwise. -/
def Obligations.DominantFrequencyIsRefined : Prop :=
  ∀ (b : Build) (mag : List F32) (i : Nat) (denom : F32), dominantBin b mag = some i →
    denom =
      f32Add (f32Sub (elemAt mag (i - 1)) (f32Mul 0x40000000#32 (elemAt mag i)))
        (elemAt mag (i + 1)) →
    detectPeak b mag =
      ⟨true, i,
        if i = 0 ∨ i = b.nbins - 1 then f32Mul (f32OfNat i) b.binWidth
        else if denom = 0#32 ∨ denom = 0x80000000#32 then f32Mul (f32OfNat i) b.binWidth
        else f32Mul (f32Add (f32OfNat i)
          (f32Div (f32Mul 0x3F000000#32 (f32Sub (elemAt mag (i - 1)) (elemAt mag (i + 1)))) denom))
          b.binWidth⟩

/-- R158, KFFT's property: symmetric finite neighbours leave the dominant frequency at the bin's own
frequency exactly. -/
def Obligations.SymmetricNeighboursGiveBinFrequency : Prop :=
  ∀ (b : Build) (mag : List F32) (i : Nat), i < b.nbins → elemAt mag (i - 1) = elemAt mag (i + 1) →
    f32IsFinite (elemAt mag (i - 1)) = true → f32IsNaN (elemAt mag i) = false →
    refine b mag i = f32Mul (f32OfNat i) b.binWidth

/-- R165, R163, R164: `FIND_PEAKS` lists 1 to `1 + 2*PEAKS_PER_SIDE` (11) bins in strictly ascending
order, the dominant bin among them, all within `PEAK_HALF_WINDOW` (25) bins of it and of the spectrum,
each other one of positive magnitude, and each with its own frequency and magnitude. -/
def Obligations.HarmonicPeaksAreSound : Prop :=
  ∀ (b : Build) (mag : List F32) (d : Nat), d < b.nbins →
    d ∈ (findPeaks b mag d).map (·.idx) ∧
    (findPeaks b mag d).Pairwise (fun x y => x.idx < y.idx) ∧
    1 ≤ (findPeaks b mag d).length ∧ (findPeaks b mag d).length ≤ 1 + 2 * b.peaksPerSide ∧
    ∀ p ∈ findPeaks b mag d,
      d ≤ p.idx + b.peakHalfWindow ∧ p.idx ≤ d + b.peakHalfWindow ∧ p.idx < b.nbins ∧
      p.freq = f32Mul (f32OfNat p.idx) b.binWidth ∧ p.mag = elemAt mag p.idx ∧
      (p.idx = d ∨ f32Gt p.mag 0#32 = true)

/-- R160, R161: below the dominant bin at most `PEAKS_PER_SIDE` (5) bins are picked. A bin of the window
that is left out is not larger than a picked one, and smaller than a picked one at a higher index (the
lowest index wins ties); and if it is positive, all the picks were made (no NaN in the spectrum). -/
def Obligations.LowerPicksAreTheLargest : Prop :=
  ∀ (b : Build) (mag : List F32) (d : Nat), d < b.nbins → (∀ x ∈ mag, f32IsNaN x = false) →
    ((findPeaks b mag d).filter (fun p => p.idx < d)).length ≤ b.peaksPerSide ∧
    ∀ k, k < d → d ≤ k + b.peakHalfWindow → k ∉ (findPeaks b mag d).map (·.idx) →
      (f32Gt (elemAt mag k) 0#32 = true →
        ((findPeaks b mag d).filter (fun p => p.idx < d)).length = b.peaksPerSide) ∧
      ∀ p ∈ findPeaks b mag d, p.idx < d →
        f32Gt (elemAt mag k) p.mag = false ∧
        (k < p.idx → f32Gt p.mag (elemAt mag k) = true)

/-- R160, R162: above the dominant bin at most `PEAKS_PER_SIDE` (5) bins are picked. Every picked bin is at
least as large as every bin of the window to its right, and larger than every bin between the pick
before it (or the dominant bin) and it (the lowest index wins ties); and if fewer were picked, no bin of
the window to the right of the last pick (or of the dominant bin) is positive (no NaN in the
spectrum). -/
def Obligations.UpperPicksDominateTheirRight : Prop :=
  ∀ (b : Build) (mag : List F32) (d : Nat), d < b.nbins → (∀ x ∈ mag, f32IsNaN x = false) →
    ((findPeaks b mag d).filter (fun p => d < p.idx)).length ≤ b.peaksPerSide ∧
    (∀ p ∈ findPeaks b mag d, d < p.idx →
      (∀ k, p.idx < k → k ≤ d + b.peakHalfWindow → k < b.nbins →
        f32Gt (elemAt mag k) p.mag = false) ∧
      ∀ k, d < k → k < p.idx →
        (∀ q ∈ findPeaks b mag d, q.idx < p.idx → q.idx < k) →
        f32Gt p.mag (elemAt mag k) = true) ∧
    (((findPeaks b mag d).filter (fun p => d < p.idx)).length < b.peaksPerSide →
      ∀ k, d < k → k ≤ d + b.peakHalfWindow → k < b.nbins →
        (∀ q ∈ findPeaks b mag d, q.idx < k) → f32Gt (elemAt mag k) 0#32 = false)

/-- R171, R176: an impulse fires only on a frame with an energy change above the threshold, more than
`REFRACTORY_MS` (100 ms) after the last event, and a dominant frequency above `MIN_IMPULSE_FREQ` (100 Hz);
where that is not negative, only on a frame with a qualifying peak. -/
def Obligations.ImpulsesNeedAllThreeConditions : Prop :=
  ∀ (b : Build) (prevSum : F32) (last time : DWord) (mag : List F32) (e : ImpulseEvent),
    (impulseStep b prevSum last mag (detectPeak b mag) time).event = some e →
    (f32Le 0#32 b.minImpulseFreq = true → (detectPeak b mag).valid = true) ∧
    f32Gt (f32Abs (f32Sub (mag.foldl f32Add 0#32) prevSum)) b.impulseThr = true ∧
    b.refractoryMs.toNat < (time - last).toNat ∧
    f32Gt (detectPeak b mag).dom b.minImpulseFreq = true ∧
    e.ts = time ∧ e.freq = (detectPeak b mag).dom

/-- R171, R173, R178: a step leaves the time of the last event alone, unless it is an `ANALYZE` that fires:
then it sets it to that `ANALYZE`'s `now`, more than `REFRACTORY_MS` later (modulo 2^64), and leaves the
new event in `W`. Reset aside. -/
def Obligations.EventsKeepTheRefractoryWindow : Prop :=
  ∀ s t : State, step s = .next t → (∀ rest, s.inbox ≠ .reset :: rest) →
    t.lastImpTs = s.lastImpTs ∨
    (s.build.refractoryMs.toNat < (t.lastImpTs - s.lastImpTs).toNat ∧
      ∃ (q : Request) (rest : List Input) (e : ImpulseEvent),
        s.inbox = .command q :: rest ∧ decode q.cmd = .ok .analyze ∧ q.port = .p ∧
        t.lastImpTs = q.opnd ∧ t.w.imp = some e ∧ e.ts = q.opnd)

/-- R180, R181: the class of a frequency by the class table of R8, by its encoding: A on `[1900, 2800]`,
B on `[700, 899)`, C on `[900, 1700)`, UNKNOWN on everything else, NaN and negative values included. -/
def Obligations.ClassesFollowTheTable : Prop :=
  ∀ f : F32,
    classify classesR8 f =
      if 0x44ED8000 ≤ f.toNat ∧ f.toNat ≤ 0x452F0000 then .a
      else if 0x442F0000 ≤ f.toNat ∧ f.toNat < 0x4460C000 then .b
      else if 0x44610000 ≤ f.toNat ∧ f.toNat < 0x44D48000 then .c
      else .unknown

/-! ## The snapshot gate -/

/-- R197, R201: `SNAP_ACQUIRE` on a reader port pins the current version, which stays stored, and
answers it; the other pin is unchanged. A busy gate answers `BUSY` and leaves every pin. -/
def Obligations.SnapAcquirePinsCurrent : Prop :=
  ∀ (s : State) (r : Reader), s.txn.port = .rd r →
    ∃ t : State, exec .snapAcquire s = .next t ∧
      (if gateIsBusy s = true then
        t = { s with draws := s.draws + 1, rsp := deliver s.rsp (.rd r) ⟨.busy, 0#32⟩ }
      else
        pinOf t.pin r = some s.cur ∧ (∀ q, q ≠ r → pinOf t.pin q = pinOf s.pin q) ∧
        (∀ v, v = s.cur ∨ pinned t.pin v = true → snapAt t.snap v = snapAt s.snap v) ∧
        t = { s with
          pin := t.pin, snap := t.snap, draws := t.draws
          rsp := deliver s.rsp (.rd r) ⟨.ok, s.cur⟩ })

/-- R199: `SNAP_RELEASE` on a reader port drops its pin, held or not, and answers 0; the other pin and
what it or `CUR` names are unchanged. -/
def Obligations.SnapReleaseDropsPin : Prop :=
  ∀ (s : State) (r : Reader), s.txn.port = .rd r →
    ∃ t : State, exec .snapRelease s = .next t ∧
      pinOf t.pin r = none ∧ (∀ q, q ≠ r → pinOf t.pin q = pinOf s.pin q) ∧
      (∀ v, v = s.cur ∨ pinned t.pin v = true → snapAt t.snap v = snapAt s.snap v) ∧
      t = { s with pin := t.pin, snap := t.snap, rsp := deliver s.rsp (.rd r) ⟨.ok, 0#32⟩ }

/-- R198, R100: `SNAP_READ` without a pin raises `NO_PIN`. With a pin on a stored record it answers the
selected field; an impulse field of a record without an event raises `NO_DATA`, and an index beyond the
spectrum or the peak list `BAD_INDEX`, in that order. That an `IDX` of more than the 16 bits R45 gives
it, or an `NPEAKS` of any size, answers its low 32 bits is the model's choice (log 19). -/
def Obligations.SnapReadAnswersFields : Prop :=
  ∀ (s : State) (r : Reader) (k : Half), s.txn.port = .rd r →
    (pinOf s.pin r = none → ∀ sel, rejects (.snapRead sel k) s .noPin) ∧
    ∀ (v : Version) (x : Snapshot), pinOf s.pin r = some v → snapAt s.snap v = some x →
      (k.toNat < s.build.nbins → answers (.snapRead .mag k) s (elemAt x.mag k.toNat)) ∧
      (s.build.nbins ≤ k.toNat → rejects (.snapRead .mag k) s .badIndex) ∧
      answers (.snapRead .dom k) s x.dom ∧
      answers (.snapRead .recording k) s (if x.recording = true then 1#32 else 0#32) ∧
      answers (.snapRead .impPresent k) s (if x.imp = none then 0#32 else 1#32) ∧
      answers (.snapRead .version k) s v ∧
      (x.imp = none →
        ∀ sel, sel ∈ [Selector.impTsLo, .impTsHi, .impFreq, .impNpeaks, .pkIdx, .pkFreq, .pkMag,
          .impLabel] → rejects (.snapRead sel k) s .noData) ∧
      ∀ e, x.imp = some e →
        answers (.snapRead .impTsLo k) s (BitVec.ofNat 32 e.ts.toNat) ∧
        answers (.snapRead .impTsHi k) s (BitVec.ofNat 32 (e.ts.toNat / 2 ^ 32)) ∧
        answers (.snapRead .impFreq k) s e.freq ∧
        answers (.snapRead .impNpeaks k) s (BitVec.ofNat 32 e.peaks.length) ∧
        answers (.snapRead .impLabel k) s
          (match e.label with | .unknown => 0#32 | .a => 1#32 | .b => 2#32 | .c => 3#32) ∧
        (∀ p, e.peaks[k.toNat]? = some p →
          answers (.snapRead .pkIdx k) s (BitVec.ofNat 32 p.idx) ∧
          answers (.snapRead .pkFreq k) s p.freq ∧ answers (.snapRead .pkMag k) s p.mag) ∧
        (e.peaks.length ≤ k.toNat →
          rejects (.snapRead .pkIdx k) s .badIndex ∧ rejects (.snapRead .pkFreq k) s .badIndex ∧
          rejects (.snapRead .pkMag k) s .badIndex)

/-- R83, R200: from a state in which a reader pins `v`, through any number of steps without a reset and
without an acquire or a release word on that reader's port, whatever the other ports do, the reader
still pins `v` and the record under it is the same. -/
def Obligations.PinnedReaderSeesOneRecord : Prop :=
  ∀ (n : Nat) (s t : State) (r : Reader) (v : Version), pinOf s.pin r = some v →
    (∀ x ∈ s.inbox.take n, x ≠ .reset ∧
      ∀ q, x = .command q → q.port = .rd r → q.cmd ≠ 0x00000010#32 ∧ q.cmd ≠ 0x00000012#32) →
    Sys2Proof.core.run n s = .next t →
    pinOf t.pin r = some v ∧ snapAt t.snap v = snapAt s.snap v

/-- R56, R58: a stored record never changes in a step while its version stays current or stays pinned.
Reset aside. -/
def Obligations.StoredRecordsNeverChange : Prop :=
  ∀ (s t : State) (v : Version), step s = .next t → (∀ rest, s.inbox ≠ .reset :: rest) →
    ((v = s.cur ∧ v = t.cur) ∨ (pinned s.pin v = true ∧ pinned t.pin v = true)) →
    snapAt t.snap v = snapAt s.snap v

/-- R55, R196: `CUR` changes in no step but one of a command on port `P`, by 1 modulo 2^32, and then names
a copy of `W`. Reset aside. -/
def Obligations.VersionsCountPublishes : Prop :=
  ∀ s t : State, step s = .next t → (∀ rest, s.inbox ≠ .reset :: rest) →
    t.cur = s.cur ∨
    (t.cur = s.cur + 1#32 ∧ snapAt t.snap t.cur = some t.w ∧
      ∃ q rest, s.inbox = .command q :: rest ∧ q.port = .p)

/-- R91, R59, R240: an `ACC_PUSH` whose `DIN` does not hold exactly `IMM` bytes is refused, on every port
and in every state, and so is a command that reaches `publish()` with a gate that is not busy while a
reader pins the next version, whether or not the build draws (`GATE_BUSY`).
That the length is checked before the port and the state is the model's reading (log 10). -/
def Obligations.RefusedFormsStopByName : Prop :=
  (∀ (s : State) (len : Half), s.txn.din.length ≠ len.toNat →
    exec (.accPush len) s = .refused .dinLengthMismatch) ∧
  (∀ (i : Instr) (s : State), reachesPublish i s → gateIsBusy s = false →
    pinned s.pin (s.cur + 1#32) = true → exec i s = .refused .pinnedVersionReused)

/-! ## Invariants -/

/-- R33, R34: every step keeps the frame buffer in range and the progress at most `FRAME_BYTES`; the canonical
form of the list of bytes is the model's (log 5). -/
def Obligations.StepKeepsFrameInvariant : Prop :=
  ∀ s t : State, FrameInv s → step s = .next t → FrameInv t

/-- R56, R57, R58: every step keeps the current and every pinned version stored, so that the store needs
at most `NUM_READERS + 1 = 3` records. That it stores each once and nothing else is the model's choice
(log 9). -/
def Obligations.StepKeepsStoreInvariant : Prop :=
  ∀ s t : State, StoreInv s → step s = .next t → StoreInv t ∧ t.snap.length ≤ 3

/-- R45 to R49, R182, R202: every step keeps every record sound (`NBINS` magnitudes; events of 1 to
`MAX_PEAKS` ascending peaks whose label is the class of their frequency), `W.REC` at the recording state
and the event of `W` at the last trigger time. -/
def Obligations.StepKeepsRecordInvariant : Prop :=
  ∀ s t : State, RecordInv s → step s = .next t → RecordInv t

/-- R195, R196, R202: with the block's gate (`GATE_BUSY = false`) every step keeps the current snapshot
equal to `W`, whatever is published, acquired or released. -/
def Obligations.StepKeepsPublishedInvariant : Prop :=
  ∀ s t : State, PublishedInv s → step s = .next t → PublishedInv t
end

