-- ==== Sys2Proof/Laws/Binary32.lean ====
section
/-! SUPPORT. The laws of binary32: encodings and their exact values rise together, rounding gives the
nearest value with ties to even, rounding is monotone, and representable values round to themselves. -/

namespace Sys2Proof.Machine

/-! ## Encodings -/

theorem f32OfMag_toNat (sign : Bool) (m : Nat) (h : m < 2 ^ 31) :
    (f32OfMag sign m).toNat = m + if sign then 2 ^ 31 else 0 := by
  cases sign <;> simp [f32OfMag] <;> omega

@[simp] theorem f32Mag_f32OfMag (sign : Bool) (m : Nat) (h : m < 2 ^ 31) :
    f32Mag (f32OfMag sign m) = m := by
  unfold f32Mag
  rw [f32OfMag_toNat _ _ h]
  cases sign <;> simp <;> omega

@[simp] theorem f32Sign_f32OfMag (sign : Bool) (m : Nat) (h : m < 2 ^ 31) :
    f32Sign (f32OfMag sign m) = sign := by
  unfold f32Sign
  rw [BitVec.msb_eq_decide, f32OfMag_toNat _ _ h]
  cases sign
  · simp; omega
  · simp

theorem f32Mag_lt (a : F32) : f32Mag a < 2 ^ 31 := Nat.mod_lt _ (by decide)

/-- A value is its sign and its encoding without sign. -/
theorem f32OfMag_sign_mag (a : F32) : f32OfMag (f32Sign a) (f32Mag a) = a := by
  apply BitVec.eq_of_toNat_eq
  rw [f32OfMag_toNat _ _ (f32Mag_lt a)]
  have := a.isLt
  by_cases h : 2 ^ 31 ≤ a.toNat
  · have hs : f32Sign a = true := by simpa [f32Sign, BitVec.msb_eq_decide] using h
    simp only [hs, f32Mag, if_true]
    omega
  · have hs : f32Sign a = false := by
      simp only [f32Sign, BitVec.msb_eq_decide, decide_eq_false_iff_not]
      simpa using h
    simp only [hs, f32Mag]
    simp
    omega

theorem f32IsNaN_f32NaN (op : Config.FloatOp) (a b : F32) : f32IsNaN (f32NaN op a b) = true := by
  unfold f32NaN
  split
  · assumption
  · decide

theorem not_finite_of_nan {a : F32} (h : f32IsNaN a = true) : f32IsFinite a = false := by
  simp only [f32IsNaN, f32IsFinite, decide_eq_true_eq, decide_eq_false_iff_not] at *
  omega

theorem f32IsZero_iff (a : F32) : f32IsZero a = true ↔ a = 0#32 ∨ a = 0x80000000#32 := by
  constructor
  · intro h
    have hm : f32Mag a = 0 := by simpa [f32IsZero] using h
    rw [← f32OfMag_sign_mag a, hm]
    cases f32Sign a <;> simp [f32OfMag]
  · rintro (rfl | rfl) <;> decide

theorem f32IsFinite_iff (a : F32) : f32IsFinite a = true ↔ f32Mag a < f32InfMag := by
  rw [f32IsFinite, decide_eq_true_eq]

theorem f32IsFinite_f32OfMag (sign : Bool) (m : Nat) (h : m < 2 ^ 31) :
    f32IsFinite (f32OfMag sign m) = true ↔ m < f32InfMag := by
  rw [f32IsFinite_iff, f32Mag_f32OfMag _ _ h]

theorem not_nan_of_finite {a : F32} (h : f32IsFinite a = true) : f32IsNaN a = false := by
  rw [f32IsFinite_iff] at h
  rw [f32IsNaN, decide_eq_false_iff_not]
  omega

theorem not_inf_of_finite {a : F32} (h : f32IsFinite a = true) : f32IsInf a = false := by
  rw [f32IsFinite_iff] at h
  rw [f32IsInf, beq_eq_false_iff_ne]
  omega

/-- A number is finite or infinite. -/
theorem finite_of_not_nan {a : F32} (h : f32IsNaN a = false) (hi : f32IsInf a = false) :
    f32IsFinite a = true := by
  rw [f32IsNaN, decide_eq_false_iff_not] at h
  rw [f32IsInf, beq_eq_false_iff_ne] at hi
  rw [f32IsFinite_iff]
  omega

/-- Encodings up to infinity are no NaN. -/
theorem not_nan_f32OfMag (sign : Bool) (m : Nat) (h : m ≤ f32InfMag) :
    f32IsNaN (f32OfMag sign m) = false := by
  have hm : f32InfMag < 2 ^ 31 := by decide
  rw [f32IsNaN, f32Mag_f32OfMag _ _ (lt_of_le_of_lt h hm), decide_eq_false_iff_not]
  omega

theorem f32Neg_eq (a : F32) : f32Neg a = f32OfMag (!f32Sign a) (f32Mag a) := by
  have key : ∀ m, m < 2 ^ 31 → f32OfMag true m = f32OfMag false m ^^^ 0x80000000#32 := by
    intro m hm
    apply BitVec.eq_of_toNat_eq
    rw [f32OfMag_toNat _ _ hm, BitVec.toNat_xor, f32OfMag_toNat _ _ hm]
    have := Nat.two_pow_add_eq_or_of_lt (i := 31) hm 1
    rw [Nat.mul_one] at this
    rw [if_pos rfl, if_neg (by decide), Nat.add_zero, Nat.add_comm, this]
    apply Nat.eq_of_testBit_eq
    intro j
    rw [Nat.testBit_or, Nat.testBit_xor, Nat.testBit_two_pow,
      show (0x80000000#32).toNat = 2 ^ 31 from rfl, Nat.testBit_two_pow]
    by_cases hj : j = 31
    · subst hj; simp [Nat.testBit_lt_two_pow hm]
    · simp [show ¬ 31 = j from fun h => hj h.symm]
  have hm := f32Mag_lt a
  have ha := f32OfMag_sign_mag a
  rw [f32Neg]
  cases hs : f32Sign a
  · rw [hs] at ha
    rw [Bool.not_false, key _ hm, ha]
  · rw [hs, key _ hm] at ha
    rw [Bool.not_true]
    conv_lhs => rw [← ha]
    rw [BitVec.xor_assoc, BitVec.xor_self, BitVec.xor_zero]

/-! ## The value of an encoding -/

/-- The value, in units, of an encoding without sign: `f32Units a = magUnits (f32Mag a)`. -/
def magUnits (m : Nat) : Nat :=
  if m < 2 ^ 23 then m else (2 ^ 23 + m % 2 ^ 23) * 2 ^ (m / 2 ^ 23 - 1)

theorem f32Units_eq (a : F32) : f32Units a = magUnits (f32Mag a) := rfl

theorem f32Units_f32OfMag (sign : Bool) (m : Nat) (h : m < 2 ^ 31) :
    f32Units (f32OfMag sign m) = magUnits m := by
  rw [f32Units_eq, f32Mag_f32OfMag _ _ h]

/-- The value of what `f32Pack` packs, before it is cut off at infinity. -/
theorem magUnits_pack (m k : Nat) (h : m ≤ 2 ^ 24) (hk : 0 < k → 2 ^ 23 ≤ m) :
    magUnits (k * 2 ^ 23 + m) = m * 2 ^ k := by
  unfold magUnits
  by_cases hs : k * 2 ^ 23 + m < 2 ^ 23
  · have hk0 : k = 0 := by
      rcases Nat.eq_zero_or_pos k with h0 | h0
      · exact h0
      · omega
    subst hk0
    simp at hs
    simp [hs]
  · rw [if_neg hs]
    have hm : 2 ^ 23 ≤ m := by
      rcases Nat.eq_zero_or_pos k with h0 | h0
      · subst h0; omega
      · exact hk h0
    by_cases htop : m = 2 ^ 24
    · subst htop
      have e1 : (k * 2 ^ 23 + 2 ^ 24) % 2 ^ 23 = 0 := by omega
      have e2 : (k * 2 ^ 23 + 2 ^ 24) / 2 ^ 23 - 1 = k + 1 := by omega
      rw [e1, e2, Nat.pow_succ]
      ring
    · have e1 : (k * 2 ^ 23 + m) % 2 ^ 23 = m - 2 ^ 23 := by omega
      have e2 : (k * 2 ^ 23 + m) / 2 ^ 23 - 1 = k := by omega
      have e3 : 2 ^ 23 + (m - 2 ^ 23) = m := by omega
      rw [e1, e2, e3]

/-- The next encoding is one spacing further. -/
theorem magUnits_succ (m : Nat) : magUnits (m + 1) = magUnits m + 2 ^ (m / 2 ^ 23 - 1) := by
  by_cases h : m < 2 ^ 24
  · have a := magUnits_pack m 0 (by omega) (by simp)
    have b := magUnits_pack (m + 1) 0 (by omega) (by simp)
    have e : m / 2 ^ 23 - 1 = 0 := by omega
    simp at a b
    rw [a, b, e, Nat.pow_zero]
  · obtain ⟨k, f, hf, rfl⟩ : ∃ k f, f < 2 ^ 23 ∧ m = k * 2 ^ 23 + (2 ^ 23 + f) :=
      ⟨m / 2 ^ 23 - 1, m % 2 ^ 23, Nat.mod_lt _ (by decide), by omega⟩
    have a := magUnits_pack (2 ^ 23 + f) k (by omega) (by omega)
    have b := magUnits_pack (2 ^ 23 + f + 1) k (by omega) (by omega)
    have e : (k * 2 ^ 23 + (2 ^ 23 + f)) / 2 ^ 23 - 1 = k := by omega
    rw [e, a]
    rw [show k * 2 ^ 23 + (2 ^ 23 + f) + 1 = k * 2 ^ 23 + (2 ^ 23 + f + 1) by omega, b]
    ring

theorem magUnits_strictMono : StrictMono magUnits :=
  strictMono_nat_of_lt_succ fun m => by
    rw [magUnits_succ]
    have := Nat.two_pow_pos (m / 2 ^ 23 - 1)
    omega

/-! ## Rounding -/

/-- `f32Round` before it is cut off at infinity. -/
def roundRaw (num den : Nat) : Nat :=
  f32Spacing (num / den) * 2 ^ 23 +
    roundHalfEven num (den * 2 ^ f32Spacing (num / den))

theorem f32Round_eq (num den : Nat) : f32Round num den = min (roundRaw num den) f32InfMag := rfl

theorem f32Round_le (num den : Nat) : f32Round num den ≤ f32InfMag := Nat.min_le_right _ _

theorem f32Round_lt (num den : Nat) : f32Round num den < 2 ^ 31 :=
  lt_of_le_of_lt (f32Round_le num den) (by decide)

/-- The two candidates around `num / den`: encoding `p` is at most `num / den`, encoding `p + 1` is
above it, and `roundRaw` takes the nearer, or of two equally near the even one. -/
theorem roundRaw_candidates (num den : Nat) (hd : 0 < den) :
    ∃ p r D : Nat, 0 < D ∧ r < D ∧ magUnits p * den + r = num ∧
      magUnits (p + 1) * den = magUnits p * den + D ∧
      ((2 * r < D ∧ roundRaw num den = p) ∨ (D < 2 * r ∧ roundRaw num den = p + 1) ∨
        (2 * r = D ∧ roundRaw num den = p + p % 2)) := by
  set k := f32Spacing (num / den) with hk
  set D := den * 2 ^ k with hD
  have hDpos : 0 < D := Nat.mul_pos hd (Nat.two_pow_pos k)
  set Q := num / D with hQ
  have hQ2 : Q = num / den / 2 ^ k := by rw [hQ, hD, Nat.div_div_eq_div_mul]
  have hbounds : Q + 1 ≤ 2 ^ 24 ∧ (0 < k → 2 ^ 23 ≤ Q) := by
    rw [hQ2]
    rcases Nat.eq_zero_or_pos k with h0 | h0
    · have hlog : Nat.log2 (num / den) ≤ 23 := by
        have : Nat.log2 (num / den) - 23 = 0 := by rw [← h0, hk]; rfl
        omega
      refine ⟨?_, by omega⟩
      rw [h0]
      simp only [Nat.pow_zero, Nat.div_one]
      have : num / den < 2 ^ (Nat.log2 (num / den) + 1) := Nat.lt_log2_self
      have h2 : (2 : Nat) ^ (Nat.log2 (num / den) + 1) ≤ 2 ^ 24 :=
        Nat.pow_le_pow_right (by decide) (by omega)
      omega
    · have hlog : Nat.log2 (num / den) = k + 23 := by
        have : Nat.log2 (num / den) - 23 = k := by rw [hk]; rfl
        omega
      have hne : num / den ≠ 0 := by
        intro h0'
        rw [h0'] at hlog
        simp at hlog
      have hlo : 2 ^ (k + 23) ≤ num / den := by rw [← hlog]; exact Nat.log2_self_le hne
      have hhi : num / den < 2 ^ (k + 24) := by
        rw [show k + 24 = Nat.log2 (num / den) + 1 by omega]; exact Nat.lt_log2_self
      constructor
      · have : num / den / 2 ^ k < 2 ^ 24 := by
          rw [Nat.div_lt_iff_lt_mul (Nat.two_pow_pos k), ← Nat.pow_add, Nat.add_comm 24 k]
          exact hhi
        omega
      · intro _
        rw [Nat.le_div_iff_mul_le (Nat.two_pow_pos k), ← Nat.pow_add, Nat.add_comm 23 k]
        exact hlo
  have u0 : magUnits (k * 2 ^ 23 + Q) = Q * 2 ^ k :=
    magUnits_pack Q k (by omega) hbounds.2
  have u1 : magUnits (k * 2 ^ 23 + Q + 1) = (Q + 1) * 2 ^ k := by
    rw [Nat.add_assoc]
    exact magUnits_pack (Q + 1) k hbounds.1 fun h => by have := hbounds.2 h; omega
  have hnum : Q * D + num % D = num := by
    rw [Nat.mul_comm]; exact Nat.div_add_mod num D
  refine ⟨k * 2 ^ 23 + Q, num % D, D, hDpos, Nat.mod_lt _ hDpos, ?_, ?_, ?_⟩
  · rw [u0, show Q * 2 ^ k * den = Q * D by rw [hD]; ring]; exact hnum
  · rw [u0, u1, hD]; ring
  · have hraw : roundRaw num den = k * 2 ^ 23 + roundHalfEven num D := rfl
    rw [hraw, roundHalfEven, ← hQ]
    split
    · exact .inl ⟨‹_›, rfl⟩
    · split
      · exact .inr (.inl ⟨‹_›, by omega⟩)
      · exact .inr (.inr ⟨by omega, by omega⟩)

/-- The distance of encoding `j` from `num / den`, in units over `den`. -/
def roundErr (num den j : Nat) : Nat := ((magUnits j : Int) * den - num).natAbs

theorem roundErr_eq (num den j : Nat) :
    roundErr num den j = (((magUnits j * den : Nat) : Int) - num).natAbs := by
  rw [roundErr, Nat.cast_mul]

/-- `roundRaw` is nearest, and even where another encoding is as near. -/
theorem roundRaw_nearest (num den j : Nat) (hd : 0 < den) :
    roundErr num den (roundRaw num den) ≤ roundErr num den j ∧
      (roundErr num den (roundRaw num den) = roundErr num den j → j ≠ roundRaw num den →
        roundRaw num den % 2 = 0) := by
  obtain ⟨p, r, D, hD, hr, hnum, hsucc, hcase⟩ := roundRaw_candidates num den hd
  have low : ∀ i, i < p → roundErr num den i > r := by
    intro i hi
    have h1 : magUnits i < magUnits p := magUnits_strictMono hi
    have h2 : magUnits i * den < magUnits p * den := Nat.mul_lt_mul_of_pos_right h1 hd
    rw [roundErr_eq]
    omega
  have high : ∀ i, p + 1 < i → roundErr num den i > D - r := by
    intro i hi
    have h1 : magUnits (p + 1) < magUnits i := magUnits_strictMono hi
    have h2 : magUnits (p + 1) * den < magUnits i * den := Nat.mul_lt_mul_of_pos_right h1 hd
    rw [roundErr_eq]
    omega
  have at0 : roundErr num den p = r := by rw [roundErr_eq]; omega
  have at1 : roundErr num den (p + 1) = D - r := by rw [roundErr_eq]; omega
  have hj : j < p ∨ j = p ∨ j = p + 1 ∨ p + 1 < j := by omega
  rcases hcase with ⟨h, e⟩ | ⟨h, e⟩ | ⟨h, e⟩
  · rw [e, at0]
    rcases hj with hj | rfl | rfl | hj
    · have := low j hj; exact ⟨by omega, by omega⟩
    · exact ⟨by omega, by omega⟩
    · rw [at1]; exact ⟨by omega, by omega⟩
    · have := high j hj; exact ⟨by omega, by omega⟩
  · rw [e, at1]
    rcases hj with hj | rfl | rfl | hj
    · have := low j hj; exact ⟨by omega, by omega⟩
    · rw [at0]; exact ⟨by omega, by omega⟩
    · exact ⟨by omega, by omega⟩
    · have := high j hj; exact ⟨by omega, by omega⟩
  · have he : roundErr num den (p + p % 2) = r := by
      rcases Nat.mod_two_eq_zero_or_one p with h0 | h0
      · rw [h0]; exact at0
      · rw [h0, at1]; omega
    rw [e, he]
    refine ⟨?_, fun _ _ => by omega⟩
    rcases hj with hj | rfl | rfl | hj
    · have := low j hj; omega
    · omega
    · omega
    · have := high j hj; omega

theorem roundRaw_mono (n₁ n₂ den : Nat) (hd : 0 < den) (h : n₁ ≤ n₂) :
    roundRaw n₁ den ≤ roundRaw n₂ den := by
  rcases Nat.eq_or_lt_of_le h with rfl | hlt
  · exact le_refl _
  · by_contra hgt
    have hU : magUnits (roundRaw n₂ den) * den < magUnits (roundRaw n₁ den) * den :=
      Nat.mul_lt_mul_of_pos_right (magUnits_strictMono (by omega)) hd
    have e1 := (roundRaw_nearest n₁ den (roundRaw n₂ den) hd).1
    have e2 := (roundRaw_nearest n₂ den (roundRaw n₁ den) hd).1
    rw [roundErr_eq, roundErr_eq] at e1 e2
    omega

theorem f32Round_mono (n₁ n₂ den : Nat) (hd : 0 < den) (h : n₁ ≤ n₂) :
    f32Round n₁ den ≤ f32Round n₂ den := by
  have := roundRaw_mono n₁ n₂ den hd h
  simp only [f32Round_eq]
  omega

/-- A representable value rounds to itself. -/
theorem f32Round_exact (m den : Nat) (hd : 0 < den) (hm : m ≤ f32InfMag) :
    f32Round (magUnits m * den) den = m := by
  have h := (roundRaw_nearest (magUnits m * den) den m hd).1
  have h0 : roundErr (magUnits m * den) den m = 0 := by unfold roundErr; simp
  rw [h0] at h
  have : magUnits (roundRaw (magUnits m * den) den) * den = magUnits m * den := by
    rw [roundErr_eq] at h
    omega
  have : roundRaw (magUnits m * den) den = m :=
    magUnits_strictMono.injective (Nat.eq_of_mul_eq_mul_right hd this)
  rw [f32Round_eq, this]
  omega

theorem f32Round_zero (den : Nat) (hd : 0 < den) : f32Round 0 den = 0 := by
  simpa [magUnits] using f32Round_exact 0 den hd (by decide)

/-- Where it is finite, the rounded value is nearest. -/
theorem f32Round_nearest (num den j : Nat) (hd : 0 < den) (hf : f32Round num den < f32InfMag) :
    roundErr num den (f32Round num den) ≤ roundErr num den j := by
  have : f32Round num den = roundRaw num den := by rw [f32Round_eq] at *; omega
  rw [this]
  exact (roundRaw_nearest num den j hd).1

/-! ## The operations on finite values -/

theorem f32Add_finite {a b : F32} (ha : f32IsFinite a = true) (hb : f32IsFinite b = true) :
    f32Add a b = f32AddFinite a b := by
  simp [f32Add, not_nan_of_finite ha, not_nan_of_finite hb, not_inf_of_finite ha,
    not_inf_of_finite hb]

theorem f32Mul_finite {a b : F32} (ha : f32IsFinite a = true) (hb : f32IsFinite b = true) :
    f32Mul a b =
      f32OfMag (f32Sign a != f32Sign b) (f32Round (f32Units a * f32Units b) (2 ^ 149)) := by
  simp [f32Mul, not_nan_of_finite ha, not_nan_of_finite hb, not_inf_of_finite ha,
    not_inf_of_finite hb]

theorem f32Div_finite {a b : F32} (ha : f32IsFinite a = true) (hb : f32IsFinite b = true)
    (hz : f32IsZero b = false) :
    f32Div a b =
      f32OfMag (f32Sign a != f32Sign b) (f32Round (f32Units a * 2 ^ 149) (f32Units b)) := by
  simp [f32Div, not_nan_of_finite ha, not_nan_of_finite hb, not_inf_of_finite ha,
    not_inf_of_finite hb, hz]

theorem f32OfNat_eq (n : Nat) : f32OfNat n = f32OfMag false (f32Round (n * 2 ^ 149) 1) := by
  have h : decide ((n : Int) < 0) = false := by simp
  rw [f32OfNat, f32OfInt, h, Int.natAbs_natCast]

/-- Zero times a finite value is a zero. -/
theorem f32Mul_zero_left {a b : F32} (ha : f32IsZero a = true) (hb : f32IsFinite b = true) :
    f32IsZero (f32Mul a b) = true := by
  have hf : f32IsFinite a = true := by rcases (f32IsZero_iff a).1 ha with rfl | rfl <;> decide
  have hu : f32Units a = 0 := by rcases (f32IsZero_iff a).1 ha with rfl | rfl <;> decide
  rw [f32Mul_finite hf hb, hu, Nat.zero_mul, f32Round_zero _ (Nat.two_pow_pos _)]
  generalize (f32Sign a != f32Sign b) = sign
  cases sign <;> decide

/-! ## Order -/

theorem f32Key_f32OfMag (sign : Bool) (m : Nat) (h : m < 2 ^ 31) :
    f32Key (f32OfMag sign m) = if sign then -(m : Int) else m := by
  rw [f32Key, f32Sign_f32OfMag _ _ h, f32Mag_f32OfMag _ _ h]

theorem f32Val_f32OfMag (sign : Bool) (m : Nat) (h : m < 2 ^ 31) :
    f32Val (f32OfMag sign m) = if sign then -(magUnits m : Int) else magUnits m := by
  rw [f32Val, f32Sign_f32OfMag _ _ h, f32Units_f32OfMag _ _ h]

/-- On all encodings the order of the keys is the order of the values in units. -/
theorem f32Key_lt_iff (a b : F32) : f32Key a < f32Key b ↔ f32Val a < f32Val b := by
  have hz : magUnits 0 = 0 := rfl
  have hm : ∀ m, 0 < m → 0 < magUnits m := fun m h => by
    have := magUnits_strictMono h
    omega
  have key := magUnits_strictMono.lt_iff_lt (a := f32Mag a) (b := f32Mag b)
  have key' := magUnits_strictMono.lt_iff_lt (a := f32Mag b) (b := f32Mag a)
  have ha : 0 < f32Mag a ↔ 0 < magUnits (f32Mag a) :=
    ⟨hm _, fun h => Nat.pos_of_ne_zero fun e => by rw [e, hz] at h; omega⟩
  have hb : 0 < f32Mag b ↔ 0 < magUnits (f32Mag b) :=
    ⟨hm _, fun h => Nat.pos_of_ne_zero fun e => by rw [e, hz] at h; omega⟩
  unfold f32Key f32Val
  simp only [f32Units_eq]
  cases f32Sign a <;> cases f32Sign b <;> simp <;> omega

theorem f32Gt_irrefl (a : F32) : f32Gt a a = false := by simp [f32Gt, f32Lt]

theorem f32Gt_trans {a b c : F32} (h₁ : f32Gt a b = true) (h₂ : f32Gt b c = true) :
    f32Gt a c = true := by
  simp only [f32Gt, f32Lt, Bool.and_eq_true, decide_eq_true_eq] at *
  exact ⟨⟨h₂.1.1, h₁.1.2⟩, by omega⟩

theorem not_nan_of_gt {a b : F32} (h : f32Gt a b = true) :
    f32IsNaN a = false ∧ f32IsNaN b = false := by
  simp only [f32Gt, f32Lt, Bool.and_eq_true] at h
  simp_all

/-- On numbers `>` is total: not above means at most. -/
theorem f32Gt_false_trans {a b c : F32} (hb : f32IsNaN b = false)
    (h₁ : f32Gt a b = false) (h₂ : f32Gt b c = false) : f32Gt a c = false := by
  simp only [f32Gt, f32Lt, Bool.and_eq_false_iff, Bool.not_eq_false', decide_eq_false_iff_not] at *
  rcases h₁ with (h | h) | h
  · simp_all
  · simp_all
  · rcases h₂ with (h' | h') | h'
    · simp_all
    · simp_all
    · right; omega

end Sys2Proof.Machine
end

