-- ==== Sys2Proof/Laws/Decode.lean ====
section
/-! SUPPORT. The fields of a command word and the selector codes, forwards and back. -/

namespace Sys2Proof

theorem fieldOpc_packC32 (opc : BitVec 8) (sel rsv : BitVec 4) (imm : Half) :
    fieldOpc (packC32 opc sel rsv imm) = opc := by
  apply BitVec.eq_of_getLsbD_eq
  intro i hi
  simp only [fieldOpc, packC32, BitVec.getLsbD_extractLsb', BitVec.getLsbD_append]
  simp [hi]

theorem fieldSel_packC32 (opc : BitVec 8) (sel rsv : BitVec 4) (imm : Half) :
    fieldSel (packC32 opc sel rsv imm) = sel := by
  apply BitVec.eq_of_getLsbD_eq
  intro i hi
  simp only [fieldSel, packC32, BitVec.getLsbD_extractLsb', BitVec.getLsbD_append]
  simp [hi]

theorem fieldRsv_packC32 (opc : BitVec 8) (sel rsv : BitVec 4) (imm : Half) :
    fieldRsv (packC32 opc sel rsv imm) = rsv := by
  apply BitVec.eq_of_getLsbD_eq
  intro i hi
  simp only [fieldRsv, packC32, BitVec.getLsbD_extractLsb', BitVec.getLsbD_append]
  rw [if_neg (by omega), if_neg (by omega), if_pos (by omega)]
  simp [hi]
  congr 1
  show _ = i
  omega

theorem fieldImm_packC32 (opc : BitVec 8) (sel rsv : BitVec 4) (imm : Half) :
    fieldImm (packC32 opc sel rsv imm) = imm := by
  apply BitVec.eq_of_getLsbD_eq
  intro i hi
  simp only [fieldImm, packC32, BitVec.getLsbD_extractLsb', BitVec.getLsbD_append]
  rw [if_neg (by omega), if_neg (by omega), if_neg (by omega)]
  simp [hi]
  congr 1
  show _ = i
  omega

/-- A word is made of its four fields. -/
theorem packC32_fields (w : Word) :
    packC32 (fieldOpc w) (fieldSel w) (fieldRsv w) (fieldImm w) = w := by
  apply BitVec.eq_of_getLsbD_eq
  intro i hi
  simp only [fieldOpc, fieldSel, fieldRsv, fieldImm, packC32, BitVec.getLsbD_append,
    BitVec.getLsbD_extractLsb']
  split
  · simp [*]
  · split
    · simp [*]; congr 1; show _ = i; omega
    · split
      · simp [*]; congr 1; show _ = i; omega
      · have h : i - 8 - 4 - 4 < 16 := by omega
        simp [h]; congr 1; show _ = i; omega

theorem fieldOpc_toNat (w : Word) : (fieldOpc w).toNat = w.toNat % 256 := by
  simp [fieldOpc]

theorem fieldSel_toNat (w : Word) : (fieldSel w).toNat = w.toNat / 256 % 16 := by
  simp [fieldSel, Nat.shiftRight_eq_div_pow]

theorem fieldRsv_toNat (w : Word) : (fieldRsv w).toNat = w.toNat / 4096 % 16 := by
  simp [fieldRsv, Nat.shiftRight_eq_div_pow]

theorem fieldImm_toNat (w : Word) : (fieldImm w).toNat = w.toNat / 65536 := by
  simp [fieldImm, Nat.shiftRight_eq_div_pow]
  omega

theorem Selector.ofCode_code (f : Selector) : Selector.ofCode f.code = some f := by
  cases f <;> rfl

theorem Selector.code_ofCode : ∀ (c : BitVec 4) (f : Selector),
    Selector.ofCode c = some f → f.code = c := by decide

/-- Bytes and words of the little-endian layout agree. -/
theorem decodeBytes_bytesOfWord (w : Word) (rest : List Byte) :
    decodeBytes (bytesOfWord w ++ rest) =
      match decode w with
      | .ok i => .ok (i, rest)
      | .error e => .error e := by
  have h : wordOfBytes (w.extractLsb' 0 8) (w.extractLsb' 8 8) (w.extractLsb' 16 8)
      (w.extractLsb' 24 8) = w := by
    apply BitVec.eq_of_getLsbD_eq
    intro i hi
    simp only [wordOfBytes, BitVec.getLsbD_append, BitVec.getLsbD_extractLsb']
    split
    · simp [*]
    · split
      · simp [*]; congr 1; show _ = i; omega
      · split
        · simp [*]; congr 1; show _ = i; omega
        · have h : i - 8 - 8 - 8 < 8 := by omega
          simp [h]; congr 1; show _ = i; omega
  cases hd : decode w <;>
    simp only [bytesOfWord, List.cons_append, List.nil_append, decodeBytes, h, hd]

end Sys2Proof
end

