-- ==== Sys2Proof/Laws/FrameBuffer.lean ====
section
/-! SUPPORT. The laws of the frame buffer: read after write, and that a write keeps the canonical form. -/

namespace Sys2Proof.Machine

open Sys2Proof.Config

theorem lookup_filter_of_keep (p : Nat → Bool) (fb : List Host.Cell) (x : Nat) (h : p x = true) :
    (fb.filter fun c => p c.1).lookup x = fb.lookup x := by
  induction fb with
  | nil => rfl
  | cons c cs ih =>
    obtain ⟨a, b⟩ := c
    by_cases hx : x = a
    · subst hx; simp [h]
    · by_cases ha : p a = true <;>
        simp [ha, List.lookup_cons, beq_false_of_ne hx, ih]

theorem lookup_filter_of_drop (p : Nat → Bool) (fb : List Host.Cell) (x : Nat) (h : p x = false) :
    (fb.filter fun c => p c.1).lookup x = none := by
  induction fb with
  | nil => rfl
  | cons c cs ih =>
    obtain ⟨a, b⟩ := c
    by_cases ha : p a = true
    · have hx : x ≠ a := fun e => by rw [e, ha] at h; cases h
      simp [ha, List.lookup_cons, beq_false_of_ne hx, ih]
    · simp [ha, ih]

theorem lookup_append_cells (l m : List Host.Cell) (x : Nat) :
    (l ++ m).lookup x = (l.lookup x).or (m.lookup x) := by
  induction l with
  | nil => simp
  | cons c cs ih =>
    obtain ⟨a, b⟩ := c
    by_cases hx : x = a
    · subst hx; simp
    · simp [List.lookup_cons, beq_false_of_ne hx, ih]

/-- Every index `cellsOf` lists lies in the run it was given. -/
theorem mem_cellsOf {a : Nat} {bs : List Byte} {c : Host.Cell} (h : c ∈ cellsOf a bs) :
    a ≤ c.1 ∧ c.1 < a + bs.length ∧ c.2 ≠ unlistedByte := by
  induction bs generalizing a with
  | nil => simp [cellsOf] at h
  | cons b bs ih =>
    simp only [cellsOf] at h
    split at h
    · obtain ⟨h1, h2, h3⟩ := ih h
      exact ⟨by omega, by simp only [List.length_cons]; omega, h3⟩
    · rcases List.mem_cons.mp h with rfl | h'
      · exact ⟨le_refl _, by simp, by assumption⟩
      · obtain ⟨h1, h2, h3⟩ := ih h'
        exact ⟨by omega, by simp only [List.length_cons]; omega, h3⟩

theorem lookup_cellsOf_outside (a : Nat) (bs : List Byte) (x : Nat)
    (h : x < a ∨ a + bs.length ≤ x) : (cellsOf a bs).lookup x = none := by
  rw [List.lookup_eq_none_iff]
  intro c hc
  have := mem_cellsOf hc
  simpa using (by omega : x ≠ c.1)

theorem lookup_cellsOf_inside (a : Nat) (bs : List Byte) (x : Nat) (h₁ : a ≤ x)
    (h₂ : x < a + bs.length) :
    ((cellsOf a bs).lookup x).getD unlistedByte = bs.getD (x - a) unlistedByte := by
  induction bs generalizing a with
  | nil => simp at h₂; omega
  | cons b bs ih =>
    simp only [List.length_cons] at h₂
    by_cases hx : x = a
    · subst hx
      simp only [cellsOf]
      split
      · rename_i hb; rw [lookup_cellsOf_outside _ _ _ (by omega)]; simp [hb]
      · simp
    · have hs : x - a = (x - (a + 1)) + 1 := by omega
      have := ih (a + 1) (by omega) (by omega)
      simp only [cellsOf]
      split
      · rw [this, hs]; simp
      · rw [List.lookup_cons, beq_false_of_ne hx, hs]; simpa using this

/-- Read after write: inside the run the written bytes, outside what was there. -/
theorem fbRead_fbWrite (fb : List Host.Cell) (a : Nat) (bs : List Byte) (x : Nat) :
    fbRead (fbWrite fb a bs) x =
      if a ≤ x ∧ x < a + bs.length then bs.getD (x - a) unlistedByte else fbRead fb x := by
  unfold fbRead fbWrite
  rw [lookup_append_cells, lookup_append_cells]
  by_cases hlo : x < a
  · have k := lookup_filter_of_keep (fun i => decide (i < a)) fb x (by simpa using hlo)
    have d := lookup_filter_of_drop (fun i => decide (a + bs.length ≤ i)) fb x (by simp; omega)
    rw [k, lookup_cellsOf_outside _ _ _ (.inl hlo), d, if_neg (by omega)]
    simp
  · have d := lookup_filter_of_drop (fun i => decide (i < a)) fb x (by simpa using hlo)
    by_cases hhi : x < a + bs.length
    · have d' := lookup_filter_of_drop (fun i => decide (a + bs.length ≤ i)) fb x (by simp; omega)
      rw [d, d', if_pos (by omega)]
      simpa using lookup_cellsOf_inside a bs x (by omega) hhi
    · have k := lookup_filter_of_keep (fun i => decide (a + bs.length ≤ i)) fb x (by simp; omega)
      rw [d, lookup_cellsOf_outside _ _ _ (.inr (by omega)), k, if_neg (by omega)]
      simp

theorem cellsOf_pairwise (a : Nat) (bs : List Byte) :
    (cellsOf a bs).Pairwise fun x y => x.1 < y.1 := by
  induction bs generalizing a with
  | nil => exact .nil
  | cons b bs ih =>
    simp only [cellsOf]
    split
    · exact ih _
    · refine List.pairwise_cons.mpr ⟨fun c hc => ?_, ih _⟩
      have := mem_cellsOf hc
      show a < c.1
      omega

/-- A write inside the buffer keeps the canonical form. -/
theorem fbWf_fbWrite (size : Nat) (fb : List Host.Cell) (a : Nat) (bs : List Byte)
    (h : fbWf size fb = true) (hr : a + bs.length ≤ size) : fbWf size (fbWrite fb a bs) = true := by
  simp only [fbWf, cellsCanonical, Bool.and_eq_true, decide_eq_true_eq, List.all_eq_true,
    bne_iff_ne, ne_eq] at h ⊢
  obtain ⟨⟨hp, hn⟩, hb⟩ := h
  simp only [fbWrite, List.append_assoc, List.pairwise_append, List.mem_append, List.mem_filter,
    decide_eq_true_eq]
  refine ⟨⟨⟨hp.filter _, ⟨cellsOf_pairwise _ _, hp.filter _, ?_⟩, ?_⟩, ?_⟩, ?_⟩
  · rintro x hx y ⟨-, hy⟩
    have := mem_cellsOf hx
    omega
  · rintro x ⟨-, hx⟩ y (hy | ⟨-, hy⟩)
    · have := mem_cellsOf hy
      omega
    · omega
  · rintro x (⟨hx, -⟩ | hx | ⟨hx, -⟩)
    · exact hn x hx
    · exact (mem_cellsOf hx).2.2
    · exact hn x hx
  · rintro x (⟨hx, -⟩ | hx | ⟨hx, -⟩)
    · exact hb x hx
    · have := mem_cellsOf hx
      omega
    · exact hb x hx

/-- A write of nothing reads as no write. -/
theorem fbRead_fbWrite_nil (fb : List Host.Cell) (a x : Nat) :
    fbRead (fbWrite fb a []) x = fbRead fb x := by
  rw [fbRead_fbWrite, if_neg (by simp)]

theorem fbWrite_nil_canonical (size : Nat) (fb : List Host.Cell) (a : Nat) (h : fbWf size fb = true) :
    fbWf size (fbWrite fb a []) = true := by
  simp only [fbWf, cellsCanonical, Bool.and_eq_true, decide_eq_true_eq, List.all_eq_true,
    bne_iff_ne, ne_eq] at h ⊢
  obtain ⟨⟨hp, hn⟩, hb⟩ := h
  simp only [fbWrite, cellsOf, List.append_nil, List.length_nil, Nat.add_zero, List.pairwise_append,
    List.mem_append, List.mem_filter, decide_eq_true_eq]
  refine ⟨⟨⟨hp.filter _, hp.filter _, ?_⟩, ?_⟩, ?_⟩
  · rintro x ⟨-, hx⟩ y ⟨-, hy⟩
    omega
  · rintro x (⟨hx, -⟩ | ⟨hx, -⟩) <;> exact hn x hx
  · rintro x (⟨hx, -⟩ | ⟨hx, -⟩) <;> exact hb x hx

/-! ## What one `ACC_PUSH` accepts -/

theorem takenBytes_length (s : State) : (takenBytes s).length = takeCount s := by
  simp [takenBytes, takeCount]

theorem takeCount_le_room (s : State) : takeCount s ≤ s.build.frameBytes - s.accCount :=
  Nat.min_le_right _ _

theorem takenBytes_getD (s : State) (j : Nat) (h : j < takeCount s) (d : Byte) :
    (takenBytes s).getD j d = s.txn.din.getD j d := by
  simp [takenBytes, List.getD, h]

end Sys2Proof.Machine
end

