-- ==== Sys2Proof/Laws/State.lean ====
section
/-! SUPPORT. One lemma per field per named update of the state, so that no proof unfolds a record
update. -/

namespace Sys2Proof.Machine

/-! ### respond -/

@[simp] theorem respond_build (s : State) (e : Status) (d : Word) :
    (respond s e d).build = s.build := rfl
@[simp] theorem respond_fb (s : State) (e : Status) (d : Word) : (respond s e d).fb = s.fb := rfl
@[simp] theorem respond_accCount (s : State) (e : Status) (d : Word) :
    (respond s e d).accCount = s.accCount := rfl
@[simp] theorem respond_recState (s : State) (e : Status) (d : Word) :
    (respond s e d).recState = s.recState := rfl
@[simp] theorem respond_btnLevel (s : State) (e : Status) (d : Word) :
    (respond s e d).btnLevel = s.btnLevel := rfl
@[simp] theorem respond_prevSum (s : State) (e : Status) (d : Word) :
    (respond s e d).prevSum = s.prevSum := rfl
@[simp] theorem respond_lastImpTs (s : State) (e : Status) (d : Word) :
    (respond s e d).lastImpTs = s.lastImpTs := rfl
@[simp] theorem respond_w (s : State) (e : Status) (d : Word) : (respond s e d).w = s.w := rfl
@[simp] theorem respond_cur (s : State) (e : Status) (d : Word) :
    (respond s e d).cur = s.cur := rfl
@[simp] theorem respond_snap (s : State) (e : Status) (d : Word) :
    (respond s e d).snap = s.snap := rfl
@[simp] theorem respond_pin (s : State) (e : Status) (d : Word) :
    (respond s e d).pin = s.pin := rfl
@[simp] theorem respond_inbox (s : State) (e : Status) (d : Word) :
    (respond s e d).inbox = s.inbox := rfl
@[simp] theorem respond_txn (s : State) (e : Status) (d : Word) :
    (respond s e d).txn = s.txn := rfl
@[simp] theorem respond_rsp (s : State) (e : Status) (d : Word) :
    (respond s e d).rsp = deliver s.rsp s.txn.port ⟨e, d⟩ := rfl
@[simp] theorem respond_draws (s : State) (e : Status) (d : Word) :
    (respond s e d).draws = s.draws := rfl

/-! ### afterDraw -/

@[simp] theorem afterDraw_build (s : State) : (afterDraw s).build = s.build := rfl
@[simp] theorem afterDraw_fb (s : State) : (afterDraw s).fb = s.fb := rfl
@[simp] theorem afterDraw_accCount (s : State) : (afterDraw s).accCount = s.accCount := rfl
@[simp] theorem afterDraw_recState (s : State) : (afterDraw s).recState = s.recState := rfl
@[simp] theorem afterDraw_btnLevel (s : State) : (afterDraw s).btnLevel = s.btnLevel := rfl
@[simp] theorem afterDraw_prevSum (s : State) : (afterDraw s).prevSum = s.prevSum := rfl
@[simp] theorem afterDraw_lastImpTs (s : State) : (afterDraw s).lastImpTs = s.lastImpTs := rfl
@[simp] theorem afterDraw_w (s : State) : (afterDraw s).w = s.w := rfl
@[simp] theorem afterDraw_cur (s : State) : (afterDraw s).cur = s.cur := rfl
@[simp] theorem afterDraw_snap (s : State) : (afterDraw s).snap = s.snap := rfl
@[simp] theorem afterDraw_pin (s : State) : (afterDraw s).pin = s.pin := rfl
@[simp] theorem afterDraw_inbox (s : State) : (afterDraw s).inbox = s.inbox := rfl
@[simp] theorem afterDraw_txn (s : State) : (afterDraw s).txn = s.txn := rfl
@[simp] theorem afterDraw_rsp (s : State) : (afterDraw s).rsp = s.rsp := rfl
@[simp] theorem afterDraw_draws (s : State) :
    (afterDraw s).draws = if s.build.gateBusy then s.draws + 1 else s.draws := rfl

/-! ### publishNow -/

@[simp] theorem publishNow_build (s : State) : (publishNow s).build = s.build := rfl
@[simp] theorem publishNow_fb (s : State) : (publishNow s).fb = s.fb := rfl
@[simp] theorem publishNow_accCount (s : State) : (publishNow s).accCount = s.accCount := rfl
@[simp] theorem publishNow_recState (s : State) : (publishNow s).recState = s.recState := rfl
@[simp] theorem publishNow_btnLevel (s : State) : (publishNow s).btnLevel = s.btnLevel := rfl
@[simp] theorem publishNow_prevSum (s : State) : (publishNow s).prevSum = s.prevSum := rfl
@[simp] theorem publishNow_lastImpTs (s : State) : (publishNow s).lastImpTs = s.lastImpTs := rfl
@[simp] theorem publishNow_w (s : State) : (publishNow s).w = s.w := rfl
@[simp] theorem publishNow_cur (s : State) : (publishNow s).cur = s.cur + 1#32 := rfl
@[simp] theorem publishNow_snap (s : State) :
    (publishNow s).snap = (s.cur + 1#32, s.w) :: s.snap.filter fun e => pinned s.pin e.1 := rfl
@[simp] theorem publishNow_pin (s : State) : (publishNow s).pin = s.pin := rfl
@[simp] theorem publishNow_inbox (s : State) : (publishNow s).inbox = s.inbox := rfl
@[simp] theorem publishNow_txn (s : State) : (publishNow s).txn = s.txn := rfl
@[simp] theorem publishNow_rsp (s : State) : (publishNow s).rsp = s.rsp := rfl
@[simp] theorem publishNow_draws (s : State) : (publishNow s).draws = s.draws := rfl

/-! ### withPin -/

@[simp] theorem withPin_build (s : State) (r : Reader) (v : Option Version) :
    (withPin s r v).build = s.build := rfl
@[simp] theorem withPin_fb (s : State) (r : Reader) (v : Option Version) :
    (withPin s r v).fb = s.fb := rfl
@[simp] theorem withPin_accCount (s : State) (r : Reader) (v : Option Version) :
    (withPin s r v).accCount = s.accCount := rfl
@[simp] theorem withPin_recState (s : State) (r : Reader) (v : Option Version) :
    (withPin s r v).recState = s.recState := rfl
@[simp] theorem withPin_btnLevel (s : State) (r : Reader) (v : Option Version) :
    (withPin s r v).btnLevel = s.btnLevel := rfl
@[simp] theorem withPin_prevSum (s : State) (r : Reader) (v : Option Version) :
    (withPin s r v).prevSum = s.prevSum := rfl
@[simp] theorem withPin_lastImpTs (s : State) (r : Reader) (v : Option Version) :
    (withPin s r v).lastImpTs = s.lastImpTs := rfl
@[simp] theorem withPin_w (s : State) (r : Reader) (v : Option Version) :
    (withPin s r v).w = s.w := rfl
@[simp] theorem withPin_cur (s : State) (r : Reader) (v : Option Version) :
    (withPin s r v).cur = s.cur := rfl
@[simp] theorem withPin_snap (s : State) (r : Reader) (v : Option Version) :
    (withPin s r v).snap = retained s.snap s.cur (setPin s.pin r v) := rfl
@[simp] theorem withPin_pin (s : State) (r : Reader) (v : Option Version) :
    (withPin s r v).pin = setPin s.pin r v := rfl
@[simp] theorem withPin_inbox (s : State) (r : Reader) (v : Option Version) :
    (withPin s r v).inbox = s.inbox := rfl
@[simp] theorem withPin_txn (s : State) (r : Reader) (v : Option Version) :
    (withPin s r v).txn = s.txn := rfl
@[simp] theorem withPin_rsp (s : State) (r : Reader) (v : Option Version) :
    (withPin s r v).rsp = s.rsp := rfl
@[simp] theorem withPin_draws (s : State) (r : Reader) (v : Option Version) :
    (withPin s r v).draws = s.draws := rfl

/-! ### latch -/

@[simp] theorem latch_build (s : State) (q : Request) (rest : List Input) :
    (latch s q rest).build = s.build := rfl
@[simp] theorem latch_fb (s : State) (q : Request) (rest : List Input) :
    (latch s q rest).fb = s.fb := rfl
@[simp] theorem latch_accCount (s : State) (q : Request) (rest : List Input) :
    (latch s q rest).accCount = s.accCount := rfl
@[simp] theorem latch_recState (s : State) (q : Request) (rest : List Input) :
    (latch s q rest).recState = s.recState := rfl
@[simp] theorem latch_btnLevel (s : State) (q : Request) (rest : List Input) :
    (latch s q rest).btnLevel = s.btnLevel := rfl
@[simp] theorem latch_prevSum (s : State) (q : Request) (rest : List Input) :
    (latch s q rest).prevSum = s.prevSum := rfl
@[simp] theorem latch_lastImpTs (s : State) (q : Request) (rest : List Input) :
    (latch s q rest).lastImpTs = s.lastImpTs := rfl
@[simp] theorem latch_w (s : State) (q : Request) (rest : List Input) :
    (latch s q rest).w = s.w := rfl
@[simp] theorem latch_cur (s : State) (q : Request) (rest : List Input) :
    (latch s q rest).cur = s.cur := rfl
@[simp] theorem latch_snap (s : State) (q : Request) (rest : List Input) :
    (latch s q rest).snap = s.snap := rfl
@[simp] theorem latch_pin (s : State) (q : Request) (rest : List Input) :
    (latch s q rest).pin = s.pin := rfl
@[simp] theorem latch_inbox (s : State) (q : Request) (rest : List Input) :
    (latch s q rest).inbox = rest := rfl
@[simp] theorem latch_txn (s : State) (q : Request) (rest : List Input) :
    (latch s q rest).txn = q := rfl
@[simp] theorem latch_rsp (s : State) (q : Request) (rest : List Input) :
    (latch s q rest).rsp = s.rsp := rfl
@[simp] theorem latch_draws (s : State) (q : Request) (rest : List Input) :
    (latch s q rest).draws = s.draws := rfl

/-! ### accepted -/

@[simp] theorem accepted_build (s : State) : (accepted s).build = s.build := rfl
@[simp] theorem accepted_fb (s : State) :
    (accepted s).fb = fbWrite s.fb s.accCount (takenBytes s) := rfl
@[simp] theorem accepted_accCount (s : State) :
    (accepted s).accCount = s.accCount + takeCount s := rfl
@[simp] theorem accepted_recState (s : State) : (accepted s).recState = s.recState := rfl
@[simp] theorem accepted_btnLevel (s : State) : (accepted s).btnLevel = s.btnLevel := rfl
@[simp] theorem accepted_prevSum (s : State) : (accepted s).prevSum = s.prevSum := rfl
@[simp] theorem accepted_lastImpTs (s : State) : (accepted s).lastImpTs = s.lastImpTs := rfl
@[simp] theorem accepted_w (s : State) : (accepted s).w = s.w := rfl
@[simp] theorem accepted_cur (s : State) : (accepted s).cur = s.cur := rfl
@[simp] theorem accepted_snap (s : State) : (accepted s).snap = s.snap := rfl
@[simp] theorem accepted_pin (s : State) : (accepted s).pin = s.pin := rfl
@[simp] theorem accepted_inbox (s : State) : (accepted s).inbox = s.inbox := rfl
@[simp] theorem accepted_txn (s : State) : (accepted s).txn = s.txn := rfl
@[simp] theorem accepted_rsp (s : State) : (accepted s).rsp = s.rsp := rfl
@[simp] theorem accepted_draws (s : State) : (accepted s).draws = s.draws := rfl

/-! ### analyzed -/

@[simp] theorem analyzed_build (s : State) : (analyzed s).build = s.build := rfl
@[simp] theorem analyzed_fb (s : State) : (analyzed s).fb = s.fb := rfl
@[simp] theorem analyzed_accCount (s : State) : (analyzed s).accCount = 0 := rfl
@[simp] theorem analyzed_recState (s : State) : (analyzed s).recState = s.recState := rfl
@[simp] theorem analyzed_btnLevel (s : State) : (analyzed s).btnLevel = s.btnLevel := rfl
@[simp] theorem analyzed_prevSum (s : State) :
    (analyzed s).prevSum = (frameImpulse s).prevSum := rfl
@[simp] theorem analyzed_lastImpTs (s : State) :
    (analyzed s).lastImpTs = (frameImpulse s).lastImpTs := rfl
@[simp] theorem analyzed_w (s : State) :
    (analyzed s).w = ⟨frameSpectrum s, (framePeak s).dom, true,
      latestImpulse s.build.policy s.w.imp (frameImpulse s).event⟩ := rfl
@[simp] theorem analyzed_cur (s : State) : (analyzed s).cur = s.cur := rfl
@[simp] theorem analyzed_snap (s : State) : (analyzed s).snap = s.snap := rfl
@[simp] theorem analyzed_pin (s : State) : (analyzed s).pin = s.pin := rfl
@[simp] theorem analyzed_inbox (s : State) : (analyzed s).inbox = s.inbox := rfl
@[simp] theorem analyzed_txn (s : State) : (analyzed s).txn = s.txn := rfl
@[simp] theorem analyzed_rsp (s : State) : (analyzed s).rsp = s.rsp := rfl
@[simp] theorem analyzed_draws (s : State) : (analyzed s).draws = s.draws := rfl

/-! ### transition -/

@[simp] theorem transition_build (s : State) : (transition s).build = s.build := by
  unfold transition; split <;> rfl
@[simp] theorem transition_fb (s : State) : (transition s).fb = s.fb := by
  unfold transition; split <;> rfl
@[simp] theorem transition_btnLevel (s : State) : (transition s).btnLevel = s.btnLevel := by
  unfold transition; split <;> rfl
@[simp] theorem transition_prevSum (s : State) : (transition s).prevSum = s.prevSum := by
  unfold transition; split <;> rfl
@[simp] theorem transition_lastImpTs (s : State) : (transition s).lastImpTs = s.lastImpTs := by
  unfold transition; split <;> rfl
@[simp] theorem transition_cur (s : State) : (transition s).cur = s.cur := by
  unfold transition; split <;> rfl
@[simp] theorem transition_snap (s : State) : (transition s).snap = s.snap := by
  unfold transition; split <;> rfl
@[simp] theorem transition_pin (s : State) : (transition s).pin = s.pin := by
  unfold transition; split <;> rfl
@[simp] theorem transition_inbox (s : State) : (transition s).inbox = s.inbox := by
  unfold transition; split <;> rfl
@[simp] theorem transition_txn (s : State) : (transition s).txn = s.txn := by
  unfold transition; split <;> rfl
@[simp] theorem transition_rsp (s : State) : (transition s).rsp = s.rsp := by
  unfold transition; split <;> rfl
@[simp] theorem transition_draws (s : State) : (transition s).draws = s.draws := by
  unfold transition; split <;> rfl
@[simp] theorem transition_accCount (s : State) : (transition s).accCount = 0 := by
  unfold transition; split <;> rfl
@[simp] theorem transition_mag (s : State) : (transition s).w.mag = s.w.mag := by
  unfold transition; split <;> rfl
@[simp] theorem transition_dom (s : State) : (transition s).w.dom = s.w.dom := by
  unfold transition; split <;> rfl
theorem transition_of_idle (s : State) (h : s.recState = .idle) :
    transition s =
      { s with
        recState := .recording, w := { s.w with imp := none, recording := true }, accCount := 0 } := by
  simp [transition, h]
theorem transition_of_recording (s : State) (h : s.recState = .recording) :
    transition s =
      { s with recState := .idle, w := { s.w with recording := false }, accCount := 0 } := by
  simp [transition, h]

end Sys2Proof.Machine
end

