-- ==== Sys2Proof/Laws/Ops.lean ====
section
/-! SUPPORT. One lemma per shared operation that says what it can do: responses, the port checks, the
gate, the pins and the snapshot store. -/

namespace Sys2Proof.Machine

open Sys2Proof.Config

/-! ## Responses -/

@[simp] theorem raiseStatus_next (s t : State) (e : Status) :
    raiseStatus s e = .next t ↔ t = respond s e 0#32 := by
  simp [raiseStatus, eq_comm]

@[simp] theorem succeed_next (s t : State) (d : Word) :
    succeed s d = .next t ↔ t = respond s .ok d := by
  simp [succeed, eq_comm]

@[simp] theorem raiseStatus_not_refused (s : State) (e : Status) (r : Refusal) :
    raiseStatus s e ≠ .refused r := by simp [raiseStatus]

@[simp] theorem succeed_not_refused (s : State) (d : Word) (r : Refusal) :
    succeed s d ≠ .refused r := by simp [succeed]

@[simp] theorem responseOn_deliver_self (rs : Responses) (port : Port) (x : Response) :
    responseOn (deliver rs port x) port = some x := by
  rcases port with _ | (_ | _) <;> rfl

theorem responseOn_deliver_other (rs : Responses) (port q : Port) (x : Response)
    (h : q ≠ port) : responseOn (deliver rs port x) q = responseOn rs q := by
  rcases port with _ | (_ | _) <;> rcases q with _ | (_ | _) <;> simp_all [responseOn, deliver]

@[simp] theorem deliver_deliver (rs : Responses) (port : Port) (x y : Response) :
    deliver (deliver rs port x) port y = deliver rs port y := by
  rcases port with _ | (_ | _) <;> rfl

/-! ## Port checks -/

theorem onProducer_next {s t : State} {k : Result} (h : onProducer s k = .next t) :
    (s.txn.port = .p ∧ k = .next t) ∨
      (∃ r, s.txn.port = .rd r ∧ t = respond s .portDenied 0#32) := by
  unfold onProducer at h
  split at h
  · exact .inl ⟨‹_›, h⟩
  · exact .inr ⟨_, ‹_›, (raiseStatus_next ..).mp h⟩

theorem onReader_next {s t : State} {k : Reader → Result} (h : onReader s k = .next t) :
    (∃ r, s.txn.port = .rd r ∧ k r = .next t) ∨
      (s.txn.port = .p ∧ t = respond s .portDenied 0#32) := by
  unfold onReader at h
  split at h
  · exact .inr ⟨‹_›, (raiseStatus_next ..).mp h⟩
  · exact .inl ⟨_, ‹_›, h⟩

theorem onProducer_refused {s : State} {k : Result} {r : Refusal}
    (h : onProducer s k = .refused r) : s.txn.port = .p ∧ k = .refused r := by
  unfold onProducer at h
  split at h
  · exact ⟨‹_›, h⟩
  · simp at h

theorem onReader_refused {s : State} {k : Reader → Result} {x : Refusal}
    (h : onReader s k = .refused x) : ∃ r, s.txn.port = .rd r ∧ k r = .refused x := by
  unfold onReader at h
  split at h
  · simp at h
  · exact ⟨_, ‹_›, h⟩

@[simp] theorem onProducer_p {s : State} (k : Result) (h : s.txn.port = .p) :
    onProducer s k = k := by simp [onProducer, h]

@[simp] theorem onReader_rd {s : State} (k : Reader → Result) (r : Reader)
    (h : s.txn.port = .rd r) : onReader s k = k r := by simp [onReader, h]

/-! ## Pins -/

@[simp] theorem pinOf_setPin_self (pins : Pins) (r : Reader) (v : Option Version) :
    pinOf (setPin pins r v) r = v := by cases r <;> rfl

theorem pinOf_setPin_other (pins : Pins) (r q : Reader) (v : Option Version) (h : q ≠ r) :
    pinOf (setPin pins r v) q = pinOf pins q := by
  cases r <;> cases q <;> simp_all [pinOf, setPin]

theorem pinned_iff (pins : Pins) (v : Version) :
    pinned pins v = true ↔ ∃ r, pinOf pins r = some v := by
  simp only [pinned, Bool.or_eq_true, beq_iff_eq]
  constructor
  · rintro (h | h)
    · exact ⟨.rd0, h⟩
    · exact ⟨.rd1, h⟩
  · rintro ⟨_ | _, h⟩
    · exact .inl h
    · exact .inr h

/-! ## The snapshot store -/

theorem snapAt_filter (p : Version → Bool) (snap : List (Version × Snapshot)) (v : Version) :
    snapAt (snap.filter fun x => p x.1) v = if p v then snapAt snap v else none := by
  unfold snapAt
  induction snap with
  | nil => simp
  | cons x xs ih =>
    obtain ⟨a, r⟩ := x
    by_cases hv : v = a
    · subst hv
      by_cases hp : p v = true
      · simp [hp]
      · simp only [hp] at ih ⊢
        simpa [hp] using ih
    · by_cases ha : p a = true <;> simp [ha, List.lookup_cons, beq_false_of_ne hv, ih]

theorem snapAt_retained (snap : List (Version × Snapshot)) (cur : Version) (pins : Pins)
    (v : Version) :
    snapAt (retained snap cur pins) v =
      if v == cur || pinned pins v then snapAt snap v else none :=
  snapAt_filter (fun a => a == cur || pinned pins a) snap v

theorem snapAt_publishNow (s : State) (v : Version) :
    snapAt (publishNow s).snap v =
      if v = s.cur + 1#32 then some s.w
      else if pinned s.pin v then snapAt s.snap v else none := by
  rw [publishNow_snap]
  by_cases h : v = s.cur + 1#32
  · subst h; simp [snapAt]
  · rw [if_neg h, ← snapAt_filter (pinned s.pin)]
    simp [snapAt, List.lookup_cons, beq_false_of_ne h]

theorem mem_of_snapAt {snap : List (Version × Snapshot)} {v : Version} {r : Snapshot}
    (h : snapAt snap v = some r) : (v, r) ∈ snap := by
  induction snap with
  | nil => simp [snapAt] at h
  | cons x xs ih =>
    obtain ⟨a, r'⟩ := x
    by_cases hv : v = a
    · subst hv; simp [snapAt] at h; simp [h]
    · simp only [snapAt, List.lookup_cons, beq_false_of_ne hv] at h ih
      exact List.mem_cons_of_mem _ (ih h)

/-! ## The gate -/

theorem publishThen_next {s t : State} {k : Bool → State → Result}
    (h : publishThen s k = .next t) :
    (gateIsBusy s = true ∧ k true (afterDraw s) = .next t) ∨
      (gateIsBusy s = false ∧ pinned s.pin (s.cur + 1#32) = false ∧
        k false (publishNow (afterDraw s)) = .next t) := by
  unfold publishThen at h
  split at h
  · exact .inl ⟨‹_›, h⟩
  · split at h
    · simp at h
    · exact .inr ⟨by simpa using ‹¬gateIsBusy s = true›, by simpa using ‹¬pinned _ _ = true›, h⟩

theorem publishThen_refused {s : State} {k : Bool → State → Result} {r : Refusal}
    (hk : ∀ b u, k b u ≠ .refused r) (h : publishThen s k = .refused r) :
    r = .pinnedVersionReused ∧ gateIsBusy s = false ∧ pinned s.pin (s.cur + 1#32) = true := by
  unfold publishThen at h
  split at h
  · exact absurd h (hk _ _)
  · split at h
    · simp_all
    · exact absurd h (hk _ _)

@[simp] theorem gateIsBusy_of_lockFree (s : State) (h : s.build.gateBusy = false) :
    gateIsBusy s = false := by simp [gateIsBusy, h]

end Sys2Proof.Machine
end

