-- ==== Sys2Proof/Laws/Effects.lean ====
section
/-! SUPPORT. What one command can do to the state, said once: `exec_effect` and `step_cases`. Claims
about every command are case analyses of `Effect`. -/

namespace Sys2Proof.Machine

open Sys2Proof.Config

/-- The states a producer command hands to `publish()`. -/
inductive Prepared (s : State) : State → Prop where
  | analyzed (hr : s.recState = .recording) (hf : s.build.frameBytes ≤ s.accCount) :
      Prepared s (analyzed s)
  | transition (level : Bool) : Prepared s (transition { s with btnLevel := level })
  | tick (hr : s.recState = .idle) : Prepared s s

/-- The next states a command can give. -/
inductive Effect (s : State) : State → Prop where
  | error (e : Status) (he : e ≠ .ok) : Effect s (respond s e 0#32)
  | busy (r : Reader) (hp : s.txn.port = .rd r) (hb : gateIsBusy s = true) :
      Effect s (respond (afterDraw s) .busy 0#32)
  | read (d : Word) : Effect s (respond s .ok d)
  | push (hp : s.txn.port = .p) (hr : s.recState = .recording) (d : Word) :
      Effect s (respond (accepted s) .ok d)
  | drop (hp : s.txn.port = .p) (d : Word) : Effect s (respond { s with accCount := 0 } .ok d)
  | level (hp : s.txn.port = .p) (l : Bool) (d : Word) :
      Effect s (respond { s with btnLevel := l } .ok d)
  | skipped (hp : s.txn.port = .p) (u : State) (hu : Prepared s u) (hb : gateIsBusy u = true)
      (d : Word) : Effect s (respond (afterDraw u) .ok d)
  | published (hp : s.txn.port = .p) (u : State) (hu : Prepared s u) (hb : gateIsBusy u = false)
      (hv : pinned u.pin (u.cur + 1#32) = false) (d : Word) :
      Effect s (respond (publishNow (afterDraw u)) .ok d)
  | acquired (r : Reader) (hp : s.txn.port = .rd r) (hb : gateIsBusy s = false) (d : Word) :
      Effect s (respond (withPin (afterDraw s) r (some s.cur)) .ok d)
  | released (r : Reader) (hp : s.txn.port = .rd r) (d : Word) :
      Effect s (respond (withPin s r none) .ok d)

theorem Effect.ofPublish {s u t : State} (hp : s.txn.port = .p) (hu : Prepared s u)
    {f : Bool → State → Word}
    (h : publishThen u (fun skipped t => succeed t (f skipped t)) = .next t) : Effect s t := by
  rcases publishThen_next h with ⟨hb, h⟩ | ⟨hb, hv, h⟩
  · rw [(succeed_next ..).mp h]; exact .skipped hp u hu hb _
  · rw [(succeed_next ..).mp h]; exact .published hp u hu hb hv _

theorem execNop_effect {s t : State} (h : execNop s = .next t) : Effect s t := by
  rw [(succeed_next ..).mp h]; exact .read _

theorem execAccPush_effect {len : Half} {s t : State} (h : execAccPush len s = .next t) :
    Effect s t := by
  unfold execAccPush at h
  split at h
  · simp at h
  · rcases onProducer_next h with ⟨hp, h⟩ | ⟨r, -, rfl⟩
    · split at h
      · rw [(raiseStatus_next ..).mp h]; exact .error _ (by simp)
      · rw [(succeed_next ..).mp h]; exact .push hp ‹_› _
    · exact .error _ (by simp)

theorem execAccReset_effect {s t : State} (h : execAccReset s = .next t) : Effect s t := by
  rcases onProducer_next h with ⟨hp, h⟩ | ⟨r, -, rfl⟩
  · rw [(succeed_next ..).mp h]; exact .drop hp _
  · exact .error _ (by simp)

theorem execAnalyze_effect {s t : State} (h : execAnalyze s = .next t) : Effect s t := by
  rcases onProducer_next h with ⟨hp, h⟩ | ⟨r, -, rfl⟩
  · split at h
    · rw [(raiseStatus_next ..).mp h]; exact .error _ (by simp)
    · split at h
      · rw [(raiseStatus_next ..).mp h]; exact .error _ (by simp)
      · exact .ofPublish hp (.analyzed ‹_› (by omega)) h
  · exact .error _ (by simp)

theorem execButtonEdge_effect {l : Bool} {s t : State} (h : execButtonEdge l s = .next t) :
    Effect s t := by
  rcases onProducer_next h with ⟨hp, h⟩ | ⟨r, -, rfl⟩
  · split at h
    · exact .ofPublish hp (.transition l) h
    · rw [(succeed_next ..).mp h]; exact .level hp l _
  · exact .error _ (by simp)

theorem execIdleTick_effect {s t : State} (h : execIdleTick s = .next t) : Effect s t := by
  rcases onProducer_next h with ⟨hp, h⟩ | ⟨r, -, rfl⟩
  · split at h
    · rw [(raiseStatus_next ..).mp h]; exact .error _ (by simp)
    · exact .ofPublish hp (.tick ‹_›) h
  · exact .error _ (by simp)

theorem execCsrRead_effect {reg : Half} {s t : State} (h : execCsrRead reg s = .next t) :
    Effect s t := by
  unfold execCsrRead at h
  split at h
  · rw [(raiseStatus_next ..).mp h]; exact .error _ (by simp)
  · rw [(succeed_next ..).mp h]; exact .read _

theorem execSnapAcquire_effect {s t : State} (h : execSnapAcquire s = .next t) : Effect s t := by
  rcases onReader_next h with ⟨r, hp, h⟩ | ⟨-, rfl⟩
  · split at h
    · rw [(raiseStatus_next ..).mp h]; exact .busy r hp ‹_›
    · rename_i hb
      rw [(succeed_next ..).mp h]; exact .acquired r hp (by simpa using hb) _
  · exact .error _ (by simp)

theorem snapField_error {b : Build} {rec : Snapshot} {v : Version} {sel : Selector} {j : Nat} {e : Status}
    (h : snapField b rec v sel j = .error e) : e = .badIndex ∨ e = .noData := by
  cases sel <;> simp only [snapField, impulseField, peakField] at h <;>
    (repeat' split at h) <;> simp_all

theorem execSnapRead_effect {sel : Selector} {idx : Half} {s t : State}
    (h : execSnapRead sel idx s = .next t) : Effect s t := by
  rcases onReader_next h with ⟨r, -, h⟩ | ⟨-, rfl⟩
  · split at h
    · rw [(raiseStatus_next ..).mp h]; exact .error _ (by simp)
    · split at h
      · simp at h
      · split at h
        · rw [(raiseStatus_next ..).mp h]
          refine .error _ ?_
          rcases snapField_error ‹_› with rfl | rfl <;> simp
        · rw [(succeed_next ..).mp h]; exact .read _
  · exact .error _ (by simp)

theorem execSnapRelease_effect {s t : State} (h : execSnapRelease s = .next t) : Effect s t := by
  rcases onReader_next h with ⟨r, hp, h⟩ | ⟨-, rfl⟩
  · rw [(succeed_next ..).mp h]; exact .released r hp _
  · exact .error _ (by simp)

/-- Every next state a command gives is one of `Effect`'s. -/
theorem exec_effect {i : Instr} {s t : State} (h : exec i s = .next t) : Effect s t := by
  cases i with
  | nop => exact execNop_effect h
  | accPush len => exact execAccPush_effect h
  | accReset => exact execAccReset_effect h
  | analyze => exact execAnalyze_effect h
  | buttonEdge level => exact execButtonEdge_effect h
  | idleTick => exact execIdleTick_effect h
  | csrRead reg => exact execCsrRead_effect h
  | snapAcquire => exact execSnapAcquire_effect h
  | snapRead sel idx => exact execSnapRead_effect h
  | snapRelease => exact execSnapRelease_effect h

/-- What one step can do: nothing, a reset, or the effect of the next transaction. -/
theorem step_cases {s t : State} (h : step s = .next t) :
    buildValid s.build = true ∧
      ((s.inbox = [] ∧ t = s) ∨
        (∃ rest, s.inbox = .reset :: rest ∧ t = resetInput s rest) ∨
        (∃ q rest, s.inbox = .command q :: rest ∧ Effect (latch s q rest) t)) := by
  unfold step at h
  split at h
  · simp at h
  · rename_i hb
    refine ⟨by simpa using hb, ?_⟩
    split at h
    · exact .inl ⟨‹_›, by simpa [eq_comm] using h⟩
    · exact .inr (.inl ⟨_, ‹_›, by simpa [eq_comm] using h⟩)
    · refine .inr (.inr ⟨_, _, ‹_›, ?_⟩)
      unfold transact at h
      split at h
      · rw [(raiseStatus_next ..).mp h]; exact .error _ (by simp)
      · exact exec_effect h

/-! ## Prepared states -/

namespace Prepared

variable {s u : State}

theorem build (h : Prepared s u) : u.build = s.build := by cases h <;> simp
theorem fb (h : Prepared s u) : u.fb = s.fb := by cases h <;> simp
theorem cur (h : Prepared s u) : u.cur = s.cur := by cases h <;> simp
theorem snap (h : Prepared s u) : u.snap = s.snap := by cases h <;> simp
theorem pin (h : Prepared s u) : u.pin = s.pin := by cases h <;> simp
theorem inbox (h : Prepared s u) : u.inbox = s.inbox := by cases h <;> simp
theorem txn (h : Prepared s u) : u.txn = s.txn := by cases h <;> simp
theorem rsp (h : Prepared s u) : u.rsp = s.rsp := by cases h <;> simp
theorem draws (h : Prepared s u) : u.draws = s.draws := by cases h <;> simp

end Prepared

end Sys2Proof.Machine
end

