-- ==== Sys2Proof/Laws/Flags.lean ====
section
/-! SUPPORT. The status words as numbers: what each of their bits counts. -/

namespace Sys2Proof.Machine

open Sys2Proof.Config

theorem toNat_append_add {m n : Nat} (x : BitVec m) (y : BitVec n) :
    (x ++ y).toNat = x.toNat * 2 ^ n + y.toNat := by
  rw [BitVec.toNat_append, Nat.shiftLeft_eq, Nat.mul_comm, ← Nat.two_pow_add_eq_or_of_lt y.isLt]

theorem bit_toNat (b : Bool) : (bit b).toNat = if b = true then 1 else 0 := by cases b <;> rfl

theorem accPushData_eq (full : Bool) (take : Nat) (h : take < 2 ^ 16) :
    accPushData full take = BitVec.ofNat 32 (take + if full = true then 2 ^ 16 else 0) := by
  apply BitVec.eq_of_toNat_eq
  simp only [accPushData, toNat_append_add, bit_toNat, BitVec.toNat_ofNat]
  cases full <;> simp <;> omega

theorem analyzeData_eq (maxIndex : Nat) (skipped valid fired : Bool) :
    analyzeData maxIndex skipped valid fired =
      BitVec.ofNat 32 (maxIndex % 2 ^ 16 * 2 ^ 16 + (if skipped = true then 4 else 0) +
        (if valid = true then 2 else 0) + if fired = true then 1 else 0) := by
  apply BitVec.eq_of_toNat_eq
  simp only [analyzeData, toNat_append_add, bit_toNat, BitVec.toNat_ofNat]
  cases skipped <;> cases valid <;> cases fired <;> simp <;> omega

theorem buttonData_eq (skipped edge : Bool) (rec : RecState) :
    buttonData skipped edge rec =
      BitVec.ofNat 32 ((if rec = .recording then 1 else 0) + (if edge = true then 2 else 0) +
        if skipped = true then 4 else 0) := by
  cases skipped <;> cases edge <;> cases rec <;> decide

theorem idleTickData_eq (skipped : Bool) :
    idleTickData skipped = if skipped = true then 4#32 else 0#32 := by
  cases skipped <;> decide

theorem statusReg_eq (s : State) :
    statusReg s =
      BitVec.ofNat 32 ((if s.recState = .recording then 1 else 0) +
        (if s.accCount = s.build.frameBytes then 2 else 0) + (if s.btnLevel = true then 4 else 0) +
        if s.w.imp = none then 0 else 8) := by
  have hf : bufferFull s = decide (s.accCount = s.build.frameBytes) := rfl
  unfold statusReg
  rw [hf]
  cases s.w.imp <;> cases s.btnLevel <;> cases s.recState <;>
    by_cases h : s.accCount = s.build.frameBytes <;> simp [h, bit, recBit]

theorem geomReg_eq (b : Build) :
    geomReg b =
      BitVec.ofNat 32 (b.peakHalfWindow % 2 ^ 8 + b.peaksPerSide % 2 ^ 8 * 2 ^ 8 + 2 * 2 ^ 16 +
        (if b.buttonMode = .toggle then 2 ^ 24 else 0) +
        (if b.policy = .perFrame then 2 ^ 25 else 0) +
        if b.gateBusy = true then 2 ^ 26 else 0) := by
  apply BitVec.eq_of_toNat_eq
  simp only [geomReg, toNat_append_add, bit_toNat, BitVec.toNat_ofNat, numReaders]
  cases b.gateBusy <;> cases b.policy <;> cases b.buttonMode <;>
    simp [policyBit, buttonModeBit] <;> omega

end Sys2Proof.Machine
end

