-- ==== Sys2Proof/Laws/Peak.lean ====
section
/-! SUPPORT. What the scans of the peak detector and of the harmonic selector find, said once. -/

namespace Sys2Proof.Machine

open Sys2Proof.Config

/-- No magnitude of the spectrum is a NaN. -/
def NaNFree (mag : List F32) : Prop := ∀ k, f32IsNaN (elemAt mag k) = false

theorem nanFree_of_forall {mag : List F32} (h : ∀ x ∈ mag, f32IsNaN x = false) : NaNFree mag := by
  intro k
  unfold elemAt
  by_cases hk : k < mag.length
  · simpa [List.getD_eq_getElem?_getD, hk] using h _ (List.getElem_mem hk)
  · simp [List.getD_eq_getElem?_getD, Nat.not_lt.mp hk]
    decide

/-! ## The dominant bin -/

theorem elemAt_cons_zero (m : F32) (ms : List F32) : elemAt (m :: ms) 0 = m := by simp [elemAt]

theorem elemAt_cons_succ (m : F32) (ms : List F32) (j : Nat) :
    elemAt (m :: ms) (j + 1) = elemAt ms j := by simp [elemAt]

theorem qualifies_not_nan {b : Build} {k : Nat} {m : F32} (h : qualifies b k m = true) :
    f32IsNaN m = false := (not_nan_of_gt h).1

theorem scanDominant_cons (b : Build) (m : F32) (ms : List F32) (k : Nat)
    (best : Option (F32 × Nat)) :
    scanDominant b (m :: ms) k best = scanDominant b ms (k + 1) (scanStep b best (m, k)) := by
  simp only [scanDominant, List.zipIdx_cons, List.foldl_cons]

/-- One bin is taken, or left because it does not qualify or is not larger. -/
theorem scanStep_cases (b : Build) (best : Option (F32 × Nat)) (x : F32 × Nat) :
    (scanStep b best x = best ∧
      (qualifies b x.2 x.1 = true → ∃ y, best = some y ∧ f32Gt x.1 y.1 = false)) ∨
    (scanStep b best x = some x ∧ qualifies b x.2 x.1 = true ∧
      ∀ y, best = some y → f32Gt x.1 y.1 = true) := by
  unfold scanStep
  by_cases hq : qualifies b x.2 x.1 = true
  · rw [if_pos hq]
    cases best with
    | none => exact .inr ⟨rfl, hq, by simp⟩
    | some y =>
      by_cases hg : f32Gt x.1 y.1 = true
      · exact .inr ⟨if_pos hg, hq, fun z hz => by cases hz; exact hg⟩
      · exact .inl ⟨if_neg hg, fun _ => ⟨y, rfl, by simpa using hg⟩⟩
  · rw [if_neg hq]
    exact .inl ⟨rfl, fun h => absurd h hq⟩

/-- What the ascending scan of R151 finds from bin `k` up, given the best bin below `k`: nothing if no
bin qualifies, else a qualifying bin (or the given one) that no qualifying bin exceeds and that
exceeds every qualifying bin below it. -/
theorem scanDominant_spec (b : Build) (ms : List F32) (k : Nat) (best : Option (F32 × Nat))
    (hb : ∀ x, best = some x → x.2 < k ∧ f32IsNaN x.1 = false) :
    (scanDominant b ms k best = none →
      best = none ∧ ∀ j, j < ms.length → qualifies b (k + j) (elemAt ms j) = false) ∧
    ∀ r, scanDominant b ms k best = some r →
      (best = some r ∨
        (k ≤ r.2 ∧ r.2 - k < ms.length ∧ r.1 = elemAt ms (r.2 - k) ∧
          qualifies b r.2 r.1 = true)) ∧
      (∀ j, j < ms.length → qualifies b (k + j) (elemAt ms j) = true →
        f32Gt (elemAt ms j) r.1 = false ∧ (k + j < r.2 → f32Gt r.1 (elemAt ms j) = true)) ∧
      (∀ x, best = some x → x = r ∨ (x.2 < r.2 ∧ f32Gt r.1 x.1 = true)) := by
  induction ms generalizing k best with
  | nil =>
    refine ⟨fun h => ⟨h, fun j hj => absurd hj (Nat.not_lt_zero j)⟩, fun r hr => ?_⟩
    have hr : best = some r := hr
    exact ⟨.inl hr, fun j hj => absurd hj (Nat.not_lt_zero j),
      fun x hx => .inl (by rw [hr] at hx; exact (Option.some.inj hx).symm)⟩
  | cons m ms ih =>
    have shift : ∀ j, k + 1 + j = k + (j + 1) := fun j => by omega
    have tail : ∀ j, elemAt (m :: ms) (j + 1) = elemAt ms j := elemAt_cons_succ m ms
    have head : elemAt (m :: ms) 0 = m := elemAt_cons_zero m ms
    rw [scanDominant_cons]
    have hnext := scanStep_cases b best (m, k)
    generalize scanStep b best (m, k) = next at hnext ⊢
    have hb' : ∀ x, next = some x → x.2 < k + 1 ∧ f32IsNaN x.1 = false := by
      intro x hx
      rcases hnext with ⟨rfl, -⟩ | ⟨rfl, hq, -⟩
      · have := hb x hx; exact ⟨by omega, this.2⟩
      · cases hx; exact ⟨Nat.lt_succ_self k, qualifies_not_nan hq⟩
    obtain ⟨keyNone, keySome⟩ := ih (k + 1) next hb'
    refine ⟨fun hres => ?_, fun r hres => ?_⟩
    · obtain ⟨hn, hall⟩ := keyNone hres
      rcases hnext with ⟨rfl, hq⟩ | ⟨rfl, -, -⟩
      · refine ⟨hn, fun j hj => ?_⟩
        cases j with
        | zero =>
          rw [head, Nat.add_zero]
          by_contra hc
          obtain ⟨x, hx, -⟩ := hq (by simpa using hc)
          rw [hn] at hx
          cases hx
        | succ j =>
          rw [tail, ← shift]
          exact hall j (by rw [List.length_cons] at hj; omega)
      · cases hn
    · obtain ⟨hfrom, hmax, hbest⟩ := keySome r hres
      have hm : qualifies b k m = true → f32Gt m r.1 = false ∧ (k < r.2 → f32Gt r.1 m = true) := by
        intro hq
        rcases hnext with ⟨rfl, hle⟩ | ⟨rfl, -, -⟩
        · obtain ⟨x, hx, hmx⟩ := hle hq
          rcases hbest x hx with rfl | ⟨-, hgt⟩
          · exact ⟨hmx, fun h => by have := (hb _ hx).1; omega⟩
          · have hfalse : f32Gt m r.1 = false := by
              by_contra hc
              have := f32Gt_trans (by simpa using hc) hgt
              rw [hmx] at this
              cases this
            refine ⟨hfalse, fun _ => ?_⟩
            by_contra hc
            have := f32Gt_false_trans (qualifies_not_nan hq) (by simpa using hc) hmx
            rw [hgt] at this
            cases this
        · rcases hbest _ rfl with h | ⟨-, hgt⟩
          · rw [← h]
            exact ⟨f32Gt_irrefl _, fun h => absurd h (lt_irrefl _)⟩
          · refine ⟨?_, fun _ => hgt⟩
            by_contra hc
            have := f32Gt_trans (by simpa using hc) hgt
            rw [f32Gt_irrefl] at this
            cases this
      refine ⟨?_, fun j hj hq => ?_, fun x hx => ?_⟩
      · rcases hfrom with h | ⟨h1, h2, h3, h4⟩
        · rcases hnext with ⟨rfl, -⟩ | ⟨rfl, hq, -⟩
          · exact .inl h
          · rw [← Option.some.inj h]
            refine .inr ⟨le_refl _, ?_, ?_, hq⟩
            · rw [List.length_cons]; omega
            · rw [Nat.sub_self, head]
        · refine .inr ⟨by omega, by rw [List.length_cons]; omega, ?_, h4⟩
          rw [h3, show r.2 - k = (r.2 - (k + 1)) + 1 by omega, tail]
      · cases j with
        | zero =>
          rw [head, Nat.add_zero] at *
          exact hm hq
        | succ j =>
          rw [tail, ← shift] at *
          exact hmax j (by rw [List.length_cons] at hj; omega) hq
      · rcases hnext with ⟨rfl, -⟩ | ⟨rfl, -, hgt⟩
        · exact hbest x hx
        · rcases hbest _ rfl with h | ⟨h1, h2⟩
          · rw [← h]
            exact .inr ⟨(hb x hx).1, hgt x hx⟩
          · exact .inr ⟨lt_trans (hb x hx).1 h1, f32Gt_trans h2 (hgt x hx)⟩

/-! ## `ARGMAX` -/

theorem argmaxFold_spec (mag : List F32) (ex l : List Nat) (best : Option Nat) :
    (∀ c, l.foldl (argmaxStep mag ex) best = some c → best = some c ∨ (c ∈ l ∧ c ∉ ex)) ∧
    (NaNFree mag → ∀ c, l.foldl (argmaxStep mag ex) best = some c →
      (∀ k ∈ l, k ∉ ex → f32Gt (elemAt mag k) (elemAt mag c) = false) ∧
      ∀ i, best = some i → f32Gt (elemAt mag i) (elemAt mag c) = false) ∧
    (l.foldl (argmaxStep mag ex) best = none → best = none ∧ ∀ k ∈ l, k ∈ ex) := by
  induction l generalizing best with
  | nil =>
    refine ⟨fun c h => .inl h, fun _ c h => ⟨by simp, fun i hi => ?_⟩, fun h => ⟨h, by simp⟩⟩
    simp only [List.foldl_nil] at h
    rw [h] at hi
    cases hi
    exact f32Gt_irrefl _
  | cons k l ih =>
    obtain ⟨h1, h2, h3⟩ := ih (argmaxStep mag ex best k)
    have hstep : (k ∈ ex ∧ argmaxStep mag ex best k = best) ∨
        (k ∉ ex ∧ argmaxStep mag ex best k = some k ∧
          ∀ i, best = some i → f32Gt (elemAt mag k) (elemAt mag i) = true) ∨
        (k ∉ ex ∧ ∃ i, best = some i ∧ argmaxStep mag ex best k = some i ∧
          f32Gt (elemAt mag k) (elemAt mag i) = false) := by
      unfold argmaxStep
      by_cases hk : k ∈ ex
      · exact .inl ⟨hk, by simp [hk]⟩
      · cases best with
        | none => exact .inr (.inl ⟨hk, by simp [hk], by simp⟩)
        | some i =>
          by_cases hg : f32Gt (elemAt mag k) (elemAt mag i) = true
          · exact .inr (.inl ⟨hk, by simp [hk, hg], by simpa using hg⟩)
          · exact .inr (.inr ⟨hk, i, rfl, by simp [hk, hg], by simpa using hg⟩)
    rw [List.foldl_cons]
    refine ⟨fun c hc => ?_, fun hn c hc => ?_, fun hc => ?_⟩
    · rcases h1 c hc with h | ⟨h, h'⟩
      · rcases hstep with ⟨-, e⟩ | ⟨hk, e, -⟩ | ⟨-, i, hi, e, -⟩
        · exact .inl (e ▸ h)
        · rw [e] at h; cases h; exact .inr ⟨by simp, hk⟩
        · exact .inl (by rw [hi, ← e]; exact h)
      · exact .inr ⟨by simp [h], h'⟩
    · obtain ⟨g1, g2⟩ := h2 hn c hc
      rcases hstep with ⟨hk, e⟩ | ⟨hk, e, hgt⟩ | ⟨hk, i, hi, e, hle⟩
      · refine ⟨fun x hx hxe => ?_, fun i hi => g2 i (e.trans hi)⟩
        rcases List.mem_cons.mp hx with rfl | hx
        · exact absurd hk hxe
        · exact g1 x hx hxe
      · refine ⟨fun x hx hxe => ?_, fun i hi => ?_⟩
        · rcases List.mem_cons.mp hx with rfl | hx
          · exact g2 _ e
          · exact g1 x hx hxe
        · by_contra hcon
          have hik := hgt i hi
          have := f32Gt_trans hik (by simpa using hcon)
          rw [g2 k e] at this
          cases this
      · refine ⟨fun x hx hxe => ?_, fun j hj => ?_⟩
        · rcases List.mem_cons.mp hx with rfl | hx
          · exact f32Gt_false_trans (hn i) hle (g2 i e)
          · exact g1 x hx hxe
        · rw [hi] at hj; cases hj; exact g2 i e
    · obtain ⟨hnone, hall⟩ := h3 hc
      rcases hstep with ⟨hk, e⟩ | ⟨hk, e, -⟩ | ⟨hk, i, hi, e, -⟩
      · exact ⟨e ▸ hnone, by simpa [hk] using hall⟩
      · rw [e] at hnone; cases hnone
      · rw [e] at hnone; cases hnone

/-- Over an ascending span the lowest index wins ties: every bin before the found one is smaller. -/
theorem argmaxFold_first (mag : List F32) (ex l : List Nat) (best : Option Nat) (hn : NaNFree mag)
    (hl : l.Pairwise (· < ·)) (hb : ∀ i, best = some i → ∀ k ∈ l, i < k) :
    ∀ c, l.foldl (argmaxStep mag ex) best = some c →
      (∀ k ∈ l, k ∉ ex → k < c → f32Gt (elemAt mag c) (elemAt mag k) = true) ∧
      ∀ i, best = some i → i = c ∨ (i < c ∧ f32Gt (elemAt mag c) (elemAt mag i) = true) := by
  induction l generalizing best with
  | nil =>
    intro c hc
    have hc : best = some c := hc
    exact ⟨by simp, fun i hi => .inl (Option.some.inj (hi.symm.trans hc))⟩
  | cons k l ih =>
    intro c hc
    rw [List.foldl_cons] at hc
    obtain ⟨hk, hl⟩ := List.pairwise_cons.mp hl
    have hbl : ∀ i, best = some i → ∀ x ∈ l, i < x := fun i hi x hx =>
      hb i hi x (List.mem_cons_of_mem _ hx)
    have heads : ∀ P : Nat → Prop, P k → (∀ x ∈ l, P x) → ∀ x ∈ k :: l, P x := by
      intro P h0 h1 x hx
      rcases List.mem_cons.mp hx with rfl | hx
      · exact h0
      · exact h1 x hx
    by_cases hke : k ∈ ex
    · have e : argmaxStep mag ex best k = best := by simp [argmaxStep, hke]
      rw [e] at hc
      obtain ⟨h1, h2⟩ := ih best hl hbl c hc
      exact ⟨heads _ (fun h => absurd hke h) h1, h2⟩
    · cases hbest : best with
      | none =>
        have e : argmaxStep mag ex best k = some k := by simp [argmaxStep, hke, hbest]
        rw [e] at hc
        obtain ⟨h1, h2⟩ := ih (some k) hl (by rintro i hi; cases hi; exact hk) c hc
        refine ⟨heads _ (fun _ hlt => ?_) h1, by simp⟩
        rcases h2 k rfl with rfl | h
        · exact absurd hlt (lt_irrefl _)
        · exact h.2
      | some i =>
        have hik : i < k := hb i hbest k (by simp)
        by_cases hg : f32Gt (elemAt mag k) (elemAt mag i) = true
        · have e : argmaxStep mag ex best k = some k := by simp [argmaxStep, hke, hbest, hg]
          rw [e] at hc
          obtain ⟨h1, h2⟩ := ih (some k) hl (by rintro j hj; cases hj; exact hk) c hc
          refine ⟨heads _ (fun _ hlt => ?_) h1, fun j hj => ?_⟩
          · rcases h2 k rfl with rfl | h
            · exact absurd hlt (lt_irrefl _)
            · exact h.2
          · cases hj
            rcases h2 k rfl with rfl | h
            · exact .inr ⟨hik, hg⟩
            · exact .inr ⟨by omega, f32Gt_trans h.2 hg⟩
        · have hg : f32Gt (elemAt mag k) (elemAt mag i) = false := by simpa using hg
          have e : argmaxStep mag ex best k = some i := by simp [argmaxStep, hke, hbest, hg]
          rw [e] at hc
          obtain ⟨h1, h2⟩ := ih (some i) hl (by rintro j hj; cases hj; exact hbl i hbest) c hc
          refine ⟨heads _ (fun _ hlt => ?_) h1, h2⟩
          rcases h2 i rfl with rfl | h
          · omega
          · by_contra hcon
            have := f32Gt_false_trans (hn k) (by simpa using hcon) hg
            rw [h.2] at this
            cases this

theorem mem_span (lo hi k : Nat) : k ∈ List.range' lo (hi - lo) ↔ lo ≤ k ∧ k < hi := by
  rw [List.mem_range'_1]
  omega

/-- What one round picks: a bin of the span that is not excluded and has a positive magnitude, which
(without NaN) no other such bin exceeds and every such bin before it is smaller than; and (without NaN) it picks none only where none is
positive. -/
theorem pick_spec (mag : List F32) (lo hi : Nat) (ex : List Nat) :
    (∀ c, pick mag lo hi ex = some c →
      lo ≤ c ∧ c < hi ∧ c ∉ ex ∧ f32Gt (elemAt mag c) 0#32 = true) ∧
    (NaNFree mag → ∀ c, pick mag lo hi ex = some c →
      ∀ k, lo ≤ k → k < hi → k ∉ ex → f32Gt (elemAt mag k) (elemAt mag c) = false ∧
        (k < c → f32Gt (elemAt mag c) (elemAt mag k) = true)) ∧
    (NaNFree mag → pick mag lo hi ex = none →
      ∀ k, lo ≤ k → k < hi → k ∉ ex → f32Gt (elemAt mag k) 0#32 = false) := by
  obtain ⟨h1, h2, h3⟩ := argmaxFold_spec mag ex (List.range' lo (hi - lo)) none
  change (∀ c, argmax mag lo hi ex = some c → _) at h1
  change (_ → ∀ c, argmax mag lo hi ex = some c → _) at h2
  change (argmax mag lo hi ex = none → _) at h3
  unfold pick
  cases ha : argmax mag lo hi ex with
  | none =>
    refine ⟨by simp, by simp, fun _ _ k hk hk' hke => ?_⟩
    exact absurd ((h3 ha).2 k ((mem_span ..).2 ⟨hk, hk'⟩)) hke
  | some c =>
    obtain h | ⟨hc, hce⟩ := h1 c ha
    · cases h
    · obtain ⟨hlo, hhi⟩ := (mem_span ..).1 hc
      by_cases hp : f32Gt (elemAt mag c) 0#32 = true
      · simp only [hp, if_true]
        refine ⟨fun x hx => ?_, fun hn x hx k hk hk' hke => ?_, by simp⟩
        · cases hx; exact ⟨hlo, hhi, hce, hp⟩
        · cases hx
          have hm := (mem_span ..).2 ⟨hk, hk'⟩
          exact ⟨(h2 hn c ha).1 k hm hke,
            (argmaxFold_first mag ex _ none hn (List.pairwise_lt_range' ..) (by simp) c ha).1 k hm hke⟩
      · simp only [hp]
        refine ⟨by simp, by simp, fun hn _ k hk hk' hke => ?_⟩
        exact f32Gt_false_trans (hn c) ((h2 hn c ha).1 k ((mem_span ..).2 ⟨hk, hk'⟩) hke)
          (by simpa using hp)

/-! ## The rounds -/

/-- The rounds below the dominant bin add at most one bin each, all of them from the window and
positive; without NaN a bin left out is not above one that was added and is smaller than an added one
after it, and if it is positive, every round added one. -/
theorem picksBelow_spec (mag : List F32) (lo d rounds : Nat) (sel : List Nat) (hs : sel.Nodup) :
    ∃ new : List Nat, picksBelow mag lo d rounds sel = new ++ sel ∧ (new ++ sel).Nodup ∧
      new.length ≤ rounds ∧
      (∀ c ∈ new, lo ≤ c ∧ c < d ∧ f32Gt (elemAt mag c) 0#32 = true) ∧
      (NaNFree mag → ∀ k, lo ≤ k → k < d → k ∉ new ++ sel →
        (∀ c ∈ new, f32Gt (elemAt mag k) (elemAt mag c) = false ∧
          (k < c → f32Gt (elemAt mag c) (elemAt mag k) = true)) ∧
        (f32Gt (elemAt mag k) 0#32 = true → new.length = rounds)) := by
  induction rounds generalizing sel with
  | zero => exact ⟨[], rfl, hs, by simp, by simp, fun _ k _ _ _ => ⟨by simp, fun _ => rfl⟩⟩
  | succ n ih =>
    obtain ⟨p1, p2, p3⟩ := pick_spec mag lo d sel
    cases hp : pick mag lo d sel with
    | none =>
      obtain ⟨new, e, hnd, hlen, hall, hmax⟩ := ih sel hs
      refine ⟨new, by simp [picksBelow, hp, e], hnd, by omega, hall, fun hn k hk hk' hks => ?_⟩
      refine ⟨(hmax hn k hk hk' hks).1, fun hpos => ?_⟩
      have := p3 hn hp k hk hk' (fun h => hks (by simp [h]))
      rw [hpos] at this
      cases this
    | some c =>
      obtain ⟨c1, c2, c3, c4⟩ := p1 c hp
      obtain ⟨new, e, hnd, hlen, hall, hmax⟩ := ih (c :: sel) (by simp [c3, hs])
      refine ⟨new ++ [c], by simp [picksBelow, hp, e], by simpa using hnd, by simpa using hlen, ?_, ?_⟩
      · intro x hx
        rcases List.mem_append.mp hx with hx | hx
        · exact hall x hx
        · rw [List.mem_singleton] at hx; subst hx; exact ⟨c1, c2, c4⟩
      · intro hn k hk hk' hks
        have hks' : k ∉ new ++ c :: sel := by simpa using hks
        obtain ⟨m1, m2⟩ := hmax hn k hk hk' hks'
        refine ⟨fun x hx => ?_, fun hpos => by simpa using m2 hpos⟩
        rcases List.mem_append.mp hx with hx | hx
        · exact m1 x hx
        · rw [List.mem_singleton] at hx; subst hx
          exact p2 hn _ hp k hk hk' (fun h => hks (by simp [h]))

/-- The rounds above the last pick add at most one bin each, all of them above it, up to `top`, and
positive; without NaN none of them is exceeded by a bin to its right or reached by a bin between the
pick before it and it, and where a round added none, no bin right of the last one is positive. -/
theorem picksAbove_spec (mag : List F32) (top rounds last : Nat) (sel : List Nat) (hs : sel.Nodup)
    (hl : ∀ k ∈ sel, k ≤ last) :
    ∃ new : List Nat, picksAbove mag top rounds last sel = new ++ sel ∧ (new ++ sel).Nodup ∧
      new.length ≤ rounds ∧
      (∀ c ∈ new, last < c ∧ c ≤ top ∧ f32Gt (elemAt mag c) 0#32 = true) ∧
      (NaNFree mag →
        (∀ c ∈ new,
          (∀ k, c < k → k ≤ top → f32Gt (elemAt mag k) (elemAt mag c) = false) ∧
          ∀ k, last < k → k < c → (∀ q ∈ new, q < c → q < k) →
            f32Gt (elemAt mag c) (elemAt mag k) = true) ∧
        (new.length < rounds → ∀ k, last < k → k ≤ top → (∀ q ∈ new, q < k) →
          f32Gt (elemAt mag k) 0#32 = false)) := by
  induction rounds generalizing last sel with
  | zero => exact ⟨[], rfl, hs, by simp, by simp, by simp⟩
  | succ n ih =>
    obtain ⟨p1, p2, p3⟩ := pick_spec mag (last + 1) (top + 1) []
    cases hp : pick mag (last + 1) (top + 1) [] with
    | none =>
      obtain ⟨new, e, hnd, hlen, hall, hmax⟩ := ih last sel hs hl
      refine ⟨new, by simp [picksAbove, hp, e], hnd, by omega, hall, fun hn => ?_⟩
      exact ⟨(hmax hn).1, fun _ k hk hk' _ => p3 hn hp k (by omega) (by omega) (by simp)⟩
    | some c =>
      obtain ⟨c1, c2, -, c4⟩ := p1 c hp
      have hc : c ∉ sel := fun h => by have := hl c h; omega
      obtain ⟨new, e, hnd, hlen, hall, hmax⟩ := ih c (c :: sel) (by simp [hc, hs]) (by
        intro k hk
        rcases List.mem_cons.mp hk with rfl | hk
        · exact le_refl _
        · have := hl k hk; omega)
      refine ⟨new ++ [c], by simp [picksAbove, hp, e], by simpa using hnd, by simpa using hlen, ?_, ?_⟩
      · intro x hx
        rcases List.mem_append.mp hx with hx | hx
        · have := hall x hx; exact ⟨by omega, this.2⟩
        · rw [List.mem_singleton] at hx; subst hx; exact ⟨by omega, by omega, c4⟩
      · intro hn
        refine ⟨fun x hx => ?_, fun hshort k hk hk' hq => ?_⟩
        · rcases List.mem_append.mp hx with hx | hx
          · obtain ⟨right, left⟩ := (hmax hn).1 x hx
            refine ⟨right, fun k hk hkx hq => left k (hq c (by simp) (hall x hx).1) hkx ?_⟩
            exact fun q hqn => hq q (by simp [hqn])
          · rw [List.mem_singleton] at hx; subst hx
            exact ⟨fun k hk hk' => (p2 hn _ hp k (by omega) (by omega) (by simp)).1,
              fun k hk hkx _ => (p2 hn _ hp k (by omega) (by omega) (by simp)).2 hkx⟩
        · rw [List.length_append, List.length_singleton] at hshort
          exact (hmax hn).2 (by omega) k (hq c (by simp)) hk' fun q hqn => hq q (by simp [hqn])

/-- The selected bins: the dominant bin, the picks below it and the picks above it. -/
theorem selectedBins_spec (b : Build) (mag : List F32) (d : Nat) :
    ∃ above below : List Nat, selectedBins b mag d = above ++ (below ++ [d]) ∧
      (above ++ (below ++ [d])).Nodup ∧ above.length ≤ b.peaksPerSide ∧
      below.length ≤ b.peaksPerSide ∧
      (∀ c ∈ below, d - b.peakHalfWindow ≤ c ∧ c < d ∧ f32Gt (elemAt mag c) 0#32 = true) ∧
      (∀ c ∈ above, d < c ∧ c ≤ min (b.nbins - 1) (d + b.peakHalfWindow) ∧
        f32Gt (elemAt mag c) 0#32 = true) ∧
      (NaNFree mag → ∀ k, d - b.peakHalfWindow ≤ k → k < d → k ∉ below →
        (∀ c ∈ below, f32Gt (elemAt mag k) (elemAt mag c) = false ∧
          (k < c → f32Gt (elemAt mag c) (elemAt mag k) = true)) ∧
        (f32Gt (elemAt mag k) 0#32 = true → below.length = b.peaksPerSide)) ∧
      (NaNFree mag →
        (∀ c ∈ above,
          (∀ k, c < k → k ≤ min (b.nbins - 1) (d + b.peakHalfWindow) →
            f32Gt (elemAt mag k) (elemAt mag c) = false) ∧
          ∀ k, d < k → k < c → (∀ q ∈ above, q < c → q < k) →
            f32Gt (elemAt mag c) (elemAt mag k) = true) ∧
        (above.length < b.peaksPerSide → ∀ k, d < k →
          k ≤ min (b.nbins - 1) (d + b.peakHalfWindow) → (∀ q ∈ above, q < k) →
          f32Gt (elemAt mag k) 0#32 = false)) := by
  obtain ⟨below, e, hnd, hlen, hall, hmax⟩ :=
    picksBelow_spec mag (d - b.peakHalfWindow) d b.peaksPerSide [d] (by simp)
  obtain ⟨above, e', hnd', hlen', hall', hmax'⟩ :=
    picksAbove_spec mag (min (b.nbins - 1) (d + b.peakHalfWindow)) b.peaksPerSide d (below ++ [d]) hnd
      (by
        intro k hk
        rcases List.mem_append.mp hk with hk | hk
        · have := hall k hk; omega
        · rw [List.mem_singleton] at hk; omega)
  refine ⟨above, below, by rw [selectedBins, e, e'], hnd', hlen', hlen, hall, hall', ?_, hmax'⟩
  intro hn k hk hk' hkb
  exact hmax hn k hk hk' (by simp [hkb]; omega)

theorem mem_findPeaks (b : Build) (mag : List F32) (d : Nat) (x : PeakData) :
    x ∈ findPeaks b mag d ↔
      ∃ k, k < b.nbins ∧ k ∈ selectedBins b mag d ∧ x = peakOf b mag k := by
  simp only [findPeaks, List.mem_map, List.mem_filter, List.mem_range, List.contains_iff_mem]
  constructor
  · rintro ⟨k, ⟨h1, h2⟩, rfl⟩; exact ⟨k, h1, h2, rfl⟩
  · rintro ⟨k, h1, h2, rfl⟩; exact ⟨k, ⟨h1, h2⟩, rfl⟩

/-- The indices of the list: the selected bins of the spectrum in ascending order. -/
theorem findPeaks_idx (b : Build) (mag : List F32) (d : Nat) :
    (findPeaks b mag d).map (·.idx) =
      (List.range b.nbins).filter (selectedBins b mag d).contains := by
  simp only [findPeaks, List.map_map]
  exact List.map_id _

theorem findPeaks_ascending (b : Build) (mag : List F32) (d : Nat) :
    (findPeaks b mag d).Pairwise fun x y => x.idx < y.idx := by
  have h : ((findPeaks b mag d).map (·.idx)).Pairwise (· < ·) := by
    rw [findPeaks_idx]
    exact List.pairwise_lt_range.filter _
  exact List.pairwise_map.mp h

end Sys2Proof.Machine
end

