-- ==== Sys2Proof/Laws/Frame.lean ====
section
/-! SUPPORT. What the stages of `ANALYZE` give: the length of the spectrum, the reads of the frame, the
peak of the detector and the two outcomes of the transient detector. -/

namespace Sys2Proof.Machine

open Sys2Proof.Config

/-! ## The spectrum -/

theorem magnitudesOf_length (b : Build) (z : List C32) : (magnitudesOf b z).length = b.nbins := by
  rw [magnitudesOf, List.length_map, List.length_range]

theorem spectrumOf_length (b : Build) (fb : List Host.Cell) : (spectrumOf b fb).length = b.nbins :=
  magnitudesOf_length _ _

theorem frameSpectrum_length (s : State) : (frameSpectrum s).length = s.build.nbins :=
  spectrumOf_length _ _

theorem memRead_congr {f g : List Host.Cell} (a n : Nat)
    (h : ∀ x, a ≤ x → x < a + n → fbRead f x = fbRead g x) : memRead f a n = memRead g a n := by
  induction n generalizing a with
  | zero => rfl
  | succ n ih =>
    rw [memRead, memRead, h a (by omega) (by omega),
      ih (a + 1) fun x h₁ h₂ => h x (by omega) (by omega)]

/-- The spectrum depends on the bytes of the frame alone. -/
theorem spectrumOf_congr (b : Build) {f g : List Host.Cell}
    (h : ∀ x, x < b.frameBytes → fbRead f x = fbRead g x) : spectrumOf b f = spectrumOf b g := by
  have e : complexFrame b f = complexFrame b g := by
    unfold complexFrame
    apply List.map_congr_left
    intro n hn
    rw [List.mem_range] at hn
    rw [windowed, windowed, sampleAt, sampleAt,
      memRead_congr (4 * n) 4 fun x _ h₂ => h x (by unfold Build.frameBytes; omega)]
  rw [spectrumOf, spectrumOf, e]

/-! ## The peak -/

theorem detectPeak_of_some {b : Build} {mag : List F32} {i : Nat} (h : dominantBin b mag = some i) :
    detectPeak b mag = ⟨true, i, refine b mag i⟩ := by rw [detectPeak, h]

theorem detectPeak_of_none {b : Build} {mag : List F32} (h : dominantBin b mag = none) :
    detectPeak b mag = ⟨false, 0, 0#32⟩ := by rw [detectPeak, h]

/-! ## The transient detector -/

@[simp] theorem impulseEvent_ts (b : Build) (mag : List F32) (peak : Peak) (time : DWord) :
    (impulseEvent b mag peak time).ts = time := rfl
@[simp] theorem impulseEvent_freq (b : Build) (mag : List F32) (peak : Peak) (time : DWord) :
    (impulseEvent b mag peak time).freq = peak.dom := rfl
@[simp] theorem impulseEvent_peaks (b : Build) (mag : List F32) (peak : Peak) (time : DWord) :
    (impulseEvent b mag peak time).peaks = findPeaks b mag peak.maxIndex := by
  simp only [impulseEvent]
@[simp] theorem impulseEvent_label (b : Build) (mag : List F32) (peak : Peak) (time : DWord) :
    (impulseEvent b mag peak time).label = classify b.classes peak.dom := by
  simp only [impulseEvent]

theorem impulseStep_fired {b : Build} {prevSum : F32} {last time : DWord} {mag : List F32}
    {peak : Peak} (h : fires b (energy mag) prevSum time last peak.dom = true) :
    impulseStep b prevSum last mag peak time =
      ⟨some (impulseEvent b mag peak time), energy mag, time⟩ := by
  rw [impulseStep, if_pos h]

theorem impulseStep_quiet {b : Build} {prevSum : F32} {last time : DWord} {mag : List F32}
    {peak : Peak} (h : ¬ fires b (energy mag) prevSum time last peak.dom = true) :
    impulseStep b prevSum last mag peak time = ⟨none, energy mag, last⟩ := by
  rw [impulseStep, if_neg h]

end Sys2Proof.Machine
end

