-- ==== Sys2Proof/Laws/PerInstr.lean ====
section
/-! SUPPORT. Statements about every command as syntax, one lemma per constructor. -/

namespace Sys2Proof.Laws.FieldLayout

/-- The opcode of each command in the opcode map (30_encoding.md R95). -/
def opcodeOf : Instr → BitVec 8
  | .nop => 0x00#8
  | .accPush _ => 0x01#8
  | .accReset => 0x02#8
  | .analyze => 0x03#8
  | .buttonEdge _ => 0x04#8
  | .idleTick => 0x05#8
  | .csrRead _ => 0x06#8
  | .snapAcquire => 0x10#8
  | .snapRead _ _ => 0x11#8
  | .snapRelease => 0x12#8

/-- The command word of `i` has the opcode of R95 in bits 7..0 and `RSV = 0` in bits 15..12. -/
def Statement (i : Instr) : Prop := fieldOpc (encode i) = opcodeOf i ∧ fieldRsv (encode i) = 0#4

theorem nop : Statement .nop := ⟨fieldOpc_packC32 .., fieldRsv_packC32 ..⟩
theorem accPush (len : Half) : Statement (.accPush len) :=
  ⟨fieldOpc_packC32 .., fieldRsv_packC32 ..⟩
theorem accReset : Statement .accReset := ⟨fieldOpc_packC32 .., fieldRsv_packC32 ..⟩
theorem analyze : Statement .analyze := ⟨fieldOpc_packC32 .., fieldRsv_packC32 ..⟩
theorem buttonEdge (level : Bool) : Statement (.buttonEdge level) :=
  ⟨fieldOpc_packC32 .., fieldRsv_packC32 ..⟩
theorem idleTick : Statement .idleTick := ⟨fieldOpc_packC32 .., fieldRsv_packC32 ..⟩
theorem csrRead (reg : Half) : Statement (.csrRead reg) :=
  ⟨fieldOpc_packC32 .., fieldRsv_packC32 ..⟩
theorem snapAcquire : Statement .snapAcquire := ⟨fieldOpc_packC32 .., fieldRsv_packC32 ..⟩
theorem snapRead (sel : Selector) (idx : Half) : Statement (.snapRead sel idx) :=
  ⟨fieldOpc_packC32 .., fieldRsv_packC32 ..⟩
theorem snapRelease : Statement .snapRelease := ⟨fieldOpc_packC32 .., fieldRsv_packC32 ..⟩

end Sys2Proof.Laws.FieldLayout
end

