-- ==== Sys2Proof/Laws/Reset.lean ====
section
/-! SUPPORT. The derived constants of 00_scope.md R8, and the state right after reset. -/

namespace Sys2Proof.Machine

open Sys2Proof.Config

/-! ## Constants that R8 derives from others -/

theorem buildT1_frameBytes : buildT1.frameBytes = 8192 := rfl
theorem buildT1_nbins : buildT1.nbins = 1024 := rfl
theorem buildT1_maxPeaks : buildT1.maxPeaks = 11 := rfl
theorem buildT1_binWidth :
    buildT1.binWidth = f32Div (f32OfNat buildT1.sampleRate) (f32OfNat buildT1.fftLength) := by
  decide +kernel

/-- The conditions of R9 and R10 as they stand there. -/
theorem geometryValid_iff (b : Build) :
    geometryValid b = true ↔
      (∃ k, b.fftLength = 2 ^ k) ∧ 4 ≤ b.fftLength ∧ 0 < b.sampleRate ∧
        f32IsFinite b.binWidth = true ∧
        f32Val b.binWidth * b.fftLength = b.sampleRate * 2 ^ 149 := by
  have h : 2 ^ Nat.log2 b.fftLength = b.fftLength ↔ ∃ k, b.fftLength = 2 ^ k :=
    ⟨fun h => ⟨_, h.symm⟩, fun ⟨k, hk⟩ => by rw [hk, Nat.log2_two_pow]⟩
  simp only [geometryValid, Bool.and_eq_true, decide_eq_true_eq, beq_iff_eq, h, and_assoc]

/-- A valid build has a bin. -/
theorem nbins_pos_of_valid {b : Build} (h : buildValid b = true) : 0 < b.nbins := by
  simp only [buildValid, Bool.and_eq_true, geometryValid_iff] at h
  have : 4 ≤ b.fftLength := h.2.2.1
  unfold Build.nbins
  omega

/-! ## Reset -/

theorem reset_fb_wf : fbWf State.reset.build.frameBytes State.reset.fb = true := by decide

theorem reset_buildValid : buildValid State.reset.build = true := by decide +kernel

theorem resetInput_eq (s : State) (rest : List Input) :
    resetInput s rest = { resetOf s.build with inbox := rest, draws := s.draws } := rfl

end Sys2Proof.Machine
end

