-- ==== Sys2Proof/Laws/Rounding.lean ====
section
/-! SUPPORT. Correct rounding over the reals: what `f32Round` and `f32SqrtRound` give, said once in the
terms of `roundsTo`. -/

namespace Sys2Proof.Machine

/-! ## Overflow -/

theorem magUnits_inf : magUnits f32InfMag = 2 ^ 277 := by decide +kernel

theorem magUnits_max : magUnits (f32InfMag - 1) = 2 ^ 277 - 2 ^ 253 := by decide +kernel

theorem magUnits_lt_inf {j : Nat} (h : j < f32InfMag) : magUnits j ≤ 2 ^ 277 - 2 ^ 253 := by
  rw [← magUnits_max]
  exact magUnits_strictMono.monotone (by omega)

/-- Rounding overflows from the midpoint above the largest finite value on. -/
theorem inf_le_roundRaw_iff (num den : Nat) (hd : 0 < den) :
    f32InfMag ≤ roundRaw num den ↔ (2 ^ 277 - 2 ^ 252) * den ≤ num := by
  have hodd : (f32InfMag - 1) % 2 = 1 := by decide
  obtain ⟨e1, -⟩ := roundRaw_nearest num den (f32InfMag - 1) hd
  obtain ⟨e2, tie⟩ := roundRaw_nearest num den f32InfMag hd
  rw [roundErr_eq, roundErr_eq] at e1 e2 tie
  rw [magUnits_max] at e1
  rw [magUnits_inf] at e2 tie
  constructor
  · intro h
    have hU : 2 ^ 277 * den ≤ magUnits (roundRaw num den) * den := by
      rw [← magUnits_inf]
      exact Nat.mul_le_mul_right _ (magUnits_strictMono.monotone h)
    by_contra hlt
    generalize magUnits (roundRaw num den) * den = u at *
    omega
  · intro h
    by_contra hlt
    have hlt : roundRaw num den < f32InfMag := by omega
    have hU : magUnits (roundRaw num den) * den ≤ (2 ^ 277 - 2 ^ 253) * den :=
      Nat.mul_le_mul_right _ (magUnits_lt_inf hlt)
    have hne : f32InfMag ≠ roundRaw num den := by omega
    have heq : magUnits (roundRaw num den) * den = (2 ^ 277 - 2 ^ 253) * den ∧
        (((magUnits (roundRaw num den) * den : Nat) : Int) - num).natAbs =
          (((2 ^ 277 * den : Nat) : Int) - num).natAbs := by
      clear tie e1
      generalize magUnits (roundRaw num den) * den = u at *
      omega
    have heven := tie heq.2 hne
    have : roundRaw num den = f32InfMag - 1 := by
      apply magUnits_strictMono.injective
      rw [magUnits_max]
      exact Nat.eq_of_mul_eq_mul_right hd heq.1
    omega

theorem f32Round_eq_inf_iff (num den : Nat) (hd : 0 < den) :
    f32Round num den = f32InfMag ↔ (2 ^ 277 - 2 ^ 252) * den ≤ num := by
  rw [← inf_le_roundRaw_iff num den hd, f32Round_eq]
  omega

/-! ## `roundsTo` -/

theorem f32Val_sign_mag (c : F32) :
    f32Val c = if f32Sign c then -(magUnits (f32Mag c) : Int) else magUnits (f32Mag c) := by
  rw [f32Val, f32Units_eq]

theorem f32OfMag_parity (sign : Bool) (m : Nat) (h : m < 2 ^ 31) :
    (f32OfMag sign m).toNat % 2 = m % 2 := by
  rw [f32OfMag_toNat _ _ h]
  cases sign <;> simp
  omega

/-- What it takes for the encoding `m` with the sign `neg` to be the rounding of `x = ±y`. -/
theorem roundsTo_of_mag (y : ℝ) (hy : 0 ≤ y) (neg : Bool) (m : Nat) (hm : m ≤ f32InfMag)
    (hinf : m = f32InfMag ↔ 2 ^ 277 - 2 ^ 252 ≤ y)
    (hnear : m < f32InfMag → ∀ j, |(magUnits m : ℝ) - y| ≤ |(magUnits j : ℝ) - y| ∧
      (|(magUnits m : ℝ) - y| = |(magUnits j : ℝ) - y| → j ≠ m → m % 2 = 0)) :
    roundsTo (if neg then -y else y) neg (f32OfMag neg m) := by
  have hm31 : m < 2 ^ 31 := lt_of_le_of_lt hm (by decide)
  have habs : |if neg then -y else y| = y := by
    cases neg <;> simp [abs_of_nonneg hy]
  refine ⟨f32Sign_f32OfMag _ _ hm31, fun h => ?_, fun h => ?_⟩
  · rw [habs] at h
    have hlt : m < f32InfMag := by
      rcases Nat.eq_or_lt_of_le hm with e | e
      · exact absurd (hinf.1 e) (not_le.2 h)
      · exact e
    refine ⟨(f32IsFinite_f32OfMag _ _ hm31).2 hlt, fun c _ => ?_⟩
    rw [f32OfMag_parity _ _ hm31, f32Val_f32OfMag _ _ hm31, f32Val_sign_mag c]
    have near := hnear hlt
    have hz : ((magUnits 0 : Nat) : ℝ) = 0 := by norm_num [magUnits]
    obtain ⟨n0, t0⟩ := near 0
    rw [hz, zero_sub, abs_neg, abs_of_nonneg hy] at n0 t0
    obtain ⟨nj, tj⟩ := near (f32Mag c)
    have hu : (0 : ℝ) ≤ (magUnits (f32Mag c) : ℝ) := Nat.cast_nonneg _
    have flip : ∀ u : ℝ, |-u - -y| = |u - y| := fun u => by rw [← abs_neg]; ring_nf
    have same : (|(magUnits m : ℝ) - y| ≤ |(magUnits (f32Mag c) : ℝ) - y| ∧
        (|(magUnits m : ℝ) - y| = |(magUnits (f32Mag c) : ℝ) - y| →
          (magUnits (f32Mag c) : Int) ≠ magUnits m → m % 2 = 0)) :=
      ⟨nj, fun h hne => tj h fun e => hne (by rw [e])⟩
    have other : |(magUnits m : ℝ) - y| ≤ (magUnits (f32Mag c) : ℝ) + y ∧
        (|(magUnits m : ℝ) - y| = (magUnits (f32Mag c) : ℝ) + y →
          (magUnits (f32Mag c) ≠ 0 ∨ magUnits m ≠ 0) → m % 2 = 0) := by
      refine ⟨by linarith, fun h hne => ?_⟩
      have h0 : (magUnits (f32Mag c) : ℝ) = 0 := by linarith
      have h0' : magUnits (f32Mag c) = 0 := by exact_mod_cast h0
      refine t0 (by linarith) fun e => ?_
      rcases hne with hne | hne
      · exact hne h0'
      · exact hne (by rw [← e]; rfl)
    cases neg <;> cases hc : f32Sign c <;> simp only [if_true, if_false, Bool.false_eq_true,
      Int.cast_neg, Int.cast_natCast]
    · exact same
    · have e : |-(magUnits (f32Mag c) : ℝ) - y| = (magUnits (f32Mag c) : ℝ) + y := by
        rw [← abs_neg, abs_of_nonneg (by linarith)]; ring
      rw [e]
      exact ⟨other.1, fun h hne => other.2 h (by omega)⟩
    · have e : |(magUnits (f32Mag c) : ℝ) - -y| = (magUnits (f32Mag c) : ℝ) + y := by
        rw [sub_neg_eq_add, abs_of_nonneg (by linarith)]
      rw [e, flip]
      exact ⟨other.1, fun h hne => other.2 h (by omega)⟩
    · rw [flip, flip]
      exact ⟨same.1, fun h hne => same.2 h (by omega)⟩
  · rw [habs] at h
    rw [hinf.2 h, f32IsInf, f32Mag_f32OfMag _ _ (by decide), beq_self_eq_true]

/-- `f32Round` rounds `num / den` correctly. -/
theorem roundsTo_f32Round (num den : Nat) (hd : 0 < den) (neg : Bool) :
    roundsTo (if neg then -((num : ℝ) / den) else (num : ℝ) / den) neg
      (f32OfMag neg (f32Round num den)) := by
  have hd' : (0 : ℝ) < den := by exact_mod_cast hd
  refine roundsTo_of_mag _ (by positivity) neg _ (f32Round_le _ _) ?_ ?_
  · rw [f32Round_eq_inf_iff _ _ hd, le_div_iff₀ hd']
    have : (((2 ^ 277 - 2 ^ 252 : Nat) : ℝ)) = 2 ^ 277 - 2 ^ 252 := by
      rw [Nat.cast_sub (Nat.pow_le_pow_right (by decide) (by decide)), Nat.cast_pow, Nat.cast_pow,
        Nat.cast_ofNat]
    rw [← this, ← Nat.cast_mul, Nat.cast_le]
  · intro hlt j
    have hraw : f32Round num den = roundRaw num den := by rw [f32Round_eq] at *; omega
    rw [hraw]
    have err : ∀ i, |(magUnits i : ℝ) - num / den| = (roundErr num den i : ℝ) / den := by
      intro i
      rw [roundErr, Nat.cast_natAbs, Int.cast_abs,
        show (magUnits i : ℝ) - num / den = (magUnits i * den - num) / den by field_simp, abs_div,
        abs_of_pos hd']
      push_cast
      rfl
    obtain ⟨n, t⟩ := roundRaw_nearest num den j hd
    rw [err, err]
    refine ⟨by gcongr, fun h => t ?_⟩
    rw [div_left_inj' hd'.ne'] at h
    exact_mod_cast h

/-! ## The square root (00_scope.md R15) -/

/-- What the bit-by-bit search finds: the largest `m` below `m0 + 2^bits` whose square is at most `x`. -/
theorem sqrtBits_spec (x k bits m : Nat) (h0 : (m * 2 ^ k) ^ 2 ≤ x)
    (h1 : x < ((m + 2 ^ bits) * 2 ^ k) ^ 2) :
    m ≤ sqrtBits x k bits m ∧ (sqrtBits x k bits m * 2 ^ k) ^ 2 ≤ x ∧
      x < ((sqrtBits x k bits m + 1) * 2 ^ k) ^ 2 := by
  induction bits generalizing m with
  | zero => exact ⟨le_refl _, h0, by rw [sqrtBits]; simpa using h1⟩
  | succ n ih =>
    rw [sqrtBits]
    split
    · have := ih (m + 2 ^ n) ‹_› (by rw [Nat.add_assoc, ← Nat.two_mul, ← Nat.pow_succ']; exact h1)
      exact ⟨le_trans (Nat.le_add_right _ _) this.1, this.2⟩
    · exact ih m h0 (not_le.mp ‹_›)

/-- Of two neighbouring encodings around `y` the strictly nearer one is nearer than every other. -/
theorem nearest_of_gap (y : ℝ) (p m : Nat) (hlo : (magUnits p : ℝ) ≤ y)
    (hhi : y < (magUnits (p + 1) : ℝ))
    (hm : (m = p ∧ 2 * y < magUnits p + magUnits (p + 1)) ∨
      (m = p + 1 ∧ (magUnits p : ℝ) + magUnits (p + 1) < 2 * y)) (j : Nat) :
    |(magUnits m : ℝ) - y| ≤ |(magUnits j : ℝ) - y| ∧
      (|(magUnits m : ℝ) - y| = |(magUnits j : ℝ) - y| → j ≠ m → m % 2 = 0) := by
  have el : |(magUnits p : ℝ) - y| = y - magUnits p := by
    rw [abs_of_nonpos (by linarith)]; ring
  have eh : |(magUnits (p + 1) : ℝ) - y| = magUnits (p + 1) - y := abs_of_pos (by linarith)
  rcases Nat.lt_or_ge p j with h | h
  · have hU : (magUnits (p + 1) : ℝ) ≤ magUnits j := by
      exact_mod_cast magUnits_strictMono.monotone (show p + 1 ≤ j by omega)
    rw [abs_of_pos (show (0 : ℝ) < magUnits j - y by linarith)]
    rcases hm with ⟨rfl, hm⟩ | ⟨rfl, hm⟩
    · rw [el]; exact ⟨by linarith, fun e => by linarith⟩
    · rw [eh]
      refine ⟨by linarith, fun e hne => absurd ?_ hne⟩
      apply magUnits_strictMono.injective
      have : (magUnits (p + 1) : ℝ) = magUnits j := by linarith
      exact_mod_cast this.symm
  · have hU : (magUnits j : ℝ) ≤ magUnits p := by exact_mod_cast magUnits_strictMono.monotone h
    have ej : |(magUnits j : ℝ) - y| = y - magUnits j := by
      rw [abs_of_nonpos (by linarith)]; ring
    rw [ej]
    rcases hm with ⟨rfl, hm⟩ | ⟨rfl, hm⟩
    · rw [el]
      refine ⟨by linarith, fun e hne => absurd ?_ hne⟩
      apply magUnits_strictMono.injective
      have : (magUnits m : ℝ) = magUnits j := by linarith
      exact_mod_cast this.symm
    · rw [eh]; exact ⟨by linarith, fun e => by linarith⟩

/-- A finite magnitude is an integer below `2^24` times a power of two. -/
theorem magUnits_form (p : Nat) : ∃ f e, f < 2 ^ 24 ∧ magUnits p = f * 2 ^ e := by
  unfold magUnits
  split
  · exact ⟨p, 0, by omega, by simp⟩
  · exact ⟨_, _, by omega, rfl⟩

/-- The square of a midpoint has too many significant bits to be a magnitude in units. -/
theorem sqrt_no_tie (f e m k : Nat) (hf : f < 2 ^ 24) (h0 : 0 < f) (hm : 2 ^ 23 ≤ m) :
    ((2 * m + 1) * 2 ^ k) ^ 2 ≠ f * 2 ^ e := by
  intro h
  have hodd : (2 * m + 1) ^ 2 % 2 = 1 := by rw [Nat.pow_mod]; norm_num
  have hbig : 2 ^ 24 ≤ (2 * m + 1) ^ 2 := by nlinarith
  rw [Nat.mul_pow, ← Nat.pow_mul] at h
  generalize (2 * m + 1) ^ 2 = s at *
  rcases Nat.le_total (k * 2) e with hle | hle
  · obtain ⟨d, rfl⟩ := Nat.exists_eq_add_of_le hle
    rw [Nat.pow_add, show f * (2 ^ (k * 2) * 2 ^ d) = f * 2 ^ d * 2 ^ (k * 2) by ring] at h
    have h := Nat.eq_of_mul_eq_mul_right (Nat.two_pow_pos _) h
    cases d with
    | zero => simp at h; omega
    | succ d => rw [Nat.pow_succ, ← Nat.mul_assoc] at h; omega
  · obtain ⟨d, hd⟩ := Nat.exists_eq_add_of_le hle
    rw [hd, Nat.pow_add, show s * (2 ^ e * 2 ^ d) = s * 2 ^ d * 2 ^ e by ring] at h
    have h := Nat.eq_of_mul_eq_mul_right (Nat.two_pow_pos _) h
    have : s ≤ s * 2 ^ d := Nat.le_mul_of_pos_right _ (Nat.two_pow_pos _)
    omega

/-- `f32SqrtRound` rounds the root of a positive finite value correctly. -/
theorem roundsTo_f32SqrtRound (p : Nat) (h0 : 0 < p) (hp : p < f32InfMag) :
    roundsTo (Real.sqrt (magUnits p * 2 ^ 149)) false
      (f32OfMag false (f32SqrtRound (magUnits p * 2 ^ 149))) := by
  obtain ⟨x, hx⟩ : ∃ x, x = magUnits p * 2 ^ 149 := ⟨_, rfl⟩
  rw [← hx]
  have hU0 : 1 ≤ magUnits p := magUnits_strictMono (a := 0) h0
  have hU1 : magUnits p < 2 ^ 277 := by have := magUnits_lt_inf hp; omega
  have hx0 : 2 ^ 149 ≤ x := by rw [hx]; exact Nat.le_mul_of_pos_left _ hU0
  have hx1 : x < 2 ^ 426 := by
    rw [hx, show (426 : Nat) = 277 + 149 from rfl, Nat.pow_add]
    exact Nat.mul_lt_mul_of_pos_right hU1 (Nat.two_pow_pos _)
  have hxne : x ≠ 0 := by have := Nat.two_pow_pos 149; omega
  have hL0 : 149 ≤ Nat.log2 x := (Nat.le_log2 hxne).2 hx0
  have hL1 : Nat.log2 x < 426 := (Nat.log2_lt hxne).2 hx1
  obtain ⟨k, hk⟩ : ∃ k, Nat.log2 x / 2 - 23 = k + 1 := ⟨Nat.log2 x / 2 - 24, by omega⟩
  have lower : (2 ^ 23 * 2 ^ (k + 1)) ^ 2 ≤ x := by
    rw [← Nat.pow_add, ← Nat.pow_mul]
    exact le_trans (Nat.pow_le_pow_right (by decide) (by omega)) (Nat.log2_self_le hxne)
  have upper : x < (2 ^ 24 * 2 ^ (k + 1)) ^ 2 := by
    rw [← Nat.pow_add, ← Nat.pow_mul]
    exact lt_of_lt_of_le (Nat.lt_log2_self (n := x)) (Nat.pow_le_pow_right (by decide) (by omega))
  obtain ⟨-, s0, s1⟩ := sqrtBits_spec x (k + 1) 24 0 (by simp) (by simpa using upper)
  have hround : f32SqrtRound x =
      f32Pack (if ((2 * sqrtBits x (k + 1) 24 0 + 1) * 2 ^ k) ^ 2 < x
        then sqrtBits x (k + 1) 24 0 + 1 else sqrtBits x (k + 1) 24 0) (k + 1) := by
    simp only [f32SqrtRound, hk, Nat.add_sub_cancel]
  generalize sqrtBits x (k + 1) 24 0 = m at s0 s1 hround
  have pos := Nat.two_pow_pos (k + 1)
  have m0 : 2 ^ 23 ≤ m := by
    have := lt_of_le_of_lt lower s1
    have := (Nat.pow_lt_pow_iff_left (by decide)).1 this
    have := Nat.lt_of_mul_lt_mul_right this
    omega
  have m1 : m < 2 ^ 24 := by
    have := lt_of_le_of_lt s0 upper
    have := (Nat.pow_lt_pow_iff_left (by decide)).1 this
    exact Nat.lt_of_mul_lt_mul_right this
  have hne : ((2 * m + 1) * 2 ^ k) ^ 2 ≠ x := by
    obtain ⟨f, e, hf, he⟩ := magUnits_form p
    rw [hx, he, Nat.mul_assoc, ← Nat.pow_add]
    refine sqrt_no_tie f _ m k hf ?_ m0
    rcases Nat.eq_zero_or_pos f with rfl | h
    · rw [Nat.zero_mul] at he; omega
    · exact h
  obtain ⟨P, hP⟩ : ∃ P, P = (k + 1) * 2 ^ 23 + m := ⟨_, rfl⟩
  have uP : magUnits P = m * 2 ^ (k + 1) := by
    rw [hP]; exact magUnits_pack m (k + 1) (by omega) fun _ => m0
  have uP1 : magUnits (P + 1) = (m + 1) * 2 ^ (k + 1) := by
    rw [hP, Nat.add_assoc]
    exact magUnits_pack (m + 1) (k + 1) (by omega) fun _ => by omega
  have hPinf : P + 1 < f32InfMag := by rw [hP, f32InfMag]; omega
  have packP : f32Pack m (k + 1) = P := by
    rw [f32Pack, ← hP]; exact Nat.min_eq_left (Nat.lt_of_succ_lt hPinf).le
  have packP1 : f32Pack (m + 1) (k + 1) = P + 1 := by
    rw [f32Pack, ← Nat.add_assoc, ← hP]; exact Nat.min_eq_left hPinf.le
  have xr : ((x : Nat) : ℝ) = (magUnits p : ℝ) * 2 ^ 149 := by rw [hx]; push_cast; ring
  rw [← xr]
  have y0 : (magUnits P : ℝ) ≤ Real.sqrt x := by
    apply Real.le_sqrt_of_sq_le
    rw [uP]
    exact_mod_cast s0
  have y1 : Real.sqrt x < (magUnits (P + 1) : ℝ) := by
    rw [Real.sqrt_lt' (by rw [uP1]; positivity), uP1]
    exact_mod_cast s1
  have mid : (magUnits P : ℝ) + magUnits (P + 1) = 2 * (((2 * m + 1) * 2 ^ k : Nat) : ℝ) := by
    rw [uP, uP1]; push_cast; ring
  have hcase : f32SqrtRound x = P ∧ 2 * Real.sqrt x < magUnits P + magUnits (P + 1) ∨
      f32SqrtRound x = P + 1 ∧ (magUnits P : ℝ) + magUnits (P + 1) < 2 * Real.sqrt x := by
    rw [hround, mid]
    by_cases hlt : ((2 * m + 1) * 2 ^ k) ^ 2 < x
    · refine .inr ⟨by rw [if_pos hlt]; exact packP1, ?_⟩
      have : (((2 * m + 1) * 2 ^ k : Nat) : ℝ) < Real.sqrt x := by
        apply Real.lt_sqrt_of_sq_lt
        exact_mod_cast hlt
      linarith
    · refine .inl ⟨by rw [if_neg hlt]; exact packP, ?_⟩
      have : Real.sqrt x < (((2 * m + 1) * 2 ^ k : Nat) : ℝ) := by
        rw [Real.sqrt_lt' (by positivity)]
        exact_mod_cast (show x < ((2 * m + 1) * 2 ^ k) ^ 2 by omega)
      linarith
  have hlt : f32SqrtRound x < f32InfMag := by rcases hcase with ⟨e, -⟩ | ⟨e, -⟩ <;> omega
  refine roundsTo_of_mag _ (Real.sqrt_nonneg _) false _ hlt.le ?_ fun _ j =>
    nearest_of_gap _ P _ y0 y1 hcase j
  refine ⟨fun e => absurd e hlt.ne, fun h => absurd y1 (not_lt.2 (le_trans ?_ h))⟩
  have : (magUnits (P + 1) : ℝ) ≤ ((2 ^ 277 - 2 ^ 253 : Nat) : ℝ) := by
    exact_mod_cast magUnits_lt_inf hPinf
  rw [Nat.cast_sub (Nat.pow_le_pow_right (by decide) (by decide)), Nat.cast_pow, Nat.cast_pow,
    Nat.cast_ofNat] at this
  have h2 : (2 : ℝ) ^ 253 = 2 * 2 ^ 252 := by norm_num
  have h3 : (0 : ℝ) < 2 ^ 252 := by positivity
  linarith

end Sys2Proof.Machine
end

