-- ==== Sys2Proof/Laws/Store.lean ====
section
/-! SUPPORT. The operations over the snapshot store keep `StoreInv`. -/

namespace Sys2Proof.Machine

open Sys2Proof.Config

/-- `StoreInv` reads the store, `CUR` and the pins only. -/
theorem StoreInv.of_eq {s t : State} (h : StoreInv s) (hc : t.cur = s.cur) (hs : t.snap = s.snap)
    (hp : t.pin = s.pin) : StoreInv t := by
  obtain ⟨h1, h2, h3, h4⟩ := h
  exact ⟨by rw [hs, hc]; exact h1, by rw [hs, hp]; exact h2, by rw [hs]; exact h3,
    by rw [hc, hs, hp]; exact h4⟩

theorem storeInv_publishNow {s : State} (h : StoreInv s)
    (hv : pinned s.pin (s.cur + 1#32) = false) : StoreInv (publishNow s) := by
  refine ⟨by rw [publishNow_cur, snapAt_publishNow]; simp, ?_, ?_, ?_⟩
  · intro r v hp
    rw [snapAt_publishNow]
    have hp' : pinned s.pin v = true := (pinned_iff _ _).2 ⟨r, hp⟩
    by_cases hc : v = s.cur + 1#32
    · rw [if_pos hc]; rfl
    · rw [if_neg hc, if_pos hp']; exact h.pinnedStored r v hp
  · simp only [publishNow_snap, List.map_cons, List.nodup_cons]
    refine ⟨fun hm => ?_, h.distinct.sublist (List.filter_sublist.map _)⟩
    obtain ⟨x, hx, hxv⟩ := List.mem_map.mp hm
    have hx' := (List.mem_filter.mp hx).2
    rw [hxv, hv] at hx'
    exact Bool.noConfusion hx'
  · intro x hx
    rcases List.mem_cons.mp hx with rfl | hx
    · exact .inl rfl
    · exact .inr (List.mem_filter.mp hx).2

theorem storeInv_withPin {s : State} (h : StoreInv s) (r : Reader) (v : Option Version)
    (hv : v = none ∨ v = some s.cur) : StoreInv (withPin s r v) := by
  refine ⟨by simp [snapAt_retained]; exact h.currentStored, ?_, ?_, ?_⟩
  · intro q w hp
    have hp' : pinned (withPin s r v).pin w = true := (pinned_iff _ _).2 ⟨q, hp⟩
    rw [withPin_pin] at hp hp'
    rw [withPin_snap, snapAt_retained, hp', Bool.or_true, if_pos rfl]
    by_cases hq : q = r
    · subst hq
      rw [pinOf_setPin_self] at hp
      rcases hv with rfl | rfl
      · cases hp
      · cases hp; exact h.currentStored
    · rw [pinOf_setPin_other _ _ _ _ hq] at hp
      exact h.pinnedStored q w hp
  · exact h.distinct.sublist (List.filter_sublist.map _)
  · intro x hx
    have := (List.mem_filter.mp hx).2
    simpa using this

/-- At most `NUM_READERS + 1` records are stored (10_state.md R58). -/
theorem StoreInv.length_le {s : State} (h : StoreInv s) : s.snap.length ≤ numReaders + 1 := by
  have hsub : s.snap.map (·.1) ⊆ s.cur :: (s.pin.rd0.toList ++ s.pin.rd1.toList) := by
    intro v hv
    obtain ⟨x, hx, rfl⟩ := List.mem_map.mp hv
    have := h.live x hx
    simp only [pinned, Bool.or_eq_true, beq_iff_eq] at this
    rcases this with e | e | e <;> simp [e]
  have hlen := (h.distinct.subperm hsub).length_le
  have h0 : s.pin.rd0.toList.length ≤ 1 := by cases s.pin.rd0 <;> simp
  have h1 : s.pin.rd1.toList.length ≤ 1 := by cases s.pin.rd1 <;> simp
  simp only [List.length_map, List.length_cons, List.length_append] at hlen
  show _ ≤ 3
  omega

end Sys2Proof.Machine
end

