-- ==== Sys2Proof/Machine/Wire.lean ====
section
/-! DEFINITION. What stands around the block and is fixed by the spec: the pseudo-commands
(30_encoding.md R102), the telemetry formats a consumer builds from a snapshot it has read (R46, R110
to R113), and what the display does with one (44_snapshot.md R204). No step of the block uses this file (log 20). -/

namespace Sys2Proof.Machine

/-! ## Pseudo-commands (R102) -/

/-- One command without operand or data, issued on `port`. -/
def plainRequest (port : Port) (i : Instr) : Request := ⟨port, encode i, 0#64, []⟩

/-- `PUSH_FRAME`: one `ACC_PUSH 8192` with the whole frame. -/
def pushFrame (frame : List Byte) : List Request :=
  [⟨.p, encode (.accPush 8192#16), 0#64, frame⟩]

/-- `PRESS`: a press and a release of the button. -/
def press : List Request :=
  [plainRequest .p (.buttonEdge true), plainRequest .p (.buttonEdge false)]

/-- `RDr: SNAP_GET name [, index]`: acquire, read one field, release. -/
def snapGet (r : Reader) (sel : Selector) (idx : Half) : List Request :=
  [plainRequest (.rd r) .snapAcquire, plainRequest (.rd r) (.snapRead sel idx),
    plainRequest (.rd r) .snapRelease]

/-- `CSR_READ64 LAST_IMP_TS`: the low half, then the high half. -/
def csrRead64LastImpTs (port : Port) : List Request :=
  [plainRequest port (.csrRead 0x0013#16), plainRequest port (.csrRead 0x0014#16)]

/-! ## Telemetry formats -/

/-- The `n` low bytes of a value, least significant first. -/
def littleEndian : Nat → Nat → List Byte
  | 0, _ => []
  | n + 1, v => BitVec.ofNat 8 v :: littleEndian n (v / 2 ^ 8)

/-- The label text in ASCII (10_state.md R46). -/
def labelText : Label → List Byte
  | .unknown => [0x55#8, 0x4E#8, 0x4B#8, 0x4E#8, 0x4F#8, 0x57#8, 0x4E#8]
  | .a => [0x41#8]
  | .b => [0x42#8]
  | .c => [0x43#8]

/-- The characters of a text, one byte each. -/
def textBytes (text : String) : List Byte := text.toList.map fun c => BitVec.ofNat 8 c.toNat

/-- The snapshot as JSON (R110): an object, whose braces are the bytes 0x7B and 0x7D, of the
magnitudes in bin order and the dominant frequency. How a number is written is a free value. -/
def jsonSnapshot (r : Snapshot) : List Byte :=
  0x7B#8 :: textBytes "\"magnitudes\":[" ++
    ((r.mag.map Config.decimalText).intersperse [0x2C#8]).flatten ++
    textBytes "],\"dominantFrequency\":" ++ Config.decimalText r.dom ++ [0x7D#8]

/-- The spectrum frame: tag 0x01, the magnitudes, the dominant frequency (R111). -/
def spectrumFrame (r : Snapshot) : List Byte :=
  0x01#8 :: (r.mag.flatMap fun m => littleEndian 4 m.toNat) ++ littleEndian 4 r.dom.toNat

/-- One peak of an impulse frame: index, frequency, magnitude (R112). -/
def peakBytes (x : PeakData) : List Byte :=
  littleEndian 2 x.idx ++ littleEndian 4 x.freq.toNat ++ littleEndian 4 x.mag.toNat

/-- The impulse frame: tag 0x02, time, frequency, peaks, label (R112). -/
def impulseFrame (e : ImpulseEvent) : List Byte :=
  0x02#8 :: littleEndian 8 e.ts.toNat ++ littleEndian 4 e.freq.toNat ++
    littleEndian 1 e.peaks.length ++ e.peaks.flatMap peakBytes ++
    littleEndian 1 (labelText e.label).length ++ labelText e.label

/-- Whether the consumer sends an impulse frame: the event's time differs from the last sent (R113). -/
def impulseFrameDue (lastSent : Option DWord) (r : Snapshot) : Bool :=
  match r.imp with
  | none => false
  | some e => lastSent != some e.ts

/-! ## The display (44_snapshot.md R204) -/

/-- What the display does with the snapshot it has read: a prompt, the label of an event, or nothing. -/
inductive Display where
  | idlePrompt
  | label (l : Label)
  | unchanged
  deriving DecidableEq, Repr

/-- The display renders the prompt while not recording, else the latest label, else leaves what it
shows. -/
def display (r : Snapshot) : Display :=
  if r.recording then
    match r.imp with
    | some e => .label e.label
    | none => .unchanged
  else .idlePrompt

end Sys2Proof.Machine
end

