-- ==== Sys2Proof/Laws/Wire.lean ====
section
/-! SUPPORT. The lengths of the telemetry frames (30_encoding.md R111, R112). -/

namespace Sys2Proof.Machine

@[simp] theorem littleEndian_length (n v : Nat) : (littleEndian n v).length = n := by
  induction n generalizing v with
  | zero => rfl
  | succ n ih => simp [littleEndian, ih]

theorem flatMap_length_const {α : Type} (f : α → List Byte) (n : Nat) (l : List α)
    (h : ∀ x, (f x).length = n) : (l.flatMap f).length = n * l.length := by
  induction l with
  | nil => rfl
  | cons x xs ih => simp [h, ih]; ring

theorem spectrumFrame_length (r : Snapshot) (h : r.mag.length = 1024) :
    (spectrumFrame r).length = 4101 := by
  have := flatMap_length_const (fun m : F32 => littleEndian 4 m.toNat) 4 r.mag (by simp)
  simp only [spectrumFrame, List.length_append, List.length_cons, littleEndian_length, this, h]

theorem impulseFrame_length (e : ImpulseEvent) :
    (impulseFrame e).length = 15 + 10 * e.peaks.length + (labelText e.label).length := by
  have := flatMap_length_const peakBytes 10 e.peaks (by simp [peakBytes])
  simp only [impulseFrame, List.length_append, List.length_cons, littleEndian_length, this]
  omega

end Sys2Proof.Machine
end

