-- ==== Sys2Proof/Machine/Assembler.lean ====
section
/-! DEFINITION. The assembly text of a command (30_encoding.md R101), read into the transaction an agent
issues. No step of the block uses this file (log 20). -/

namespace Sys2Proof.Machine

/-! ## Tokens -/

/-- What stands before the comment sign `;`. -/
def codeOf (line : List Char) : List Char := line.takeWhile fun c => c != ';'

/-- The tokens of a line: runs of characters that are neither blank nor comma, and the commas. `word`
is the run being read, last character first. -/
def tokens : List Char → List Char → List (List Char)
  | [], word => if word.isEmpty then [] else [word.reverse]
  | c :: cs, word =>
    let before := if word.isEmpty then [] else [word.reverse]
    if c = ' ' || c = '\t' then before ++ tokens cs []
    else if c = ',' then before ++ [','] :: tokens cs []
    else tokens cs (c :: word)

/-! ## Numbers -/

/-- The value of a digit, hexadecimal digits in either case. -/
def digitValue (c : Char) : Option Nat :=
  if '0'.toNat ≤ c.toNat ∧ c.toNat ≤ '9'.toNat then some (c.toNat - '0'.toNat)
  else if 'a'.toNat ≤ c.toNat ∧ c.toNat ≤ 'f'.toNat then some (c.toNat - 'a'.toNat + 10)
  else if 'A'.toNat ≤ c.toNat ∧ c.toNat ≤ 'F'.toNat then some (c.toNat - 'A'.toNat + 10)
  else none

/-- The digits `cs` in the given base, read on from the value `acc`. -/
def digitsFrom (base : Nat) : List Char → Nat → Option Nat
  | [], acc => some acc
  | c :: cs, acc =>
    match digitValue c with
    | none => none
    | some d => if d < base then digitsFrom base cs (acc * base + d) else none

/-- At least one digit in the given base. -/
def digits (base : Nat) (cs : List Char) : Option Nat :=
  if cs.isEmpty then none else digitsFrom base cs 0

/-- A decimal number, or a hexadecimal one after `0x`. -/
def number : List Char → Option Nat
  | '0' :: 'x' :: cs => digits 16 cs
  | cs => digits 10 cs

/-- A number that fits the 16-bit immediate field. -/
def immediate (cs : List Char) : Option Half :=
  match number cs with
  | some n => if n < 2 ^ 16 then some (BitVec.ofNat 16 n) else none
  | none => none

/-! ## Names -/

/-- The port prefixes. -/
def portPrefixes : List (List Char × Port) :=
  [("P:".toList, .p), ("RD0:".toList, .rd .rd0), ("RD1:".toList, .rd .rd1)]

/-- The mnemonics that take no operand. -/
def plainMnemonics : List (List Char × Instr) :=
  [("NOP".toList, .nop), ("ACC_RESET".toList, .accReset), ("IDLE_TICK".toList, .idleTick),
    ("SNAP_ACQUIRE".toList, .snapAcquire), ("SNAP_RELEASE".toList, .snapRelease)]

/-- The register names (10_state.md R61, R62), by number from 0. -/
def registerNames : List (List Char) :=
  ["CFG_N".toList, "CFG_FS".toList, "CFG_BIN_WIDTH".toList, "CFG_FREQ_CUTOFF".toList,
    "CFG_LOW_THR".toList, "CFG_HIGH_THR".toList, "CFG_IMPULSE_THR".toList,
    "CFG_REFRACTORY_MS".toList, "CFG_MIN_IMPULSE_FREQ".toList, "CFG_GEOM".toList,
    "CFG_CLS_A_LO".toList, "CFG_CLS_A_HI".toList, "CFG_CLS_B_LO".toList, "CFG_CLS_B_HI".toList,
    "CFG_CLS_C_LO".toList, "CFG_CLS_C_HI".toList] ++
  ["STATUS".toList, "ACC_COUNT".toList, "PREV_SUM".toList, "LAST_IMP_TS_LO".toList,
    "LAST_IMP_TS_HI".toList, "SNAP_VERSION".toList, "W_DOM".toList]

/-- The selector names (30_encoding.md R100). -/
def selectorNames : List (List Char × Selector) :=
  [("MAG".toList, .mag), ("DOM".toList, .dom), ("REC".toList, .recording),
    ("IMP_PRESENT".toList, .impPresent), ("IMP_TS_LO".toList, .impTsLo),
    ("IMP_TS_HI".toList, .impTsHi), ("IMP_FREQ".toList, .impFreq),
    ("IMP_NPEAKS".toList, .impNpeaks), ("PK_IDX".toList, .pkIdx), ("PK_FREQ".toList, .pkFreq),
    ("PK_MAG".toList, .pkMag), ("IMP_LABEL".toList, .impLabel), ("VERSION".toList, .version)]

/-- A register: its number or its name. -/
def registerOperand (cs : List Char) : Option Half :=
  match immediate cs with
  | some r => some r
  | none => (registerNames.findIdx? fun n => n == cs).map (BitVec.ofNat 16)

/-! ## Lines -/

/-- The command on a line without port prefix, with the value of `OPND`. -/
def commandLine : List (List Char) → Option (Instr × DWord)
  | [m] => (plainMnemonics.lookup m).map (·, 0#64)
  | [m, a] =>
    if m = "ACC_PUSH".toList then (immediate a).map (Instr.accPush ·, 0#64)
    else if m = "ANALYZE".toList then
      match digits 10 a with
      | some t => if t < 2 ^ 64 then some (.analyze, BitVec.ofNat 64 t) else none
      | none => none
    else if m = "BUTTON_EDGE".toList then
      if a = ['0'] then some (.buttonEdge false, 0#64)
      else if a = ['1'] then some (.buttonEdge true, 0#64) else none
    else if m = "CSR_READ".toList then (registerOperand a).map (Instr.csrRead ·, 0#64)
    else if m = "SNAP_READ".toList then
      (selectorNames.lookup a).map (Instr.snapRead · 0#16, 0#64)
    else none
  | [m, a, comma, b] =>
    if m = "SNAP_READ".toList ∧ comma = [','] then
      match selectorNames.lookup a, immediate b with
      | some f, some k => some (.snapRead f k, 0#64)
      | _, _ => none
    else none
  | _ => none

/-- One line `[port:] MNEMONIC [operand, ...]` as a transaction; the port defaults to `P`, and `din` is
the data written after an `ACC_PUSH`. -/
def assemble (line : String) (din : List Byte) : Option Request :=
  match tokens (codeOf line.toList) [] with
  | [] => none
  | t :: ts =>
    match portPrefixes.lookup t with
    | some port => (commandLine ts).map fun c => ⟨port, encode c.1, c.2, din⟩
    | none => (commandLine (t :: ts)).map fun c => ⟨.p, encode c.1, c.2, din⟩

/-- One hexadecimal byte of two digits. -/
def hexByte (cs : List Char) : Option Byte :=
  if cs.length = 2 then (digits 16 cs).map (BitVec.ofNat 8) else none

/-- The line `DIN = <hex bytes>` after an `ACC_PUSH`. -/
def assembleDin (line : String) : Option (List Byte) :=
  match tokens (codeOf line.toList) [] with
  | d :: e :: bytes => if d = "DIN".toList ∧ e = ['='] then bytes.mapM hexByte else none
  | _ => none

end Sys2Proof.Machine
end

