-- ==== Sys2Proof/Tests/Slice0.lean ====
section
/-! SUPPORT. The model's own tests. Expected values are those of 95_test_vectors.md (V<n>), of the worked
words of 30_encoding.md R99 and of the examples in the rules; the `witness_` theorems show states and
operands that meet the hypotheses of the statements. -/

namespace Sys2Proof.Tests

open Sys2Proof.Config Sys2Proof.Machine

/-! ## Helpers -/

/-- A spectrum of `n` bins, all `+0.0` but those listed (encodings). -/
def sparse (n : Nat) (l : List (Nat × Nat)) : List F32 :=
  (List.range n).map fun k => BitVec.ofNat 32 ((l.lookup k).getD 0)

/-- The parameters T2 and T3 of 95_test_vectors.md, and T1 with other button mode or gate. -/
def buildT2 : Build := { buildT1 with highThr := 0x40000000#32 }
def buildT3 : Build := { buildT1 with freqCutoff := 0x44761800#32, highThr := 0x3F000000#32 }
def buildToggle : Build := { buildT1 with buttonMode := .toggle }

/-- Another geometry: a transform of length 1024 at 44100 Hz. -/
def build1024 : Build :=
  { buildT1 with fftLength := 1024, sampleRate := 44100, binWidth := 0x422C4400#32 }

/-- The record right after reset. -/
def resetRecord : Snapshot := resetSnapshot buildT1

/-- A transaction on `port` without operand or data, latched. -/
def onPort (port : Port) (s : State) : State := { s with txn := ⟨port, 0#32, 0#64, []⟩ }

/-- A transaction on `P` with the data `din`, latched. -/
def withDin (din : List Byte) (s : State) : State := { s with txn := ⟨.p, 0#32, 0#64, din⟩ }

/-- Recording, with `n` bytes accumulated. -/
def recordingAt (n : Nat) : State :=
  { State.reset with
    recState := .recording, accCount := n, w := { resetRecord with recording := true } }

/-- An event of three peaks, and a record that holds it. -/
def event3 : ImpulseEvent where
  ts := 0x100000005#64
  freq := 0x44BB8000#32
  peaks := [⟨63, 0x44B8A000#32, 0x3E800000#32⟩, ⟨64, 0x44BB8000#32, 0x3F800000#32⟩,
    ⟨70, 0x44CD1400#32, 0x3E000000#32⟩]
  label := .c

def record3 : Snapshot := { resetRecord with imp := some event3, dom := 0x44BB8000#32 }

/-- Version 7 is current and pinned by `RD0`, with the record `record3`. -/
def pinned7 : State :=
  onPort (.rd .rd0)
    { State.reset with cur := 7#32, snap := [(7#32, record3)], pin := ⟨some 7#32, none⟩ }

/-- Version 0, without an event, is pinned by `RD0`. -/
def pinned0 : State := onPort (.rd .rd0) { State.reset with pin := ⟨some 0#32, none⟩ }

/-- `RD0` pins the version after the current one. -/
def pinnedNext (s : State) : State := { s with pin := ⟨some 1#32, none⟩ }

/-- The state with the command word `w` issued on `port` next. -/
def issue (port : Port) (w : Nat) (s : State) : State :=
  { s with inbox := [.command ⟨port, BitVec.ofNat 32 w, 0#64, []⟩] }

def nextOf : Result → Option State
  | .next t => some t
  | .fault _ => none
  | .refused _ => none

def refusalOf : Result → Option Refusal
  | .next _ => none
  | .fault _ => none
  | .refused r => some r

/-- The response on the port of the transaction: status code and data. -/
def replyOf (s : State) (r : Result) : Option (Nat × Nat) :=
  (nextOf r).bind fun t =>
    (responseOn t.rsp s.txn.port).map fun x => ((statusCode x.status).toNat, x.data.toNat)

/-- The reply to the command `i` in `s`. -/
def reply (i : Instr) (s : State) : Option (Nat × Nat) := replyOf s (exec i s)

/-- The reply to the word `w` on `port`, through the decoder. -/
def replyToWord (port : Port) (w : Nat) (s : State) : Option (Nat × Nat) :=
  replyOf (onPort port s) (step (issue port w s))

/-! ## Well-formedness -/

/-- R97: `SNAP_READ DOM` with an index is no command; with a selector that takes one it is. -/
theorem test_wellFormed_refuses_index :
    (Instr.snapRead .dom 1#16).wellFormed = false ∧
      (Instr.snapRead .mag 1#16).wellFormed = true ∧
      (Instr.snapRead .dom 0#16).wellFormed = true := by decide

/-! ## Decoding: words written out from R95 (`IMM`, `RSV`, `SEL`, `OPC` from the left) -/

theorem test_decode_nop : decode 0b0000000000000000_0000_0000_00000000#32 = .ok .nop := by decide
theorem test_decode_accPush :
    decode 0b0001000000000000_0000_0000_00000001#32 = .ok (.accPush 4096#16) := by decide
theorem test_decode_accReset :
    decode 0b0000000000000000_0000_0000_00000010#32 = .ok .accReset := by decide
theorem test_decode_analyze :
    decode 0b0000000000000000_0000_0000_00000011#32 = .ok .analyze := by decide
theorem test_decode_buttonEdge :
    decode 0b0000000000000000_0000_0001_00000100#32 = .ok (.buttonEdge true) ∧
      decode 0b0000000000000000_0000_0000_00000100#32 = .ok (.buttonEdge false) := by decide
theorem test_decode_idleTick :
    decode 0b0000000000000000_0000_0000_00000101#32 = .ok .idleTick := by decide
theorem test_decode_csrRead :
    decode 0b0000000000010001_0000_0000_00000110#32 = .ok (.csrRead 0x0011#16) := by decide
theorem test_decode_snapAcquire :
    decode 0b0000000000000000_0000_0000_00010000#32 = .ok .snapAcquire := by decide
theorem test_decode_snapRead :
    decode 0b0000000001000000_0000_0000_00010001#32 = .ok (.snapRead .mag 64#16) ∧
      decode 0b0000000000000010_0000_1000_00010001#32 = .ok (.snapRead .pkIdx 2#16) ∧
      decode 0b0000000000000000_0000_1100_00010001#32 = .ok (.snapRead .version 0#16) := by decide
theorem test_decode_snapRelease :
    decode 0b0000000000000000_0000_0000_00010010#32 = .ok .snapRelease := by decide

/-- V1.2 to V1.8, V1.11 to V1.13, V1.16, V1.18, V1.19: words that decode to nothing. -/
theorem test_decode_refuses :
    [0x00000100, 0x00001000, 0x00000007, 0x000000FF, 0x00000204, 0x00010004, 0x00001010,
      0x00000D11, 0x00010111, 0x00000106, 0x00000103, 0x00010003, 0x0000000F, 0x00000013].all
      (fun w => match decode (BitVec.ofNat 32 w) with | .ok _ => false | .error _ => true) = true := by
  decide

/-- The bytes of a word stand least significant first (20_memory.md R74). -/
theorem test_decodeBytes :
    decodeBytes [0x11#8, 0x08#8, 0x02#8, 0x00#8, 0xFF#8] =
      .ok (.snapRead .pkIdx 2#16, [0xFF#8]) := by decide

/-! ## Replies through the decoder (V1.x) -/

theorem test_word_replies :
    replyToWord (.rd .rd0) 0x00000000 State.reset = some (0x00, 0) ∧
      replyToWord .p 0x00000100 State.reset = some (0x01, 0) ∧
      replyToWord (.rd .rd1) 0x000000FF State.reset = some (0x01, 0) ∧
      replyToWord .p 0x00000010 State.reset = some (0x02, 0) ∧
      replyToWord .p 0x00001010 State.reset = some (0x01, 0) ∧
      replyToWord (.rd .rd0) 0x04000011 State.reset = some (0x05, 0) ∧
      replyToWord (.rd .rd1) 0x00170006 State.reset = some (0x09, 0) := by decide +kernel

/-- V1.21: a `DIN` of the wrong length is refused. -/
theorem test_din_length :
    refusalOf (exec (.accPush 4#16) (withDin [1#8, 2#8, 3#8] (recordingAt 0))) =
      some .dinLengthMismatch := by decide

/-! ## Around the block: the lines of R99 and P1, and V11.1 -/

theorem test_assemble :
    [assemble "ACC_PUSH 4096" [], assemble "P: BUTTON_EDGE 1 ; press" [],
        assemble "RD0: CSR_READ 0x0011" [], assemble "RD1: SNAP_READ PK_IDX, 2" [],
        assemble "CSR_READ ACC_COUNT" []].map (·.map fun q => (q.port, q.cmd.toNat)) =
      [some (.p, 0x10000001), some (.p, 0x00000104), some (.rd .rd0, 0x00110006),
        some (.rd .rd1, 0x00020811), some (.p, 0x00110006)] := by decide

theorem test_assemble_operands :
    (assemble "ANALYZE 1000" []).map (·.opnd) = some 1000#64 ∧ assemble "SNAP_READ FOO" [] = none ∧
      assembleDin "DIN = aa 0B" = some [0xAA#8, 0x0B#8] := by decide

/-- V11.1, and the first peak of V11.2. -/
theorem test_frames :
    (spectrumFrame resetRecord).head? = some 0x01#8 ∧
      ((spectrumFrame resetRecord).drop 1).all (· == 0#8) = true ∧
      peakBytes ⟨59, 0x44ACDA00#32, 0x362A9154#32⟩ =
        [0x3B#8, 0x00#8, 0x00#8, 0xDA#8, 0xAC#8, 0x44#8, 0x54#8, 0x91#8, 0x2A#8, 0x36#8] ∧
      (impulseFrame event3).drop 44 = [0x01#8, 0x43#8] := by decide +kernel

theorem test_display :
    display record3 = .idlePrompt ∧ display { record3 with recording := true } = .label .c := by decide

/-! ## Window, samples and magnitudes (V3.x, V4.x, V5.1 to V5.9, section 2.2) -/

theorem test_hann_entries :
    [0, 1, 2, 511, 1023, 1024, 1536, 2045, 2046, 2047].map (fun i => (elemAt hannReference i).toNat) =
      [0, 0x361E1160, 0x371E1148, 0x3EFF6921, 0x3F7FFFF6, 0x3F7FFFF6, 0x3EFF6921, 0x371E1148,
        0x361E1160, 0] ∧
      hannReference.length = 2048 := by decide +kernel

theorem test_normalise :
    [0, 1, 3, 0x40000000, 0x12345678, 0x7FFFFFFF, 0x7FFFFFC0, 0x7FFFFFBF, 0x7FFFFF7F, 0x80000000,
      0xC0000000, 0xFFFFFFFF].map (fun n => (normalise (BitVec.ofNat 32 n)).toNat) =
    [0, 0x30000000, 0x30C00000, 0x3F000000, 0x3E11A2B4, 0x3F800000, 0x3F800000, 0x3F7FFFFF,
      0x3F7FFFFF, 0xBF800000, 0xBF000000, 0xB0000000] := by decide +kernel

theorem test_sample_byte_order :
    sampleAt (fbWrite [] 4 [0x78#8, 0x56#8, 0x34#8, 0x12#8]) 1 = 0x12345678#32 := by decide

theorem test_window_products :
    f32Mul 0x3F800000#32 0x3F7FFFF6#32 = 0x3F7FFFF6#32 ∧
      f32Mul 0xBF800000#32 0x361E1160#32 = 0xB61E1160#32 ∧
      f32Mul 0x3F000000#32 0x3EFF6921#32 = 0x3E7F6921#32 ∧
      f32Mul 0x3E11A2B4#32 0x3EFF6921#32 = 0x3D914CE0#32 := by decide +kernel

theorem test_magnitudes :
    [(0x00000000, 0x00000000), (0x80000000, 0x80000000), (0x40400000, 0x40800000),
      (0x45000000, 0x00000000), (0x3F800000, 0x3F800000), (0x1C800000, 0x00000000),
      (0x0DA24260, 0x00000000), (0x60AD78EC, 0x60AD78EC)].map
      (fun x => (magnitude 2048 ⟨BitVec.ofNat 32 x.1, BitVec.ofNat 32 x.2⟩).toNat) =
    [0, 0, 0x3B200000, 0x3F800000, 0x3A3504F3, 0x17000000, 0, 0x7F800000] := by decide +kernel

/-- V5.9: a NaN part gives a NaN magnitude, whatever the NaN's bits. -/
theorem test_magnitude_nan (x : F32) (h : f32IsNaN x = true) :
    f32IsNaN (magnitude 2048 ⟨x, 0#32⟩) = true := by
  simp [magnitude, f32Div, f32Sqrt, f32Add, f32Mul, h, f32IsNaN_f32NaN]

/-! ## Peaks (V5.10 to V5.22, V6.x) -/

theorem test_peak_refined :
    detectPeak buildT1 (sparse 66 [(63, 0x3E800000), (64, 0x3F800000), (65, 0x3F400000)]) =
        ⟨true, 64, 0x44BC3B80#32⟩ ∧
      detectPeak buildT1 (sparse 66 [(63, 0x3E800000), (64, 0x3F800000), (65, 0x3E800000)]) =
        ⟨true, 64, 0x44BB8000#32⟩ := by decide +kernel

theorem test_peak_bands :
    detectPeak buildT2 (sparse 44 [(41, 0x3F000000), (42, 0x3F800000), (43, 0x3FC00000)]) =
        ⟨true, 42, 0x44761800#32⟩ ∧
      detectPeak buildT2 (sparse 44 [(41, 0x3E800000), (42, 0x3F800000), (43, 0x3FF00000)]) =
        ⟨true, 42, 0x44500200#32⟩ ∧
      detectPeak buildT3 (sparse 43 [(41, 0x3E4CCCCD), (42, 0x3E99999A)]) =
        ⟨true, 41, 0x44790600#32⟩ := by decide +kernel

theorem test_peak_thresholds_and_ties :
    detectPeak buildT1 (sparse 11 [(10, 0x3C23D70A)]) = ⟨false, 0, 0#32⟩ ∧
      detectPeak buildT1 (sparse 11 [(10, 0x3C23D70B)]) = ⟨true, 10, 0x436A6000#32⟩ ∧
      detectPeak buildT1 (sparse 1 [(0, 0x3F000000)]) = ⟨true, 0, 0#32⟩ ∧
      detectPeak buildT1 (sparse 21 [(10, 0x3F000000), (20, 0x3F000000)]) =
        ⟨true, 10, 0x436A6000#32⟩ ∧
      detectPeak buildT1 (sparse 71 [(64, 0x7FC00000), (70, 0x3DCCCCCD)]) =
        ⟨true, 70, 0x44CD1400#32⟩ := by decide +kernel

/-- V5.19: the upper boundary bin is not interpolated. -/
theorem test_peak_boundary : refine buildT1 [] 1023 = 0x46BB5120#32 := by decide +kernel

theorem test_harmonics_shrinking_span :
    (findPeaks buildT1 (sparse 111 [(98, 0x3F000000), (100, 0x3F800000), (103, 0x3E99999A),
      (110, 0x3ECCCCCD)]) 100).map (·.idx) = [98, 100, 110] ∧
    (findPeaks buildT1 (sparse 105 [(100, 0x3F800000), (101, 0x3DCCCCCD), (102, 0x3F666666),
      (103, 0x3F000000), (104, 0x3F333333)]) 100).map (·.idx) = [100, 102, 104] := by decide +kernel

theorem test_harmonics_edges :
    (findPeaks buildT1 (sparse 11 [(0, 0x3DCCCCCD), (9, 0x3E4CCCCD), (10, 0x3F800000)]) 10).map (·.idx) =
        [0, 9, 10] ∧
      (findPeaks buildT1 (sparse 127 [(74, 0x3F666666), (100, 0x3F800000), (126, 0x3F666666)]) 100).map
        (·.idx) = [100] ∧
      (findPeaks buildT1 (sparse 101 [(75, 0x7FC00000), (80, 0x3F000000), (100, 0x3F800000)]) 100).map
        (·.idx) = [100] := by decide +kernel

/-! ## Impulses and classes (V7.x, V8.x) -/

/-- V7.1 to V7.10, V7.13, V7.14: previous sum, last time, sum, dominant frequency, time. -/
theorem test_fires :
    [(0, 0, 0x3E000000, 0x44BB8000, 1000), (0, 0, 0x3D4CCCCD, 0x44BB8000, 1000),
      (0x3E800000, 0, 0x3E000000, 0x44BB8000, 1000), (0x3E000000, 1000, 0, 0x45160000, 1010),
      (0, 1000, 0x3E000000, 0x45160000, 1100), (0, 1000, 0x3E000000, 0x45160000, 1101),
      (0, 0, 0x3E000000, 0x42C80000, 1000), (0, 0, 0x3E000000, 0x42C80001, 1000),
      (0, 1000, 0x3E000000, 0x44BB8000, 500), (0, 0, 0x3E000000, 0x44BB8000, 100),
      (0, 0, 0x3E000000, 0, 1000), (0, 0, 0x7F800000, 0x44BB8000, 1000)].map
      (fun x => fires buildT1 (BitVec.ofNat 32 x.2.2.1) (BitVec.ofNat 32 x.1)
        (BitVec.ofNat 64 x.2.2.2.2) (BitVec.ofNat 64 x.2.1) (BitVec.ofNat 32 x.2.2.2.1)) =
    [true, false, true, false, false, true, false, true, true, false, false, true] := by
  decide +kernel

/-- V8.1 to V8.20. -/
theorem test_classes :
    [0x00000000, 0xC0A00000, 0x43AF0000, 0x442EFFFF, 0x442F0000, 0x4460BFFF, 0x4460C000,
      0x4460E000, 0x4460FFFF, 0x44610000, 0x44BB8000, 0x44D47FFF, 0x44D48000, 0x44ED7FFF,
      0x44ED8000, 0x45160000, 0x452F0000, 0x452F0001, 0x7F800000, 0x7FC00000].map
      (fun n => classify classesR8 (BitVec.ofNat 32 n)) =
    [.unknown, .unknown, .unknown, .unknown, .b, .b, .unknown, .unknown, .unknown, .c, .c, .c,
      .unknown, .unknown, .a, .a, .a, .unknown, .unknown, .unknown] := by decide

/-! ## Commands: at most two tests each -/

theorem test_nop : reply .nop (onPort (.rd .rd1) State.reset) = some (0x00, 0) := by decide

/-- V2.4, V2.5, V2.8, and 10 of 20 bytes taken (as V2.3): bytes beyond the capacity are discarded; refused while Idle. -/
theorem test_accPush_take :
    reply (.accPush 20#16) (withDin (List.replicate 20 1#8) (recordingAt 8182)) =
        some (0x00, 0x0001000A) ∧
      reply (.accPush 2#16) (withDin [1#8, 1#8] (recordingAt 8192)) = some (0x00, 0x00010000) ∧
      reply (.accPush 0#16) (withDin [] (recordingAt 100)) = some (0x00, 0) ∧
      reply (.accPush 1#16) (withDin [1#8] State.reset) = some (0x03, 0) := by decide

/-- V2.12: the accepted bytes follow the accumulated ones. -/
theorem test_accPush_bytes :
    (nextOf (exec (.accPush 2#16) (withDin [0xAA#8, 0xBB#8] (recordingAt 3)))).map
      (fun t => (t.accCount, fbRead t.fb 3, fbRead t.fb 4, fbRead t.fb 5)) =
    some (5, 0xAA#8, 0xBB#8, 0#8) := by decide

/-- V2.10, V2.11. -/
theorem test_accReset :
    (nextOf (exec .accReset (recordingAt 8192))).map (·.accCount) = some 0 ∧
      reply .accReset { State.reset with accCount := 4096 } = some (0x00, 0) := by decide

/-- V2.9: a partial frame is not analysed. -/
theorem test_analyze_partial :
    reply .analyze (recordingAt 4096) = some (0x04, 0) ∧
      reply .analyze State.reset = some (0x03, 0) := by decide

/-- R130: a full frame is consumed and published, whatever the transform. -/
theorem test_analyze_full :
    (nextOf (exec .analyze (recordingAt 8192))).map (fun t => (t.accCount, t.cur, t.recState)) =
      some (0, 1#32, .recording) := by decide

/-- V9.1 to V9.5. -/
theorem test_buttonEdge_data :
    reply (.buttonEdge true) State.reset = some (0x00, 3) ∧
      reply (.buttonEdge false) { recordingAt 0 with btnLevel := true } = some (0x00, 1) ∧
      reply (.buttonEdge true) (recordingAt 0) = some (0x00, 2) ∧
      reply (.buttonEdge true) { State.reset with btnLevel := true } = some (0x00, 0) ∧
      reply (.buttonEdge false) (resetOf buildToggle) = some (0x00, 3) := by decide

/-- V9.6: a start of recording drops the latest impulse and the progress, and publishes that. -/
theorem test_buttonEdge_start :
    (nextOf (exec (.buttonEdge true) { State.reset with w := record3, accCount := 4000 })).map
      (fun t => (t.accCount, t.w.imp, t.cur, (snapAt t.snap 1#32).map (·.imp))) =
    some (0, none, 1#32, some none) := by decide

/-- V9.7, V9.8. -/
theorem test_idleTick :
    (nextOf (exec .idleTick { State.reset with cur := 3#32, snap := [(3#32, resetRecord)] })).map
        (fun t => (t.cur, (snapAt t.snap 4#32).map (·.dom))) = some (4#32, some 0#32) ∧
      reply .idleTick (recordingAt 0) = some (0x03, 0) := by decide

/-- V12.1 to V12.8, V12.12. -/
theorem test_csrRead_configuration :
    [0x0000, 0x0001, 0x0002, 0x0007, 0x0008, 0x0009, 0x000D, 0x0017].map
      (fun n => reply (.csrRead (BitVec.ofNat 16 n)) State.reset) =
    [some (0, 0x800), some (0, 0xBB80), some (0, 0x41BB8000), some (0, 0x64), some (0, 0x42C80000),
      some (0, 0x00020519), some (0, 0x4460C000), some (9, 0)] ∧
    reply (.csrRead 9#16) (resetOf buildToggle) = some (0, 0x01020519) := by decide

/-- V12.9 to V12.11. -/
theorem test_csrRead_status :
    reply (.csrRead 0x10#16) State.reset = some (0, 0) ∧
      reply (.csrRead 0x10#16) { recordingAt 8192 with btnLevel := true } = some (0, 7) ∧
      reply (.csrRead 0x14#16) { State.reset with lastImpTs := 0x200000001#64 } = some (0, 2) := by
  decide

/-- V10.2, V10.6: the pin is the current version. -/
theorem test_snapAcquire :
    (nextOf (exec .snapAcquire (onPort (.rd .rd1) State.reset))).map (·.pin) =
        some ⟨none, some 0#32⟩ ∧
      reply .snapAcquire (onPort (.rd .rd1) pinned7) = some (0x00, 7) := by decide

/-- V10.1, V10.3 to V10.5. -/
theorem test_snapRead_errors :
    reply (.snapRead .dom 0#16) (onPort (.rd .rd0) State.reset) = some (0x05, 0) ∧
      reply (.snapRead .impFreq 0#16) pinned0 = some (0x07, 0) ∧
      reply (.snapRead .pkIdx 0#16) pinned0 = some (0x07, 0) ∧
      reply (.snapRead .mag 1024#16) pinned0 = some (0x06, 0) ∧
      reply (.snapRead .pkMag 3#16) pinned7 = some (0x06, 0) := by decide

/-- V10.2, V10.8 and the selectors of R100. -/
theorem test_snapRead_fields :
    [(Selector.mag, 1023), (.dom, 0), (.recording, 0), (.impPresent, 0), (.impTsLo, 0), (.impTsHi, 0),
      (.impFreq, 0), (.impNpeaks, 0), (.pkIdx, 2), (.pkFreq, 0), (.pkMag, 2), (.impLabel, 0),
      (.version, 0)].map (fun x => reply (.snapRead x.1 (BitVec.ofNat 16 x.2)) pinned7) =
    [some (0, 0), some (0, 0x44BB8000), some (0, 0), some (0, 1), some (0, 5), some (0, 1),
      some (0, 0x44BB8000), some (0, 3), some (0, 70), some (0, 0x44B8A000), some (0, 0x3E000000),
      some (0, 3), some (0, 7)] := by decide +kernel

/-- V10.7, and a release of one pin of two. -/
theorem test_snapRelease :
    reply .snapRelease (onPort (.rd .rd1) State.reset) = some (0x00, 0) ∧
      (nextOf (exec .snapRelease { pinned7 with pin := ⟨some 7#32, some 7#32⟩ })).map
        (fun t => (t.pin, t.snap.length)) = some (⟨none, some 7#32⟩, 1) := by decide

/-! ## Telemetry and pseudo-commands (V11.x, R102) -/

/-- The first bytes of an impulse frame, as V11.2 lays them out. -/
theorem test_impulseFrame :
    (impulseFrame event3).take 19 =
      [0x02#8, 0x05#8, 0x00#8, 0x00#8, 0x00#8, 0x01#8, 0x00#8, 0x00#8, 0x00#8, 0x00#8, 0x80#8,
        0xBB#8, 0x44#8, 0x03#8, 0x3F#8, 0x00#8, 0x00#8, 0xA0#8, 0xB8#8] ∧
      (impulseFrame event3).drop 44 = [0x01#8, 0x43#8] := by decide

theorem test_press_words : press.map (·.cmd) = [0x00000104#32, 0x00000004#32] := by decide

/-! ## Witnesses: hypotheses that are met -/

theorem reset_valid : buildValid State.reset.build = true := by decide +kernel

/-- The commands the witnesses issue. -/
def request (port : Port) (w : Word) : Request := ⟨port, w, 0#64, []⟩

/-- The boundaries of R97 on both sides: opcodes 6 and 7, 0x0F and 0x10, 0x12 and 0x13; `RSV`; the
level bit and the bit above it; selectors 12 and 13; a selector with and without index. -/
theorem witness_DecodeInvertsEncode :
    (Instr.snapRead .pkMag 0#16).wellFormed = true ∧
      decode 0x00000A11#32 = .ok (.snapRead .pkMag 0#16) := by decide

theorem witness_StatusRegistersRead :
    buildValid State.reset.build = true ∧ 0x0010 ≤ (0x0010#16).toNat ∧
      (0x0016#16).toNat ≤ 0x0016 := ⟨reset_valid, by decide, by decide⟩

theorem witness_IllegalWordsHaveNoEffect :
    buildValid (issue .p 7 State.reset).build = true ∧
      (∃ q rest, (issue .p 7 State.reset).inbox = .command q :: rest ∧ illegalWord q.cmd) ∧
      ∃ q rest, (issue .p 6 State.reset).inbox = .command q :: rest ∧ ¬ illegalWord q.cmd :=
  ⟨reset_valid, ⟨_, _, rfl, by decide⟩,
    ⟨_, _, rfl, by decide⟩⟩

theorem witness_illegalWord_boundaries :
    (∀ w ∈ [0x07, 0x0F, 0x13, 0xFF, 0x1000, 0x0204, 0x0D11, 0x10C11, 0x10111, 0x10B11, 0x0101, 0x0106,
      0x10000, 0x0100], illegalWord (BitVec.ofNat 32 w)) ∧
    ∀ w ∈ [0x06, 0x10, 0x12, 0x0104, 0x0C11, 0x10011, 0x10811, 0x10911, 0x10A11, 0xFFFF0001, 0xFFFF0006],
      ¬ illegalWord (BitVec.ofNat 32 w) := by decide

theorem witness_StepExecutesDecodedCommand :
    buildValid (issue .p 3 State.reset).build = true ∧
      ∃ q rest, (issue .p 3 State.reset).inbox = .command q :: rest ∧ decode q.cmd = .ok .analyze :=
  ⟨reset_valid, _, _, rfl, by decide⟩

theorem witness_NothingHappensBetweenCommands :
    buildValid State.reset.build = true ∧ State.reset.inbox = [] := ⟨reset_valid, rfl⟩

theorem storeInv_of_current (s : State) (r : Snapshot) (hs : s.snap = [(s.cur, r)])
    (hp : s.pin = ⟨none, none⟩) : StoreInv s := by
  refine ⟨by simp [hs, snapAt], ?_, by simp [hs], by simp [hs]⟩
  intro q v h
  cases q <;> simp [hp, pinOf] at h

/-- Version 1 is stored and pinned while version 0 is current. -/
def storedNext (s : State) : State :=
  { s with pin := ⟨some 1#32, none⟩, snap := [(0#32, s.w), (1#32, s.w)], cur := 0#32 }

theorem storeInv_storedNext (s : State) : StoreInv (storedNext s) := by
  refine ⟨by simp [storedNext, snapAt], ?_, by simp [storedNext], ?_⟩
  · intro q v h
    cases q
    · cases h; simp [storedNext, snapAt, List.lookup_cons]
    · cases h
  · intro x hx
    have hx : x = (0#32, s.w) ∨ x = (1#32, s.w) := by simpa [storedNext] using hx
    rcases hx with rfl | rfl
    · exact .inl rfl
    · exact .inr rfl

/-- One state for each reason, and one that no reason refuses. -/
theorem witness_StepsAreRefusedForThreeReasonsOnly :
    StoreInv State.reset ∧
      (StoreInv (resetOf { buildT1 with lowThr := 0xBF800000#32 }) ∧
        buildValid (resetOf { buildT1 with lowThr := 0xBF800000#32 }).build = false) ∧
      (StoreInv (issue .p 0x00040001 State.reset) ∧
        refusalOf (step (issue .p 0x00040001 State.reset)) = some .dinLengthMismatch) ∧
      (StoreInv (storedNext (issue .p 5 State.reset)) ∧
        refusalOf (step (storedNext (issue .p 5 State.reset))) = some .pinnedVersionReused) := by
  refine ⟨storeInv_of_current _ _ rfl rfl, ⟨storeInv_of_current _ _ rfl rfl, ?_⟩,
    ⟨storeInv_of_current _ _ rfl rfl, ?_⟩, storeInv_storedNext _, ?_⟩ <;> decide +kernel

/-- Thresholds: just below zero and a NaN are refused, both zeros are not (R12). Geometry: another length
and rate are accepted with their own bin width, and not with another one. -/
theorem witness_InvalidConfigurationsAreRefused :
    [0x80000001, 0x7FC00000, 0x80000000, 0x00000000].map
        (fun n => buildValid { buildT1 with highThr := BitVec.ofNat 32 n }) =
      [false, false, true, true] ∧
    [build1024, { build1024 with binWidth := 0x41BB8000#32 }, { buildT1 with fftLength := 2047 },
        { buildT1 with fftLength := 2, binWidth := 0x46BB8000#32 }].map buildValid =
      [true, false, false, false] := by decide +kernel

theorem witness_CanonicalR8 : CanonicalR8 State.reset.build :=
  ⟨rfl, rfl, rfl, rfl, rfl, rfl, rfl, rfl, rfl, rfl⟩

theorem witness_ResetInputSetsResetValues :
    buildValid { pinned7 with inbox := [.reset] }.build = true ∧
      { pinned7 with inbox := [.reset] }.inbox = .reset :: [] := ⟨reset_valid, rfl⟩

theorem witness_ReservedRegistersAreRejected :
    (0x0016#16).toNat ≤ 0x0016 ∧ ¬ (0x0017#16).toNat ≤ 0x0016 ∧
      reply (.csrRead 0x0016#16) pinned7 = some (0, 0) ∧
      reply (.csrRead 0x0017#16) pinned7 = some (9, 0) := by decide

theorem witness_PortPermissions :
    pinned7.txn.port = .rd .rd0 ∧ pinned7.txn.din.length = (0#16).toNat ∧
      State.reset.txn.port = .p := by decide

/-- An `ILLEGAL` word and a command in the wrong state. -/
theorem witness_ErrorsChangeNoState :
    replyToWord .p 0x07 State.reset = some (0x01, 0) ∧
      replyToWord .p 5 (recordingAt 0) = some (0x03, 0) := by decide +kernel

theorem witness_ResponsesGoToTheIssuingPort :
    (nextOf (step (issue (.rd .rd1) 0 State.reset))).isSome = true ∧ Port.rd .rd0 ≠ .rd .rd1 := by
  decide +kernel

/-- One command for each status, `OK` and `BUSY` aside: the first failing check is the one reported. -/
theorem witness_ErrorsAreReportedInOrder :
    replyToWord (.rd .rd0) 0x00001003 State.reset = some (0x01, 0) ∧
      replyToWord (.rd .rd0) 3 State.reset = some (0x02, 0) ∧
      replyToWord .p 3 State.reset = some (0x03, 0) ∧
      replyToWord .p 3 (recordingAt 8191) = some (0x04, 0) ∧
      replyToWord (.rd .rd1) 0x00000911 pinned7 = some (0x05, 0) ∧
      replyToWord (.rd .rd0) 0x00000911 pinned0 = some (0x07, 0) ∧
      replyToWord (.rd .rd0) 0x00020911 pinned7 = some (0x00, 0x44CD1400) ∧
      replyToWord (.rd .rd0) 0x00030911 pinned7 = some (0x06, 0) ∧
      replyToWord .p 0x00170006 State.reset = some (0x09, 0) := by decide +kernel

theorem witness_ReadsChangeNoStateAndRepeat :
    (∃ t, exec .nop pinned7 = .next t) ∧ (∃ t, exec (.csrRead 0x16#16) pinned7 = .next t) ∧
      ∃ t, exec (.snapRead .pkMag 2#16) pinned7 = .next t := ⟨⟨_, rfl⟩, ⟨_, rfl⟩, ⟨_, rfl⟩⟩

theorem witness_ReaderPortsWriteOnlyTheirPin :
    pinned7.txn.port = .rd .rd0 ∧ (∃ t, exec .snapAcquire pinned7 = .next t) ∧ Reader.rd1 ≠ .rd0 ∧
      pinned pinned7.pin 7#32 = true := ⟨rfl, ⟨_, rfl⟩, by decide, by decide⟩

theorem witness_ConfigurationNeverChanges :
    ∃ t, step (issue .p 4 State.reset) = .next t := by
  have h : (nextOf (step (issue .p 4 State.reset))).isSome = true := by decide +kernel
  cases e : step (issue .p 4 State.reset) with
  | next t => exact ⟨t, rfl⟩
  | fault f => cases f
  | refused r => rw [e] at h; cases h

/-- The buffer with room for one byte and with none. -/
theorem witness_AccPushAppends :
    (∀ n, (withDin [1#8, 2#8] (recordingAt n)).txn.port = .p ∧
      (withDin [1#8, 2#8] (recordingAt n)).recState = .recording ∧
      (withDin [1#8, 2#8] (recordingAt n)).txn.din.length = (2#16).toNat) ∧
    reply (.accPush 2#16) (withDin [1#8, 2#8] (recordingAt 8191)) = some (0, 0x00010001) ∧
    reply (.accPush 2#16) (withDin [1#8, 2#8] (recordingAt 8192)) = some (0, 0x00010000) :=
  ⟨fun _ => ⟨rfl, rfl, rfl⟩, by decide, by decide⟩

theorem witness_PushesMayBeSplit :
    ∃ t t₁ t₂, exec (.accPush 2#16) (withDin ([1#8] ++ [2#8]) (recordingAt 0)) = .next t ∧
      exec (.accPush 1#16) (withDin [1#8] (recordingAt 0)) = .next t₁ ∧
      exec (.accPush 1#16) (withDin [2#8] t₁) = .next t₂ := ⟨_, _, _, rfl, rfl, rfl⟩

theorem witness_AccResetClearsProgress : (recordingAt 8192).txn.port = .p := rfl

/-- Two states that differ in the byte at `ACC_COUNT`. -/
theorem witness_BytesBeyondProgressAreUnobservable :
    agreeBelowProgress (recordingAt 3) { recordingAt 3 with fb := [(3, 1#8)] } ∧
      recordingAt 3 ≠ { recordingAt 3 with fb := [(3, 1#8)] } := by
  refine ⟨⟨rfl, fun a ha => ?_⟩, fun h => ?_⟩
  · have ha : a < 3 := ha
    have : a ≠ 3 := by omega
    simp [recordingAt, State.reset, resetOf, fbRead, List.lookup_cons, beq_false_of_ne this]
  · have := congrArg State.fb h
    simp [recordingAt, State.reset, resetOf] at this

theorem witness_NothingIsCapturedWhileIdle :
    State.reset.recState = .idle ∧ State.reset.txn.port = .p ∧
      State.reset.txn.din.length = (0#16).toNat ∧
      ∃ t, exec (.buttonEdge true) State.reset = .next t :=
  ⟨rfl, rfl, rfl, _, rfl⟩

/-- A falling level and a repeated one. -/
theorem witness_ButtonLevelWithoutEdge :
    State.reset.txn.port = .p ∧ State.reset.build.buttonMode = .rising ∧
      { State.reset with btnLevel := true }.btnLevel = true := by decide

/-- Both modes, both recording states. -/
theorem witness_ButtonEdgeMovesTheMachine :
    (resetOf buildToggle).txn.port = .p ∧ (resetOf buildToggle).build.buttonMode = .toggle ∧
      pinned (resetOf buildToggle).pin ((resetOf buildToggle).cur + 1#32) = false ∧
      State.reset.btnLevel = false ∧ State.reset.recState = .idle ∧
      (recordingAt 0).btnLevel = false ∧ (recordingAt 0).recState = .recording := by decide

/-- The recording states along a `BUTTON_EDGE 1`, `n` steps, and a `BUTTON_EDGE l`. -/
def pressAgain (n : Nat) (l : Bool) (s : State) : Option (RecState × RecState × RecState × Bool) :=
  (nextOf (exec (.buttonEdge true) s)).bind fun t =>
    (nextOf (Sys2Proof.core.run n t)).bind fun u =>
      (nextOf (exec (.buttonEdge l) { u with txn := idleRequest })).map fun v =>
        (t.recState, u.recState, v.recState, gateIsBusy u)

/-- V9.6 in RISING mode: a press, the release, a press; and in TOGGLE mode two events. -/
theorem witness_RestartClearsImpulseAndProgress :
    pressAgain 1 true (issue .p 0x00000004 (recordingAt 0)) =
        some (.idle, .idle, .recording, false) ∧
      pressAgain 0 false { recordingAt 0 with build := buildToggle } =
        some (.idle, .idle, .recording, false) ∧
      (recordingAt 0).recState = .recording := by decide +kernel

theorem witness_IdleTickRepublishes :
    State.reset.txn.port = .p ∧ State.reset.recState = .idle ∧
      pinned State.reset.pin (State.reset.cur + 1#32) = false := by decide

/-- One byte short of a frame. -/
theorem witness_PartialFramesAreNotAnalyzed :
    (recordingAt 8191).txn.port = .p ∧ (recordingAt 8191).recState = .recording ∧
      (recordingAt 8191).accCount < 8192 := by decide

/-- Exactly a frame, of zeros. -/
theorem witness_AnalyzeRunsThePipeline :
    (recordingAt 8192).txn.port = .p ∧ (recordingAt 8192).recState = .recording ∧
      8192 ≤ (recordingAt 8192).accCount ∧ buildValid (recordingAt 8192).build = true ∧
      (recordingAt 8192).build.gateBusy = false ∧
      pinned (recordingAt 8192).pin ((recordingAt 8192).cur + 1#32) = false := by decide +kernel

theorem witness_ZeroFrameHasZeroSpectrum :
    (∀ a, a < buildT1.frameBytes → fbRead (recordingAt 8192).fb a = 0#8) ∧
      ∀ x ∈ buildT1.hann, f32IsFinite x = true := by
  refine ⟨fun _ _ => rfl, ?_⟩
  have h : hannReference.all f32IsFinite = true := by decide +kernel
  exact List.all_eq_true.mp h

theorem witness_ZeroFrameIsNoError :
    (∀ a, a < (recordingAt 8192).build.frameBytes → fbRead (recordingAt 8192).fb a = 0#8) ∧
      (∀ x ∈ (recordingAt 8192).build.hann, f32IsFinite x = true) ∧
      f32Le 0#32 (recordingAt 8192).build.minImpulseFreq = true :=
  ⟨witness_ZeroFrameHasZeroSpectrum.1, witness_ZeroFrameHasZeroSpectrum.2, by decide⟩

theorem witness_NormalisedSamplesAreInRange :
    2 ^ 31 - 64 ≤ (0x7FFFFFC0#32).toInt ∧ ¬ 2 ^ 31 - 64 ≤ (0x7FFFFFBF#32).toInt := by decide

/-- A tie: `2^24 + 1` lies midway between two values. -/
theorem witness_RoundingIsToNearestEven :
    0 < 1 ∧ f32Round (2 ^ 24 + 1) 1 < f32InfMag ∧ f32Round (2 ^ 24 + 1) 1 = 2 ^ 24 ∧
      2 ^ 24 + 1 < f32InfMag := by decide +kernel

/-- A difference, the largest finite value doubled, and each kind of special operand. -/
theorem witness_ArithmeticIsCorrectlyRounded :
    f32IsFinite 0x3F800001#32 = true ∧ f32IsFinite 0xBF7FFFFF#32 = true ∧
      f32Add 0x3F800001#32 0xBF7FFFFF#32 = 0x34400000#32 ∧
      f32IsFinite 0x7F7FFFFF#32 = true ∧ f32Add 0x7F7FFFFF#32 0x7F7FFFFF#32 = 0x7F800000#32 ∧
      f32IsZero 0x3F800001#32 = false ∧ f32Sign 0x3F800001#32 = false ∧
      f32IsInf 0x7F800000#32 = true ∧ f32IsNaN (f32Add 0x7F800000#32 0x3F800000#32) = false ∧
      f32IsNaN (f32Sub 0x3F800000#32 0x7F800000#32) = false ∧
      f32IsNaN (f32Mul 0x7F800000#32 0x3F800000#32) = false ∧
      f32IsNaN (f32Div 0x3F800000#32 0#32) = false ∧ f32IsZero 0x80000000#32 = true := by
  decide +kernel

theorem witness_ComparisonsFollowTheValues :
    f32IsNaN 0x7F800001#32 = true ∧ f32IsFinite 0x7F7FFFFF#32 = true ∧
      f32IsFinite 0xFF7FFFFF#32 = true ∧ f32Lt 0x80000000#32 0#32 = false ∧
      f32IsNaN 0x7F800000#32 = false ∧ f32IsInf 0x7F800000#32 = true ∧
      f32IsInf 0xFF800000#32 = true := by decide

theorem witness_DominantBinIsLargestQualifying :
    dominantBin buildT1 (sparse 21 [(10, 0x3F000000), (20, 0x3F000000)]) = some 10 ∧
      f32Gt 0x3F000000#32 (threshold buildT1 20) = true := by decide +kernel

theorem witness_NoQualifyingBinGivesZero :
    (detectPeak buildT1 (sparse 11 [(10, 0x3C23D70A)])).valid = false ∧
      (detectPeak buildT1 (sparse 11 [(10, 0x3C23D70B)])).valid = true := by decide +kernel

/-- Bin 0, the first interior bin, and an interior bin with `denom = 0`. -/
theorem witness_DominantFrequencyIsRefined :
    dominantBin buildT1 (sparse 1 [(0, 0x3F000000)]) = some 0 ∧
      dominantBin buildT1 (sparse 2 [(1, 0x3F000000)]) = some 1 ∧
      dominantBin buildT2 (sparse 44 [(41, 0x3F000000), (42, 0x3F800000), (43, 0x3FC00000)]) =
        some 42 ∧
      f32Add (f32Sub 0x3F000000#32 (f32Mul 0x40000000#32 0x3F800000#32)) 0x3FC00000#32 = 0#32 := by
  decide +kernel

theorem witness_SymmetricNeighboursGiveBinFrequency :
    64 < 1024 ∧
      elemAt (sparse 66 [(63, 0x3E800000), (64, 0x3F800000), (65, 0x3E800000)]) (64 - 1) =
        elemAt (sparse 66 [(63, 0x3E800000), (64, 0x3F800000), (65, 0x3E800000)]) (64 + 1) ∧
      f32IsFinite 0x3E800000#32 = true ∧ f32IsNaN 0x3F800000#32 = false := by decide +kernel

theorem witness_HarmonicPeaksAreSound : 0 < buildT1.nbins ∧ 1023 < buildT1.nbins := by decide

/-- Six positive bins below: the smallest is left out, and of two equal ones the higher. -/
theorem witness_LowerPicksAreTheLargest :
    let mag := sparse 8 [(1, 0x3F800000), (2, 0x40000000), (3, 0x40400000), (4, 0x40800000),
      (5, 0x40A00000), (6, 0x3F800000), (7, 0x40E00000)]
    (mag.all fun x => !f32IsNaN x) = true ∧ f32Gt (elemAt mag 6) 0#32 = true ∧
      (findPeaks buildT1 mag 7).map (·.idx) = [1, 2, 3, 4, 5, 7] := by decide +kernel

/-- Equal bins 2 and 3: the lower one is picked first; after bin 4 nothing is positive. -/
theorem witness_UpperPicksDominateTheirRight :
    let mag := sparse 5 [(0, 0x3F800000), (1, 0x3F000000), (2, 0x3F400000), (3, 0x3F400000),
      (4, 0x3E800000)]
    (mag.all fun x => !f32IsNaN x) = true ∧
      (findPeaks buildT1 mag 0).map (·.idx) = [0, 2, 3, 4] ∧ buildT1.peaksPerSide = 5 := by
  decide +kernel

theorem witness_ImpulsesNeedAllThreeConditions :
    let mag := sparse 11 [(10, 0x3F000000)]
    f32Le 0#32 buildT1.minImpulseFreq = true ∧
      (impulseStep buildT1 0#32 0#64 mag (detectPeak buildT1 mag) 101#64).event.isSome = true := by
  decide +kernel

theorem witness_EventsKeepTheRefractoryWindow :
    (∃ t, step (issue .p 4 State.reset) = .next t) ∧
      ∀ rest, (issue .p 4 State.reset).inbox ≠ .reset :: rest :=
  ⟨witness_ConfigurationNeverChanges, fun _ h => by cases h⟩

theorem witness_SnapAcquirePinsCurrent : pinned7.txn.port = .rd .rd0 ∧ Reader.rd1 ≠ .rd0 := by decide

theorem witness_SnapReleaseDropsPin :
    (onPort (.rd .rd1) State.reset).txn.port = .rd .rd1 ∧ Reader.rd0 ≠ .rd1 := by decide

/-- No pin; a pin without an event; a pin with three peaks, index 2 and 3, bin 1023 and 1024. -/
theorem witness_SnapReadAnswersFields :
    pinOf (onPort (.rd .rd0) State.reset).pin .rd0 = none ∧
      (pinOf pinned0.pin .rd0 = some 0#32 ∧ snapAt pinned0.snap 0#32 = some resetRecord ∧
        resetRecord.imp = none) ∧
      (pinOf pinned7.pin .rd0 = some 7#32 ∧ snapAt pinned7.snap 7#32 = some record3 ∧
        record3.imp = some event3 ∧ (event3.peaks[(2#16).toNat]?).isSome = true ∧
        event3.peaks.length ≤ (3#16).toNat) ∧
      (1023#16).toNat < 1024 ∧ 1024 ≤ (1024#16).toNat := by
  refine ⟨rfl, ⟨rfl, rfl, rfl⟩, ⟨rfl, rfl, rfl, by decide, by decide⟩, by decide, by decide⟩

theorem witness_PinnedReaderSeesOneRecord :
    pinOf (issue .p 5 pinned7).pin .rd0 = some 7#32 ∧
      (∀ x ∈ (issue .p 5 pinned7).inbox.take 1, x ≠ .reset ∧
        ∀ q, x = .command q → q.port = .rd .rd0 →
          q.cmd ≠ 0x00000010#32 ∧ q.cmd ≠ 0x00000012#32) ∧
      (nextOf (Sys2Proof.core.run 1 (issue .p 5 pinned7))).isSome = true := by
  refine ⟨rfl, ?_, by decide +kernel⟩
  intro x hx
  have hx : x = .command (request .p 5#32) := by simpa [issue, request] using hx
  subst hx
  refine ⟨by simp, fun q hq hp => ?_⟩
  injection hq with hq
  rw [← hq] at hp
  cases hp

/-- `RD0` pins 7 while `IDLE_TICK` publishes 8: 7 stays pinned, and 7 is current before only. -/
theorem witness_StoredRecordsNeverChange :
    (nextOf (step (issue .p 5 pinned7))).map (fun t => (t.cur, pinned t.pin 7#32)) =
        some (8#32, true) ∧
      pinned pinned7.pin 7#32 = true ∧
      (nextOf (step (issue .p 2 pinned7))).map (·.cur) = some pinned7.cur ∧
      ∀ rest, (issue .p 5 pinned7).inbox ≠ .reset :: rest :=
  ⟨by decide +kernel, by decide, by decide +kernel, fun _ h => by cases h⟩

/-- A command that publishes, and one that does not. -/
theorem witness_VersionsCountPublishes :
    (nextOf (step (issue .p 5 State.reset))).map (·.cur) = some 1#32 ∧
      (nextOf (step (issue .p 2 State.reset))).map (·.cur) = some 0#32 := by decide +kernel

theorem witness_RefusedFormsStopByName :
    State.reset.txn.din.length ≠ (1#16).toNat ∧ reachesPublish .idleTick (pinnedNext State.reset) ∧
      reachesPublish (.buttonEdge true) (pinnedNext State.reset) ∧
      reachesPublish .analyze (pinnedNext (recordingAt 8192)) ∧
      gateIsBusy (pinnedNext State.reset) = false ∧
      pinned (pinnedNext State.reset).pin ((pinnedNext State.reset).cur + 1#32) = true :=
  ⟨by decide, ⟨rfl, .inr (.inr ⟨rfl, rfl⟩)⟩, ⟨rfl, .inr (.inl ⟨_, rfl, .inr ⟨rfl, rfl⟩⟩)⟩,
    ⟨rfl, .inl ⟨rfl, rfl, le_refl _⟩⟩, rfl, by decide⟩

/-- The invariants hold of a state whose next input is a command that steps. -/
theorem witness_StepKeepsInvariants :
    FrameInv (issue .p 4 State.reset) ∧ StoreInv (issue .p 4 State.reset) ∧
      RecordInv (issue .p 4 State.reset) ∧ PublishedInv (issue .p 4 State.reset) ∧
      ∃ t, step (issue .p 4 State.reset) = .next t := by
  have hr : SnapshotOk buildT1 resetRecord :=
    ⟨List.length_replicate, fun e h => by cases h⟩
  refine ⟨⟨by decide, by decide⟩, storeInv_of_current _ _ rfl rfl,
    ⟨hr, fun x hx => ?_, by decide, fun e h => by cases h⟩, fun _ => rfl,
    witness_ConfigurationNeverChanges⟩
  have hx : x = (0#32, resetRecord) := List.mem_singleton.mp hx
  subst hx
  exact hr

end Sys2Proof.Tests
end

section
/-! Proofs of the statements of 00_scope.md: the configuration, the step around a command, and the
binary32 arithmetic. The first parts are laws of binary32 that the statements need. -/

namespace Sys2Proof.Machine

open Sys2Proof.Config

/-! ## Classes of encodings -/

theorem f32IsNaN_iff (a : F32) : f32IsNaN a = true ↔ f32InfMag < f32Mag a := by
  rw [f32IsNaN, decide_eq_true_eq]

theorem f32IsInf_iff (a : F32) : f32IsInf a = true ↔ f32Mag a = f32InfMag := by
  rw [f32IsInf, beq_iff_eq]

theorem not_nan_of_inf {a : F32} (h : f32IsInf a = true) : f32IsNaN a = false := by
  rw [f32IsInf_iff] at h
  rw [← Bool.not_eq_true, f32IsNaN_iff]
  omega

theorem finite_of_zero {a : F32} (h : f32IsZero a = true) : f32IsFinite a = true := by
  rcases (f32IsZero_iff a).1 h with rfl | rfl <;> decide

theorem not_nan_of_zero {a : F32} (h : f32IsZero a = true) : f32IsNaN a = false :=
  not_nan_of_finite (finite_of_zero h)

theorem not_inf_of_zero {a : F32} (h : f32IsZero a = true) : f32IsInf a = false :=
  not_inf_of_finite (finite_of_zero h)

/-- A value is a NaN, an infinity or finite. -/
theorem nan_or_inf_or_finite (a : F32) :
    f32IsNaN a = true ∨ f32IsInf a = true ∨ f32IsFinite a = true := by
  rw [f32IsNaN_iff, f32IsInf_iff, f32IsFinite_iff]
  omega

theorem f32IsZero_eq_false_iff (a : F32) : f32IsZero a = false ↔ 0 < f32Mag a := by
  rw [f32IsZero, beq_eq_false_iff_ne, Nat.pos_iff_ne_zero]

/-- An infinity is determined by its sign. -/
theorem eq_f32Inf_of_inf {a : F32} (h : f32IsInf a = true) : a = f32Inf (f32Sign a) := by
  rw [f32Inf, ← (f32IsInf_iff a).1 h, f32OfMag_sign_mag]

/-- A zero is determined by its sign. -/
theorem eq_f32Zero_of_zero {a : F32} (h : f32IsZero a = true) : a = f32Zero (f32Sign a) := by
  rw [f32IsZero, beq_iff_eq] at h
  rw [f32Zero, ← h, f32OfMag_sign_mag]

@[simp] theorem f32IsNaN_f32Inf (sign : Bool) : f32IsNaN (f32Inf sign) = false :=
  not_nan_f32OfMag sign _ (le_refl _)

@[simp] theorem f32IsNaN_f32Zero (sign : Bool) : f32IsNaN (f32Zero sign) = false :=
  not_nan_f32OfMag sign 0 (Nat.zero_le _)

@[simp] theorem f32IsNaN_f32OfMag_f32Round (sign : Bool) (num den : Nat) :
    f32IsNaN (f32OfMag sign (f32Round num den)) = false :=
  not_nan_f32OfMag sign _ (f32Round_le num den)

@[simp] theorem f32IsNaN_f32OfMag_f32SqrtRound (sign : Bool) (x : Nat) :
    f32IsNaN (f32OfMag sign (f32SqrtRound x)) = false :=
  not_nan_f32OfMag sign _ (Nat.min_le_right _ _)

/-! ## Change and clearing of the sign -/

@[simp] theorem f32Mag_f32Neg (a : F32) : f32Mag (f32Neg a) = f32Mag a := by
  rw [f32Neg_eq, f32Mag_f32OfMag _ _ (f32Mag_lt a)]

@[simp] theorem f32Sign_f32Neg (a : F32) : f32Sign (f32Neg a) = !f32Sign a := by
  rw [f32Neg_eq, f32Sign_f32OfMag _ _ (f32Mag_lt a)]

@[simp] theorem f32IsNaN_f32Neg (a : F32) : f32IsNaN (f32Neg a) = f32IsNaN a := by
  rw [f32IsNaN, f32Mag_f32Neg, f32IsNaN]

@[simp] theorem f32IsInf_f32Neg (a : F32) : f32IsInf (f32Neg a) = f32IsInf a := by
  rw [f32IsInf, f32Mag_f32Neg, f32IsInf]

@[simp] theorem f32IsFinite_f32Neg (a : F32) : f32IsFinite (f32Neg a) = f32IsFinite a := by
  rw [f32IsFinite, f32Mag_f32Neg, f32IsFinite]

@[simp] theorem f32Val_f32Neg (a : F32) : f32Val (f32Neg a) = -f32Val a := by
  rw [f32Val_sign_mag, f32Val_sign_mag, f32Sign_f32Neg, f32Mag_f32Neg]
  cases f32Sign a <;> simp

theorem f32Abs_toNat (a : F32) : (f32Abs a).toNat = a.toNat % 2 ^ 31 := by
  rw [f32Abs, BitVec.toNat_and, show (0x7FFFFFFF#32).toNat = 2 ^ 31 - 1 from rfl,
    Nat.and_two_pow_sub_one_eq_mod]

/-! ## Correct rounding of signed results -/

/-- The rounding of an exact result given as a sign and a quotient of naturals. -/
theorem roundsTo_of_eq {x : ℝ} {num den : Nat} {neg : Bool} (hd : 0 < den)
    (hx : x = if neg then -((num : ℝ) / den) else (num : ℝ) / den) :
    roundsTo x neg (f32OfMag neg (f32Round num den)) :=
  hx ▸ roundsTo_f32Round num den hd neg

/-- The rounding of an exact integer: its sign is its own, and free for zero. -/
theorem roundsTo_int (i : Int) (neg : Bool) (hneg : i ≠ 0 → neg = decide (i < 0)) :
    roundsTo i neg (f32OfMag neg (f32Round i.natAbs 1)) := by
  refine roundsTo_of_eq Nat.one_pos ?_
  rw [Nat.cast_one, div_one]
  by_cases h0 : i = 0
  · simp [h0]
  · rw [hneg h0]
    by_cases hlt : i < 0
    · simp [hlt, Nat.cast_natAbs, abs_of_neg hlt]
    · simp [hlt, Nat.cast_natAbs, abs_of_nonneg (not_lt.1 hlt)]

/-- A sum of exactly 0 needs no case of its own: 0 rounds to the zero of the chosen sign. -/
theorem f32AddFinite_eq (a b : F32) :
    f32AddFinite a b =
      f32OfMag
        (if f32Val a + f32Val b = 0 then f32Sign a && f32Sign b
          else decide (f32Val a + f32Val b < 0))
        (f32Round (f32Val a + f32Val b).natAbs 1) := by
  rw [f32AddFinite]
  split
  · rw [‹f32Val a + f32Val b = 0›, Int.natAbs_zero, f32Round_zero 1 Nat.one_pos, f32Zero]
  · rfl

theorem roundsTo_f32Add {a b : F32} (ha : f32IsFinite a = true) (hb : f32IsFinite b = true) :
    roundsTo (f32Val a + f32Val b)
      (if f32Val a + f32Val b = 0 then f32Sign a && f32Sign b
        else decide (f32Val a + f32Val b < 0)) (f32Add a b) := by
  rw [f32Add_finite ha hb, f32AddFinite_eq, ← Int.cast_add]
  exact roundsTo_int _ _ fun h => if_neg h

/-- A difference is a sum, and so is its rounding. -/
theorem roundsTo_f32Sub {a b : F32} (ha : f32IsFinite a = true) (hb : f32IsFinite b = true) :
    roundsTo (f32Val a - f32Val b)
      (if f32Val a - f32Val b = 0 then f32Sign a && !f32Sign b
        else decide (f32Val a - f32Val b < 0)) (f32Sub a b) := by
  have h := roundsTo_f32Add (b := f32Neg b) ha (by rwa [f32IsFinite_f32Neg])
  rw [f32Sub]
  simpa only [f32Val_f32Neg, f32Sign_f32Neg, Int.cast_neg, ← sub_eq_add_neg] using h

/-- The value of an encoding as a real: its sign and its magnitude in units. -/
theorem cast_f32Val (a : F32) :
    (f32Val a : ℝ) = if f32Sign a then -(f32Units a : ℝ) else f32Units a := by
  rw [f32Val]
  cases f32Sign a <;> simp

theorem roundsTo_f32Mul {a b : F32} (ha : f32IsFinite a = true) (hb : f32IsFinite b = true) :
    roundsTo (f32Val a * f32Val b / 2 ^ 149) (f32Sign a != f32Sign b) (f32Mul a b) := by
  rw [f32Mul_finite ha hb]
  refine roundsTo_of_eq (Nat.two_pow_pos _) ?_
  rw [cast_f32Val, cast_f32Val, Nat.cast_mul, Nat.cast_pow, Nat.cast_ofNat]
  cases f32Sign a <;> cases f32Sign b <;> simp [neg_div]

theorem f32Units_pos {a : F32} (h : f32IsZero a = false) : 0 < f32Units a :=
  magUnits_strictMono ((f32IsZero_eq_false_iff a).1 h)

theorem roundsTo_f32Div {a b : F32} (ha : f32IsFinite a = true) (hb : f32IsFinite b = true)
    (hz : f32IsZero b = false) :
    roundsTo (f32Val a * 2 ^ 149 / f32Val b) (f32Sign a != f32Sign b) (f32Div a b) := by
  rw [f32Div_finite ha hb hz]
  refine roundsTo_of_eq (f32Units_pos hz) ?_
  rw [cast_f32Val, cast_f32Val, Nat.cast_mul, Nat.cast_pow, Nat.cast_ofNat]
  cases f32Sign a <;> cases f32Sign b <;> simp [neg_div, div_neg]

theorem f32Sqrt_zero {a : F32} (h : f32IsZero a = true) : f32Sqrt a = a := by
  simp [f32Sqrt, not_nan_of_zero h, h]

theorem f32Sqrt_pos {a : F32} (ha : f32IsFinite a = true) (hz : f32IsZero a = false)
    (hs : f32Sign a = false) :
    f32Sqrt a = f32OfMag false (f32SqrtRound (f32Units a * 2 ^ 149)) := by
  simp [f32Sqrt, not_nan_of_finite ha, not_inf_of_finite ha, hz, hs]

theorem roundsTo_f32Sqrt {a : F32} (ha : f32IsFinite a = true) (hs : f32Sign a = false) :
    roundsTo (Real.sqrt (f32Val a * 2 ^ 149)) false (f32Sqrt a) := by
  rw [cast_f32Val, hs, if_neg Bool.false_ne_true]
  cases hz : f32IsZero a
  · rw [f32Sqrt_pos ha hz hs]
    exact roundsTo_f32SqrtRound _ ((f32IsZero_eq_false_iff a).1 hz) ((f32IsFinite_iff a).1 ha)
  · have ha0 : a = 0#32 := by rw [eq_f32Zero_of_zero hz, hs]; rfl
    have h := roundsTo_int 0 false (fun h => absurd rfl h)
    rw [f32Sqrt_zero hz, ha0]
    simpa [f32Round_zero, show f32Units 0#32 = 0 from rfl, show f32OfMag false 0 = 0#32 from rfl]
      using h

theorem roundsTo_f32OfInt (i : Int) : roundsTo (i * 2 ^ 149) (decide (i < 0)) (f32OfInt i) := by
  have hsign : i * 2 ^ 149 < 0 ↔ i < 0 := by omega
  have h := roundsTo_int (i * 2 ^ 149) (decide (i < 0)) fun _ => decide_eq_decide.2 hsign.symm
  rwa [Int.natAbs_mul, Int.natAbs_pow, Int.cast_mul, Int.cast_pow, Int.cast_ofNat] at h

/-! ## NaNs, infinities and zeros -/

theorem f32IsNaN_f32AddFinite (a b : F32) : f32IsNaN (f32AddFinite a b) = false := by
  rw [f32AddFinite_eq]
  exact f32IsNaN_f32OfMag_f32Round ..

theorem f32IsNaN_f32Add_iff (a b : F32) :
    f32IsNaN (f32Add a b) = true ↔ f32IsNaN a = true ∨ f32IsNaN b = true ∨
      (f32IsInf a = true ∧ f32IsInf b = true ∧ f32Sign a ≠ f32Sign b) := by
  rw [f32Add]
  cases ha : f32IsNaN a
  case true => simp [f32IsNaN_f32NaN]
  cases hb : f32IsNaN b
  case true => simp [f32IsNaN_f32NaN]
  cases hia : f32IsInf a
  · cases hib : f32IsInf b <;> simp [hb, f32IsNaN_f32AddFinite]
  · by_cases h : f32IsInf b = true ∧ f32Sign a ≠ f32Sign b
    · simp [h, f32IsNaN_f32NaN]
    · have h' : (f32IsInf b && f32Sign a != f32Sign b) = false := by simpa using h
      simpa [h', ha] using h

/-- An infinite term of a sum that is no NaN is the sum: two infinite terms are the same one. -/
theorem f32Add_inf {a b : F32} (h : f32IsNaN (f32Add a b) = false) :
    (f32IsInf a = true → f32Add a b = a) ∧ (f32IsInf b = true → f32Add a b = b) := by
  have hn := (f32IsNaN_f32Add_iff a b).not.1 (by simp [h])
  simp only [not_or, not_and, Bool.not_eq_true, not_not] at hn
  obtain ⟨ha, hb, hsign⟩ := hn
  have left : f32IsInf a = true → f32Add a b = a := by
    intro hia
    cases hib : f32IsInf b
    · simp [f32Add, ha, hb, hia, hib]
    · simp [f32Add, ha, hb, hia, hsign hia hib]
  refine ⟨left, fun hib => ?_⟩
  cases hia : f32IsInf a
  · simp [f32Add, ha, hb, hia, hib]
  · rw [left hia, eq_f32Inf_of_inf hia, hsign hia hib, ← eq_f32Inf_of_inf hib]

theorem f32IsNaN_f32Sub_iff (a b : F32) :
    f32IsNaN (f32Sub a b) = true ↔ f32IsNaN a = true ∨ f32IsNaN b = true ∨
      (f32IsInf a = true ∧ f32IsInf b = true ∧ f32Sign a = f32Sign b) := by
  simp [f32Sub, f32IsNaN_f32Add_iff]

theorem f32Sub_inf {a b : F32} (h : f32IsNaN (f32Sub a b) = false) :
    (f32IsInf a = true → f32Sub a b = a) ∧
      (f32IsInf b = true → f32Sub a b = f32Inf (!f32Sign b)) := by
  obtain ⟨left, right⟩ := f32Add_inf h
  refine ⟨left, fun hb => ?_⟩
  have hb' : f32IsInf (f32Neg b) = true := by rwa [f32IsInf_f32Neg]
  rw [f32Sub, right hb', eq_f32Inf_of_inf hb', f32Sign_f32Neg]

theorem not_zero_of_inf {a : F32} (h : f32IsInf a = true) : f32IsZero a = false :=
  Bool.eq_false_iff.2 fun hz => by simp [not_inf_of_zero hz] at h

theorem f32IsNaN_f32Mul_iff (a b : F32) :
    f32IsNaN (f32Mul a b) = true ↔ f32IsNaN a = true ∨ f32IsNaN b = true ∨
      (f32IsInf a = true ∧ f32IsZero b = true) ∨ (f32IsZero a = true ∧ f32IsInf b = true) := by
  rw [f32Mul]
  cases ha : f32IsNaN a
  case true => simp [f32IsNaN_f32NaN]
  cases hb : f32IsNaN b
  case true => simp [f32IsNaN_f32NaN]
  cases hia : f32IsInf a
  case true =>
    cases hzb : f32IsZero b <;> simp [not_zero_of_inf hia, f32IsNaN_f32NaN]
  cases hib : f32IsInf b
  · simp
  · cases hza : f32IsZero a <;> simp [not_zero_of_inf hib, f32IsNaN_f32NaN]

/-- A product with an infinite factor that is no NaN is the infinity of its sign. -/
theorem f32Mul_inf {a b : F32} (h : f32IsNaN (f32Mul a b) = false)
    (hi : f32IsInf a = true ∨ f32IsInf b = true) :
    f32Mul a b = f32Inf (f32Sign a != f32Sign b) := by
  have hn := (f32IsNaN_f32Mul_iff a b).not.1 (by simp [h])
  simp only [not_or, not_and, Bool.not_eq_true] at hn
  obtain ⟨ha, hb, hzb, hza⟩ := hn
  rcases hi with hi | hi
  · simp [f32Mul, ha, hb, hi, not_zero_of_inf hi, hzb hi]
  · have hza : f32IsZero a = false := Bool.eq_false_iff.2 fun hz => by simp [hza hz] at hi
    simp [f32Mul, ha, hb, hi, not_zero_of_inf hi, hza]

theorem f32IsNaN_f32Div_iff (a b : F32) :
    f32IsNaN (f32Div a b) = true ↔ f32IsNaN a = true ∨ f32IsNaN b = true ∨
      (f32IsInf a = true ∧ f32IsInf b = true) ∨ (f32IsZero a = true ∧ f32IsZero b = true) := by
  rw [f32Div]
  cases ha : f32IsNaN a
  case true => simp [f32IsNaN_f32NaN]
  cases hb : f32IsNaN b
  case true => simp [f32IsNaN_f32NaN]
  cases hia : f32IsInf a
  case true =>
    cases hib : f32IsInf b <;> simp [not_zero_of_inf hia, f32IsNaN_f32NaN]
  cases hib : f32IsInf b
  case true => simp [not_zero_of_inf hib]
  cases hzb : f32IsZero b
  · simp
  · cases hza : f32IsZero a <;> simp [f32IsNaN_f32NaN]

/-- The quotients that are no NaN with an infinite operand or a zero divisor. -/
theorem f32Div_special {a b : F32} (h : f32IsNaN (f32Div a b) = false) :
    (f32IsInf a = true ∨ f32IsZero b = true → f32Div a b = f32Inf (f32Sign a != f32Sign b)) ∧
      (f32IsInf b = true → f32Div a b = f32Zero (f32Sign a != f32Sign b)) := by
  have hn := (f32IsNaN_f32Div_iff a b).not.1 (by simp [h])
  simp only [not_or, not_and, Bool.not_eq_true] at hn
  obtain ⟨ha, hb, hinf, hzero⟩ := hn
  constructor
  · rintro (hia | hzb)
    · simp [f32Div, ha, hb, hia, hinf hia]
    · have hza : f32IsZero a = false := Bool.eq_false_iff.2 fun hz => by simp [hzero hz] at hzb
      simp [f32Div, ha, hb, not_inf_of_zero hzb, hzb, hza]
  · intro hib
    have hia : f32IsInf a = false := Bool.eq_false_iff.2 fun hi => by simp [hinf hi] at hib
    simp [f32Div, ha, hb, hia, hib]

theorem f32IsNaN_f32Sqrt_iff (a : F32) :
    f32IsNaN (f32Sqrt a) = true ↔
      f32IsNaN a = true ∨ (f32Sign a = true ∧ f32IsZero a = false) := by
  rw [f32Sqrt]
  cases ha : f32IsNaN a
  case true => simp [f32IsNaN_f32NaN]
  cases hz : f32IsZero a
  case true => simp [ha]
  cases hs : f32Sign a
  · cases hi : f32IsInf a <;> simp [ha]
  · simp [f32IsNaN_f32NaN]

/-! ## Order with infinities -/

theorem f32Key_le_iff (a b : F32) : f32Key a ≤ f32Key b ↔ f32Val a ≤ f32Val b := by
  rw [← not_lt, f32Key_lt_iff, not_lt]

theorem f32Lt_of_not_nan {a b : F32} (ha : f32IsNaN a = false) (hb : f32IsNaN b = false) :
    f32Lt a b = true ↔ f32Key a < f32Key b := by
  simp [f32Lt, ha, hb]

theorem f32Le_of_not_nan {a b : F32} (ha : f32IsNaN a = false) (hb : f32IsNaN b = false) :
    f32Le a b = true ↔ f32Key a ≤ f32Key b := by
  simp [f32Le, ha, hb]

/-- The infinities are the two ends of the order of the numbers. -/
theorem f32Key_bounds {a : F32} (h : f32IsNaN a = false) :
    -(f32InfMag : Int) ≤ f32Key a ∧ f32Key a ≤ f32InfMag := by
  rw [← Bool.not_eq_true, f32IsNaN_iff] at h
  rw [f32Key]
  split <;> omega

/-- No other encoding shares the key of an infinity. -/
theorem f32Key_eq_end_iff (a : F32) (sign : Bool) :
    f32Key a = (if sign then -(f32InfMag : Int) else f32InfMag) ↔ a = f32Inf sign := by
  constructor
  · intro h
    have pos : 0 < f32InfMag := by decide
    obtain ⟨hsign, hmag⟩ : f32Sign a = sign ∧ f32Mag a = f32InfMag := by
      rw [f32Key] at h
      cases hs : f32Sign a <;> cases sign <;> simp [hs] at h ⊢ <;> omega
    rw [f32Inf, ← hsign, ← hmag, f32OfMag_sign_mag]
  · rintro rfl
    exact f32Key_f32OfMag sign _ (by decide)

theorem f32Key_eq_inf_iff (a : F32) : f32Key a = f32InfMag ↔ a = 0x7F800000#32 :=
  f32Key_eq_end_iff a false

theorem f32Key_eq_neg_inf_iff (a : F32) : f32Key a = -(f32InfMag : Int) ↔ a = 0xFF800000#32 :=
  f32Key_eq_end_iff a true

theorem eq_inf_or_eq_neg_inf {a : F32} (h : f32IsInf a = true) :
    a = 0x7F800000#32 ∨ a = 0xFF800000#32 := by
  rw [eq_f32Inf_of_inf h]
  cases f32Sign a
  · exact .inl rfl
  · exact .inr rfl

/-- With an infinite operand only the two ends of the order decide. -/
theorem f32Le_iff_of_inf {a b : F32} (ha : f32IsNaN a = false) (hb : f32IsNaN b = false)
    (hi : f32IsInf a = true ∨ f32IsInf b = true) :
    f32Le a b = true ↔ a = 0xFF800000#32 ∨ b = 0x7F800000#32 := by
  obtain ⟨la, ua⟩ := f32Key_bounds ha
  obtain ⟨lb, ub⟩ := f32Key_bounds hb
  have pos : (0 : Int) < f32InfMag := by decide
  have ends : f32Key a = f32InfMag ∨ f32Key a = -(f32InfMag : Int) ∨
      f32Key b = f32InfMag ∨ f32Key b = -(f32InfMag : Int) := by
    simp only [f32Key_eq_inf_iff, f32Key_eq_neg_inf_iff, ← or_assoc]
    rw [or_assoc]
    exact hi.imp eq_inf_or_eq_neg_inf eq_inf_or_eq_neg_inf
  rw [f32Le_of_not_nan ha hb, ← f32Key_eq_neg_inf_iff, ← f32Key_eq_inf_iff]
  omega

/-- Below is at most and different: an infinity has its key alone. -/
theorem f32Lt_iff_of_inf {a b : F32} (ha : f32IsNaN a = false) (hb : f32IsNaN b = false)
    (hi : f32IsInf a = true ∨ f32IsInf b = true) :
    f32Lt a b = true ↔ a ≠ b ∧ (a = 0xFF800000#32 ∨ b = 0x7F800000#32) := by
  have hkey : f32Key a = f32Key b → a = b := by
    intro h
    rcases hi with hi | hi <;> rcases eq_inf_or_eq_neg_inf hi with rfl | rfl
    · exact ((f32Key_eq_inf_iff b).1 (h ▸ by decide)).symm
    · exact ((f32Key_eq_neg_inf_iff b).1 (h ▸ by decide)).symm
    · exact (f32Key_eq_inf_iff a).1 (h ▸ by decide)
    · exact (f32Key_eq_neg_inf_iff a).1 (h ▸ by decide)
  rw [← f32Le_iff_of_inf ha hb hi, f32Lt_of_not_nan ha hb, f32Le_of_not_nan ha hb]
  exact ⟨fun h => ⟨fun e => absurd h (by simp [e]), h.le⟩,
    fun ⟨hne, h⟩ => lt_of_le_of_ne h (mt hkey hne)⟩

theorem comparisons_of_nan {a b : F32} (h : f32IsNaN a = true ∨ f32IsNaN b = true) :
    f32Lt a b = false ∧ f32Le a b = false ∧ f32Gt a b = false := by
  rcases h with h | h <;> simp [f32Lt, f32Le, f32Gt, h]

theorem comparisons_of_finite {a b : F32} (ha : f32IsFinite a = true) (hb : f32IsFinite b = true) :
    (f32Lt a b = true ↔ f32Val a < f32Val b) ∧ (f32Le a b = true ↔ f32Val a ≤ f32Val b) ∧
      (f32Gt a b = true ↔ f32Val b < f32Val a) := by
  have na := not_nan_of_finite ha
  have nb := not_nan_of_finite hb
  exact ⟨(f32Lt_of_not_nan na nb).trans (f32Key_lt_iff a b),
    (f32Le_of_not_nan na nb).trans (f32Key_le_iff a b),
    (f32Lt_of_not_nan nb na).trans (f32Key_lt_iff b a)⟩

/-! ## Steps -/

/-- The build is in no command's reach. -/
theorem Effect.build {s t : State} (h : Effect s t) : t.build = s.build := by
  cases h with
  | skipped _ _ hu _ _ => simpa using hu.build
  | published _ _ hu _ _ _ => simpa using hu.build
  | _ => simp

/-- A step whose next input is a command is its transaction. -/
theorem step_command {s : State} {q : Request} {rest : List Input}
    (hb : buildValid s.build = true) (hin : s.inbox = .command q :: rest) :
    step s = transact s q rest := by
  simp [step, hb, hin]

theorem step_idle {s : State} (hb : buildValid s.build = true) (hin : s.inbox = []) :
    step s = .next s := by
  simp [step, hb, hin]

theorem step_invalid {s : State} (hb : buildValid s.build = false) :
    step s = .refused .configurationInvalid := by
  simp [step, hb]

theorem transact_ok {s : State} {q : Request} {rest : List Input} {i : Instr}
    (hd : decode q.cmd = .ok i) : transact s q rest = exec i (latch s q rest) := by
  simp [transact, hd]

theorem buildValid_iff (b : Build) :
    buildValid b = true ↔
      geometryValid b = true ∧ f32Le 0#32 b.lowThr = true ∧ f32Le 0#32 b.highThr = true := by
  rw [buildValid, Bool.and_eq_true, Bool.and_eq_true, and_comm]

/-! ## The statements -/

/-- Settles O21: a step does nothing, resets, or has the effect of a command, and none of these writes
the build. -/
theorem configurationNeverChanges : Obligations.ConfigurationNeverChanges := by
  intro s t h
  obtain ⟨-, ⟨-, rfl⟩ | ⟨rest, -, rfl⟩ | ⟨q, rest, -, he⟩⟩ := step_cases h
  · rfl
  · rfl
  · exact he.build

/-- Settles O37: below infinity `f32Round` is `roundRaw`, which takes the nearer of the two encodings
around the quotient. -/
theorem roundingIsToNearestEven : Obligations.RoundingIsToNearestEven := by
  intro num den m hd hm err
  have herr : ∀ k, k < f32InfMag → err k = roundErr num den k := fun k hk => by
    have hk31 : k < 2 ^ 31 := lt_trans hk (by decide)
    simp only [err, roundErr, f32Units_f32OfMag _ _ hk31]
  refine ⟨f32Round_eq_inf_iff num den hd, f32Round_le num den, fun hlt => ?_⟩
  have hraw : f32Round num den = roundRaw num den := by rw [f32Round_eq] at *; omega
  rw [herr _ hlt, herr _ hm, hraw]
  exact roundRaw_nearest num den m hd

/-- Settles O38: each operation rounds its exact result, a sign and a quotient of naturals or a root,
and its branches name its NaNs and its other special results. -/
theorem arithmeticIsCorrectlyRounded : Obligations.ArithmeticIsCorrectlyRounded := by
  refine ⟨fun a b ha hb => ⟨roundsTo_f32Add ha hb, roundsTo_f32Sub ha hb, roundsTo_f32Mul ha hb,
    roundsTo_f32Div ha hb, roundsTo_f32Sqrt ha⟩, roundsTo_f32OfInt, f32Abs_toNat, fun a b => ?_⟩
  exact ⟨f32IsNaN_f32Add_iff a b, f32IsNaN_f32Sub_iff a b, f32IsNaN_f32Mul_iff a b,
    f32IsNaN_f32Div_iff a b, f32IsNaN_f32Sqrt_iff a, f32Add_inf, f32Sub_inf, f32Mul_inf,
    f32Div_special, f32Sqrt_zero, by decide⟩

/-- Settles O39: the comparisons compare keys, whose order is that of the values and whose two ends are
the infinities. -/
theorem comparisonsFollowTheValues : Obligations.ComparisonsFollowTheValues := by
  intro a b
  refine ⟨comparisons_of_nan, comparisons_of_finite, fun ha hb hi => ?_, f32IsZero_iff a⟩
  refine ⟨f32Le_iff_of_inf ha hb hi, f32Lt_iff_of_inf ha hb hi, ?_⟩
  rw [f32Gt, f32Lt_iff_of_inf hb ha hi.symm, ne_comm]

/-- Settles O5: a step on a command is its transaction, which executes what the word decodes to. -/
theorem stepExecutesDecodedCommand : Obligations.StepExecutesDecodedCommand := by
  intro s q rest i hb hin hd
  exact (step_command hb hin).trans (transact_ok hd)

/-- Settles O6: the step's branch for an empty list of inputs. -/
theorem nothingHappensBetweenCommands : Obligations.NothingHappensBetweenCommands :=
  fun _ hb hin => step_idle hb hin

/-- Settles O8: the check on a build is R9 and R10, and a step makes it before all else. -/
theorem invalidConfigurationsAreRefused : Obligations.InvalidConfigurationsAreRefused := by
  intro s
  refine ⟨?_, step_invalid⟩
  rw [buildValid_iff, geometryValid_iff]
  simp only [and_assoc]

end Sys2Proof.Machine
end

section
/-! Proofs of the statements of 10_state.md: the bytes beyond the progress are unobservable, what the
registers read, and what every step keeps of the frame buffer, the snapshot store and the records. -/

namespace Sys2Proof.Machine

open Sys2Proof.Config

/-! ## States alike below the progress -/

/-- Results that are next states which differ in bytes beyond the progress alone, or the same
refusal. -/
inductive StepsAlike : Result → Result → Prop where
  | next {s t : State} (h : agreeBelowProgress s t) : StepsAlike (.next s) (.next t)
  | refused (r : Refusal) : StepsAlike (.refused r) (.refused r)

/-- Two states that agree are one state with two frame buffers. -/
theorem agreeBelowProgress_iff {s t : State} :
    agreeBelowProgress s t ↔
      ∃ fb, t = { s with fb := fb } ∧ ∀ a, a < s.accCount → fbRead s.fb a = fbRead fb a :=
  ⟨fun ⟨e, h⟩ => ⟨t.fb, e, h⟩, by rintro ⟨fb, rfl, h⟩; exact ⟨rfl, h⟩⟩

namespace agreeBelowProgress

variable {s t : State}

theorem build (h : agreeBelowProgress s t) : t.build = s.build := by rw [h.1]
theorem accCount (h : agreeBelowProgress s t) : t.accCount = s.accCount := by rw [h.1]
theorem recState (h : agreeBelowProgress s t) : t.recState = s.recState := by rw [h.1]
theorem btnLevel (h : agreeBelowProgress s t) : t.btnLevel = s.btnLevel := by rw [h.1]
theorem cur (h : agreeBelowProgress s t) : t.cur = s.cur := by rw [h.1]
theorem snap (h : agreeBelowProgress s t) : t.snap = s.snap := by rw [h.1]
theorem pin (h : agreeBelowProgress s t) : t.pin = s.pin := by rw [h.1]
theorem inbox (h : agreeBelowProgress s t) : t.inbox = s.inbox := by rw [h.1]
theorem txn (h : agreeBelowProgress s t) : t.txn = s.txn := by rw [h.1]
theorem rsp (h : agreeBelowProgress s t) : t.rsp = s.rsp := by rw [h.1]

theorem gateIsBusy (h : agreeBelowProgress s t) : gateIsBusy t = gateIsBusy s := by
  rw [h.1]
  rfl

theorem regValue (h : agreeBelowProgress s t) (reg : Nat) : regValue t reg = regValue s reg := by
  rw [h.1]
  rfl

theorem takeCount (h : agreeBelowProgress s t) : takeCount t = takeCount s := by
  rw [h.1]
  rfl

theorem bufferFull (h : agreeBelowProgress s t) : bufferFull t = bufferFull s := by
  rw [h.1]
  rfl

theorem respond (h : agreeBelowProgress s t) (e : Status) (d : Word) :
    agreeBelowProgress (respond s e d) (respond t e d) := by
  obtain ⟨fb, rfl, hfb⟩ := agreeBelowProgress_iff.1 h
  exact ⟨rfl, hfb⟩

theorem latch (h : agreeBelowProgress s t) (q : Request) (rest : List Input) :
    agreeBelowProgress (latch s q rest) (latch t q rest) := by
  obtain ⟨fb, rfl, hfb⟩ := agreeBelowProgress_iff.1 h
  exact ⟨rfl, hfb⟩

/-- A reset leaves no progress. -/
theorem resetInput (h : agreeBelowProgress s t) (rest : List Input) :
    agreeBelowProgress (resetInput s rest) (resetInput t rest) := by
  obtain ⟨fb, rfl, -⟩ := agreeBelowProgress_iff.1 h
  exact ⟨rfl, fun _ _ => rfl⟩

theorem afterDraw (h : agreeBelowProgress s t) :
    agreeBelowProgress (afterDraw s) (afterDraw t) := by
  obtain ⟨fb, rfl, hfb⟩ := agreeBelowProgress_iff.1 h
  exact ⟨rfl, hfb⟩

theorem publishNow (h : agreeBelowProgress s t) :
    agreeBelowProgress (publishNow s) (publishNow t) := by
  obtain ⟨fb, rfl, hfb⟩ := agreeBelowProgress_iff.1 h
  exact ⟨rfl, hfb⟩

theorem withPin (h : agreeBelowProgress s t) (r : Reader) (v : Option Version) :
    agreeBelowProgress (withPin s r v) (withPin t r v) := by
  obtain ⟨fb, rfl, hfb⟩ := agreeBelowProgress_iff.1 h
  exact ⟨rfl, hfb⟩

/-- With no progress left every byte is unobservable. -/
theorem drop (h : agreeBelowProgress s t) :
    agreeBelowProgress { s with accCount := 0 } { t with accCount := 0 } := by
  obtain ⟨fb, rfl, -⟩ := agreeBelowProgress_iff.1 h
  exact ⟨rfl, fun a ha => absurd ha (Nat.not_lt_zero a)⟩

theorem level (h : agreeBelowProgress s t) (l : Bool) :
    agreeBelowProgress { s with btnLevel := l } { t with btnLevel := l } := by
  obtain ⟨fb, rfl, hfb⟩ := agreeBelowProgress_iff.1 h
  exact ⟨rfl, hfb⟩

theorem transition (h : agreeBelowProgress s t) :
    agreeBelowProgress (transition s) (transition t) := by
  obtain ⟨fb, rfl, -⟩ := agreeBelowProgress_iff.1 h
  refine ⟨?_, fun a ha => absurd ha (by simp)⟩
  cases hr : s.recState
  · simp only [transition_of_idle, hr]
  · simp only [transition_of_recording, hr]

/-- An accepted chunk is the same bytes at the same place. -/
theorem accepted (h : agreeBelowProgress s t) :
    agreeBelowProgress (accepted s) (accepted t) := by
  obtain ⟨fb, rfl, hfb⟩ := agreeBelowProgress_iff.1 h
  refine ⟨rfl, fun a ha => ?_⟩
  show fbRead (fbWrite s.fb s.accCount (takenBytes s)) a =
    fbRead (fbWrite fb s.accCount (takenBytes s)) a
  rw [fbRead_fbWrite, fbRead_fbWrite]
  split
  · rfl
  · rename_i hout
    rw [takenBytes_length] at hout
    rw [accepted_accCount] at ha
    exact hfb a (by omega)

/-- A full frame lies below the progress, so its spectrum is the same. -/
theorem frameSpectrum (h : agreeBelowProgress s t) (hf : s.build.frameBytes ≤ s.accCount) :
    frameSpectrum t = frameSpectrum s := by
  obtain ⟨fb, rfl, hfb⟩ := agreeBelowProgress_iff.1 h
  exact spectrumOf_congr s.build fun x hx => (hfb x (lt_of_lt_of_le hx hf)).symm

theorem framePeak (h : agreeBelowProgress s t) (hf : s.build.frameBytes ≤ s.accCount) :
    framePeak t = framePeak s := by
  rw [Machine.framePeak, h.frameSpectrum hf, h.1]
  rfl

theorem frameImpulse (h : agreeBelowProgress s t) (hf : s.build.frameBytes ≤ s.accCount) :
    frameImpulse t = frameImpulse s := by
  rw [Machine.frameImpulse, h.framePeak hf, h.frameSpectrum hf, h.1]
  rfl

theorem analyzed (h : agreeBelowProgress s t) (hf : s.build.frameBytes ≤ s.accCount) :
    agreeBelowProgress (analyzed s) (analyzed t) := by
  refine ⟨?_, fun a ha => absurd ha (Nat.not_lt_zero a)⟩
  rw [Machine.analyzed, h.frameSpectrum hf, h.framePeak hf, h.frameImpulse hf, h.1]
  rfl

end agreeBelowProgress

/-! ## Results alike -/

section
variable {s t : State} (h : agreeBelowProgress s t)
include h

theorem raiseStatus_alike (e : Status) : StepsAlike (raiseStatus s e) (raiseStatus t e) :=
  .next (h.respond e 0#32)

theorem succeed_alike (d : Word) : StepsAlike (succeed s d) (succeed t d) :=
  .next (h.respond .ok d)

theorem onProducer_alike {k l : Result} (hk : StepsAlike k l) :
    StepsAlike (onProducer s k) (onProducer t l) := by
  unfold onProducer
  rw [h.txn]
  split
  · exact hk
  · exact raiseStatus_alike h _

theorem onReader_alike {k l : Reader → Result} (hk : ∀ r, StepsAlike (k r) (l r)) :
    StepsAlike (onReader s k) (onReader t l) := by
  unfold onReader
  rw [h.txn]
  split
  · exact raiseStatus_alike h _
  · exact hk _

theorem publishThen_alike {k l : Bool → State → Result}
    (hk : ∀ b {u v}, agreeBelowProgress u v → StepsAlike (k b u) (l b v)) :
    StepsAlike (publishThen s k) (publishThen t l) := by
  unfold publishThen
  rw [h.gateIsBusy, h.pin, h.cur]
  split
  · exact hk _ h.afterDraw
  · split
    · exact .refused _
    · exact hk _ h.afterDraw.publishNow

theorem execAccPush_alike (len : Half) : StepsAlike (execAccPush len s) (execAccPush len t) := by
  unfold execAccPush
  rw [h.txn, h.accepted.bufferFull, h.takeCount, h.recState]
  split
  · exact .refused _
  · refine onProducer_alike h ?_
    split
    · exact raiseStatus_alike h _
    · exact succeed_alike h.accepted _

theorem execAccReset_alike : StepsAlike (execAccReset s) (execAccReset t) :=
  onProducer_alike h (succeed_alike h.drop _)

theorem execAnalyze_alike : StepsAlike (execAnalyze s) (execAnalyze t) := by
  refine onProducer_alike h ?_
  rw [h.recState, h.build, h.accCount]
  split
  · exact raiseStatus_alike h _
  · split
    · exact raiseStatus_alike h _
    · have hf : s.build.frameBytes ≤ s.accCount := by omega
      rw [h.framePeak hf, h.frameImpulse hf]
      exact publishThen_alike (h.analyzed hf) fun _ => (succeed_alike · _)

theorem execButtonEdge_alike (l : Bool) :
    StepsAlike (execButtonEdge l s) (execButtonEdge l t) := by
  have he : edge t.build.buttonMode l t.btnLevel = edge s.build.buttonMode l s.btnLevel := by
    rw [h.build, h.btnLevel]
  have hd : buttonData false false t.recState = buttonData false false s.recState := by
    rw [h.recState]
  refine onProducer_alike h ?_
  rw [he, hd]
  split
  · refine publishThen_alike (h.level l).transition fun b u v huv => ?_
    rw [huv.recState]
    exact succeed_alike huv _
  · exact succeed_alike (h.level l) _

theorem execIdleTick_alike : StepsAlike (execIdleTick s) (execIdleTick t) := by
  refine onProducer_alike h ?_
  rw [h.recState]
  split
  · exact raiseStatus_alike h _
  · exact publishThen_alike h fun _ => (succeed_alike · _)

theorem execCsrRead_alike (reg : Half) : StepsAlike (execCsrRead reg s) (execCsrRead reg t) := by
  unfold execCsrRead
  rw [h.regValue]
  split
  · exact raiseStatus_alike h _
  · exact succeed_alike h _

theorem execSnapAcquire_alike : StepsAlike (execSnapAcquire s) (execSnapAcquire t) := by
  refine onReader_alike h fun r => ?_
  rw [h.gateIsBusy, h.cur]
  split
  · exact raiseStatus_alike h.afterDraw _
  · exact succeed_alike (h.afterDraw.withPin r _) _

theorem execSnapRead_alike (sel : Selector) (idx : Half) :
    StepsAlike (execSnapRead sel idx s) (execSnapRead sel idx t) := by
  refine onReader_alike h fun r => ?_
  rw [h.pin, h.snap, h.build]
  split
  · exact raiseStatus_alike h _
  · split
    · exact .refused _
    · split
      · exact raiseStatus_alike h _
      · exact succeed_alike h _

theorem execSnapRelease_alike : StepsAlike (execSnapRelease s) (execSnapRelease t) :=
  onReader_alike h fun r => succeed_alike (h.withPin r none) _

theorem exec_alike (i : Instr) : StepsAlike (exec i s) (exec i t) := by
  cases i with
  | nop => exact succeed_alike h _
  | accPush len => exact execAccPush_alike h len
  | accReset => exact execAccReset_alike h
  | analyze => exact execAnalyze_alike h
  | buttonEdge level => exact execButtonEdge_alike h level
  | idleTick => exact execIdleTick_alike h
  | csrRead reg => exact execCsrRead_alike h reg
  | snapAcquire => exact execSnapAcquire_alike h
  | snapRead sel idx => exact execSnapRead_alike h sel idx
  | snapRelease => exact execSnapRelease_alike h

theorem step_alike : StepsAlike (step s) (step t) := by
  unfold step
  rw [h.build, h.inbox]
  split
  · exact .refused _
  · split
    · exact .next h
    · exact .next (h.resetInput _)
    · unfold transact
      split
      · exact raiseStatus_alike (h.latch _ _) _
      · exact exec_alike (h.latch _ _) _

end

/-! ## The state right after reset -/

theorem frameInv_resetOf (b : Build) : FrameInv (resetOf b) := ⟨rfl, Nat.zero_le _⟩

theorem storeInv_resetOf (b : Build) : StoreInv (resetOf b) where
  currentStored := rfl
  pinnedStored r v h := by cases r <;> cases h
  distinct := List.nodup_singleton _
  live x hx := .inl (by rw [List.mem_singleton.mp hx]; rfl)

theorem snapshotOk_resetSnapshot (b : Build) : SnapshotOk b (resetSnapshot b) where
  length := List.length_replicate
  event e h := by cases h

theorem recordInv_resetOf (b : Build) : RecordInv (resetOf b) where
  working := snapshotOk_resetSnapshot b
  stored x hx := by rw [List.mem_singleton.mp hx]; exact snapshotOk_resetSnapshot b
  recording := by simp [resetOf, resetSnapshot]
  lastEvent e h := by cases h

/-! ## Registers -/

theorem answers_csrRead {s : State} {reg : Half} {v : Word} (h : regValue s reg.toNat = some v) :
    answers (.csrRead reg) s v := by
  show execCsrRead reg s = _
  rw [execCsrRead, h]
  rfl

theorem rejects_csrRead {s : State} {reg : Half} (h : regValue s reg.toNat = none) :
    rejects (.csrRead reg) s .badReg := by
  show execCsrRead reg s = _
  rw [execCsrRead, h]
  rfl

theorem regValue_isSome {n : Nat} (s : State) (h : n ≤ 0x16) : ∃ v, regValue s n = some v := by
  interval_cases n <;> exact ⟨_, rfl⟩

theorem regValue_reserved {n : Nat} (s : State) (h : 0x16 < n) : regValue s n = none := by
  obtain ⟨k, rfl⟩ := Nat.exists_eq_add_of_le' (show 0x17 ≤ n from h)
  rfl

theorem extractLsb'_low (x : DWord) : x.extractLsb' 0 32 = BitVec.ofNat 32 x.toNat :=
  BitVec.eq_of_toNat_eq (by rw [BitVec.extractLsb'_toNat, Nat.shiftRight_zero, BitVec.toNat_ofNat])

theorem extractLsb'_high (x : DWord) :
    x.extractLsb' 32 32 = BitVec.ofNat 32 (x.toNat / 2 ^ 32) :=
  BitVec.eq_of_toNat_eq (by
    rw [BitVec.extractLsb'_toNat, Nat.shiftRight_eq_div_pow, BitVec.toNat_ofNat])

/-- The bits of `CFG_GEOM` at the values of R8: `BUTTON_MODE` alone is left open. -/
theorem geomReg_canonical {b : Build} (h : CanonicalR8 b) :
    geomReg b = if b.buttonMode = .toggle then 0x01020519#32 else 0x00020519#32 := by
  rw [geomReg_eq, h.peakHalfWindow, h.peaksPerSide, h.policy, h.gateBusy]
  cases b.buttonMode <;> rfl

theorem regValue_resetOf (b : Build) (hb : buildValid b = true) {n : Nat} (h₁ : 0x10 ≤ n)
    (h₂ : n ≤ 0x16) : regValue (resetOf b) n = some 0#32 := by
  have hn := nbins_pos_of_valid hb
  have hs : statusReg (resetOf b) = 0#32 := by
    have : ¬ 0 = b.frameBytes := by unfold Build.nbins at hn; unfold Build.frameBytes; omega
    rw [statusReg_eq]
    simp [resetOf, resetSnapshot, this]
  interval_cases n
  · exact congrArg some hs
  · rfl
  · rfl
  · rfl
  · exact congrArg some (extractLsb'_high 0#64)
  · rfl
  · rfl

/-! ## The frame buffer -/

/-- `FrameInv` reads the build, the frame buffer and the progress only, and less progress is safe. -/
theorem FrameInv.of_eq {s t : State} (h : FrameInv s) (hb : t.build = s.build) (hf : t.fb = s.fb)
    (hc : t.accCount ≤ s.accCount) : FrameInv t :=
  ⟨by rw [hb, hf]; exact h.canonical, by rw [hb]; exact hc.trans h.progress⟩

theorem FrameInv.latch {s : State} (h : FrameInv s) (q : Request) (rest : List Input) :
    FrameInv (latch s q rest) := h.of_eq rfl rfl (le_refl _)

theorem frameInv_accepted {s : State} (h : FrameInv s) : FrameInv (accepted s) := by
  have hroom := takeCount_le_room s
  have hprogress := h.progress
  refine ⟨fbWf_fbWrite s.build.frameBytes _ _ _ h.canonical ?_, ?_⟩
  · rw [takenBytes_length]; omega
  · rw [accepted_accCount, accepted_build]; omega

theorem Prepared.accCount_le {s u : State} (h : Prepared s u) : u.accCount ≤ s.accCount := by
  cases h <;> simp

theorem FrameInv.effect {s t : State} (h : FrameInv s) (he : Effect s t) : FrameInv t := by
  cases he with
  | push _ _ _ => exact (frameInv_accepted h).of_eq rfl rfl (le_refl _)
  | drop _ _ => exact h.of_eq rfl rfl (Nat.zero_le _)
  | skipped _ _ hu _ _ => exact h.of_eq hu.build hu.fb hu.accCount_le
  | published _ _ hu _ _ _ => exact h.of_eq hu.build hu.fb hu.accCount_le
  | _ => exact h.of_eq rfl rfl (le_refl _)

/-! ## The snapshot store -/

theorem StoreInv.latch {s : State} (h : StoreInv s) (q : Request) (rest : List Input) :
    StoreInv (latch s q rest) := h.of_eq rfl rfl rfl

theorem StoreInv.effect {s t : State} (h : StoreInv s) (he : Effect s t) : StoreInv t := by
  cases he with
  | skipped _ _ hu _ _ => exact h.of_eq hu.cur hu.snap hu.pin
  | published _ _ hu _ hv _ =>
    exact (storeInv_publishNow (h.of_eq hu.cur hu.snap hu.pin) hv).of_eq rfl rfl rfl
  | acquired r _ _ _ => exact (storeInv_withPin h r _ (.inr rfl)).of_eq rfl rfl rfl
  | released r _ _ => exact (storeInv_withPin h r _ (.inl rfl)).of_eq rfl rfl rfl
  | _ => exact h.of_eq rfl rfl rfl

theorem StoreInv.step {s t : State} (h : StoreInv s) (hst : step s = .next t) : StoreInv t := by
  obtain ⟨-, ⟨-, rfl⟩ | ⟨rest, -, rfl⟩ | ⟨q, rest, -, he⟩⟩ := step_cases hst
  · exact h
  · exact (storeInv_resetOf s.build).of_eq rfl rfl rfl
  · exact (h.latch q rest).effect he

/-- A version that stays current or pinned keeps its record. -/
theorem Effect.snapAt_eq {s t : State} (he : Effect s t) {v : Version}
    (hv : (v = s.cur ∧ v = t.cur) ∨ (pinned s.pin v = true ∧ pinned t.pin v = true)) :
    snapAt t.snap v = snapAt s.snap v := by
  cases he with
  | skipped _ _ hu _ _ => simp [hu.snap]
  | published _ u hu _ hfree _ =>
    simp only [respond_cur, publishNow_cur, afterDraw_cur, hu.cur] at hv
    rw [hu.pin, hu.cur] at hfree
    rw [respond_snap, snapAt_publishNow]
    simp only [afterDraw_cur, afterDraw_pin, afterDraw_snap, hu.cur, hu.pin, hu.snap]
    obtain ⟨rfl, hcur⟩ | ⟨hpin, -⟩ := hv
    · exact absurd hcur (by simp)
    · have hne : v ≠ s.cur + 1#32 := by rintro rfl; simp [hfree] at hpin
      rw [if_neg hne, if_pos hpin]
  | acquired r _ _ _ =>
    have hkept : v = s.cur ∨ pinned (setPin s.pin r (some s.cur)) v = true :=
      hv.imp (·.1) (·.2)
    simp [snapAt_retained, hkept]
  | released r _ _ =>
    have hkept : v = s.cur ∨ pinned (setPin s.pin r none) v = true := hv.imp (·.1) (·.2)
    simp [snapAt_retained, hkept]
  | _ => rfl

/-- `CUR` moves by a publish alone. -/
theorem Effect.cur_cases {s t : State} (he : Effect s t) :
    t.cur = s.cur ∨
      (t.cur = s.cur + 1#32 ∧ snapAt t.snap t.cur = some t.w ∧ s.txn.port = .p) := by
  cases he with
  | skipped _ _ hu _ _ => exact .inl hu.cur
  | published hp u hu _ _ _ =>
    refine .inr ⟨by simp [hu.cur], ?_, hp⟩
    rw [respond_snap, snapAt_publishNow]
    exact if_pos rfl
  | _ => exact .inl rfl

/-! ## The records -/

theorem selectedBins_length_le (b : Build) (mag : List F32) (d : Nat) :
    (selectedBins b mag d).length ≤ b.maxPeaks := by
  obtain ⟨above, below, e, -, habove, hbelow, -⟩ := selectedBins_spec b mag d
  rw [e]
  simp only [List.length_append, List.length_singleton]
  unfold Build.maxPeaks
  omega

theorem mem_selectedBins_self (b : Build) (mag : List F32) (d : Nat) :
    d ∈ selectedBins b mag d := by
  obtain ⟨above, below, e, -⟩ := selectedBins_spec b mag d
  simp [e]

/-- Each peak of the list is one of the selected bins. -/
theorem findPeaks_length_le (b : Build) (mag : List F32) (d : Nat) :
    (findPeaks b mag d).length ≤ b.maxPeaks := by
  have hidx : (findPeaks b mag d).map (·.idx) ⊆ selectedBins b mag d := by
    rw [findPeaks_idx]
    exact fun k hk => by simpa using (List.mem_filter.mp hk).2
  have hnodup : ((findPeaks b mag d).map (·.idx)).Nodup := by
    rw [findPeaks_idx]
    exact List.nodup_range.filter _
  have := (hnodup.subperm hidx).length_le
  rw [List.length_map] at this
  exact this.trans (selectedBins_length_le b mag d)

/-- The peaks of a bin of the spectrum are a sound list: that bin is one of them. -/
theorem peaksOk_findPeaks (b : Build) (mag : List F32) {d : Nat} (hd : d < b.nbins) :
    PeaksOk b (findPeaks b mag d) where
  nonempty := List.length_pos_of_mem
    ((mem_findPeaks ..).2 ⟨d, hd, mem_selectedBins_self b mag d, rfl⟩)
  bounded := findPeaks_length_le b mag d
  ascending := findPeaks_ascending b mag d
  inSpectrum p hp := by
    obtain ⟨k, hk, -, rfl⟩ := (mem_findPeaks ..).1 hp
    exact hk
  ownFrequency p hp := by
    obtain ⟨k, -, -, rfl⟩ := (mem_findPeaks ..).1 hp
    rfl

theorem dominantBin_lt {b : Build} {mag : List F32} {i : Nat} (h : dominantBin b mag = some i) :
    i < mag.length := by
  obtain ⟨r, hr, rfl⟩ := Option.map_eq_some_iff.1 h
  obtain ⟨hfrom, -⟩ := (scanDominant_spec b mag 0 none (by simp)).2 r hr
  obtain h | ⟨-, hlt, -⟩ := hfrom
  · cases h
  · exact hlt

/-- The index of the frame's peak is a bin, also where no bin qualifies and it is 0. -/
theorem framePeak_maxIndex_lt (s : State) (hn : 0 < s.build.nbins) :
    (framePeak s).maxIndex < s.build.nbins := by
  unfold framePeak
  cases hd : dominantBin s.build (frameSpectrum s) with
  | none => rw [detectPeak_of_none hd]; exact hn
  | some i => rw [detectPeak_of_some hd, ← frameSpectrum_length s]; exact dominantBin_lt hd

/-- The detector's event is sound and carries the new trigger time; without one the trigger time
stays. -/
theorem frameImpulse_cases (s : State) (hn : 0 < s.build.nbins) :
    (∃ e, (frameImpulse s).event = some e ∧ EventOk s.build e ∧
        e.ts = (frameImpulse s).lastImpTs) ∨
      ((frameImpulse s).event = none ∧ (frameImpulse s).lastImpTs = s.lastImpTs) := by
  unfold frameImpulse
  by_cases hf : fires s.build (energy (frameSpectrum s)) s.prevSum (now s) s.lastImpTs
      (framePeak s).dom = true
  · rw [impulseStep_fired hf]
    exact .inl ⟨_, rfl, ⟨peaksOk_findPeaks _ _ (framePeak_maxIndex_lt s hn), rfl⟩, rfl⟩
  · rw [impulseStep_quiet hf]
    exact .inr ⟨rfl, rfl⟩

/-- An event of `W` after a frame is the new one, or the one before while nothing fired. -/
theorem latestImpulse_some {policy : ImpulsePolicy} {old event : Option ImpulseEvent}
    {e : ImpulseEvent} (h : latestImpulse policy old event = some e) :
    event = some e ∨ (event = none ∧ old = some e) := by
  cases event with
  | some x => exact .inl h
  | none =>
    cases policy with
    | retain => exact .inr ⟨rfl, h⟩
    | perFrame => cases h

/-- `RecordInv` reads the build, `W`, the store, the recording state and the last trigger time. -/
theorem RecordInv.of_eq {s t : State} (h : RecordInv s) (hb : t.build = s.build) (hw : t.w = s.w)
    (hs : ∀ x ∈ t.snap, x ∈ s.snap ∨ x.2 = s.w) (hr : t.recState = s.recState)
    (hl : t.lastImpTs = s.lastImpTs) : RecordInv t := by
  obtain ⟨h1, h2, h3, h4⟩ := h
  refine ⟨by rw [hb, hw]; exact h1, fun x hx => ?_, by rw [hw, hr]; exact h3,
    by rw [hw, hl]; exact h4⟩
  rw [hb]
  rcases hs x hx with hx | hx
  · exact h2 x hx
  · rw [hx]; exact h1

theorem RecordInv.latch {s : State} (h : RecordInv s) (q : Request) (rest : List Input) :
    RecordInv (latch s q rest) := h.of_eq rfl rfl (fun _ => .inl) rfl rfl

theorem recordInv_analyzed {s : State} (h : RecordInv s) (hr : s.recState = .recording)
    (hn : 0 < s.build.nbins) : RecordInv (analyzed s) := by
  have hevent : ∀ e, (analyzed s).w.imp = some e →
      EventOk s.build e ∧ e.ts = (frameImpulse s).lastImpTs := by
    intro e he
    rcases frameImpulse_cases s hn with ⟨x, hx, hok, hts⟩ | ⟨hx, hts⟩ <;>
      rcases latestImpulse_some he with hnew | ⟨hnone, hold⟩
    · rw [hx, Option.some.injEq] at hnew; subst hnew; exact ⟨hok, hts⟩
    · rw [hx] at hnone; cases hnone
    · rw [hx] at hnew; cases hnew
    · rw [hts]; exact ⟨h.working.event e hold, h.lastEvent e hold⟩
  exact ⟨⟨frameSpectrum_length s, fun e he => (hevent e he).1⟩, h.stored,
    ⟨fun _ => hr, fun _ => rfl⟩, fun e he => (hevent e he).2⟩

theorem recordInv_transition {s : State} (h : RecordInv s) : RecordInv (transition s) := by
  cases hr : s.recState with
  | idle =>
    rw [transition_of_idle s hr]
    exact ⟨⟨h.working.length, fun e he => by cases he⟩, h.stored, by simp, fun e he => by cases he⟩
  | recording =>
    rw [transition_of_recording s hr]
    exact ⟨⟨h.working.length, h.working.event⟩, h.stored, by simp, h.lastEvent⟩

theorem RecordInv.prepared {s u : State} (h : RecordInv s) (hn : 0 < s.build.nbins)
    (hu : Prepared s u) : RecordInv u := by
  cases hu with
  | analyzed hr _ => exact recordInv_analyzed h hr hn
  | transition level => exact recordInv_transition (h.of_eq rfl rfl (fun _ => .inl) rfl rfl)
  | tick _ => exact h

theorem RecordInv.effect {s t : State} (h : RecordInv s) (hn : 0 < s.build.nbins)
    (he : Effect s t) : RecordInv t := by
  cases he with
  | skipped _ _ hu _ _ => exact (h.prepared hn hu).of_eq rfl rfl (fun _ => .inl) rfl rfl
  | published _ _ hu _ _ _ =>
    refine (h.prepared hn hu).of_eq rfl rfl (fun x hx => ?_) rfl rfl
    rcases List.mem_cons.mp hx with rfl | hx
    · exact .inr rfl
    · exact .inl (List.mem_filter.mp hx).1
  | acquired _ _ _ _ => exact h.of_eq rfl rfl (fun _ hx => .inl (List.mem_filter.mp hx).1) rfl rfl
  | released _ _ _ => exact h.of_eq rfl rfl (fun _ hx => .inl (List.mem_filter.mp hx).1) rfl rfl
  | _ => exact h.of_eq rfl rfl (fun _ => .inl) rfl rfl

/-! ## The statements -/

/-- Settles O25: every operation takes states that agree below the progress to such states. -/
theorem bytesBeyondProgressAreUnobservable : Obligations.BytesBeyondProgressAreUnobservable := by
  intro s t h
  have hst := step_alike h
  constructor
  · intro s' hs
    rw [hs] at hst
    generalize step t = y at hst ⊢
    cases hst with
    | next h' => exact ⟨_, rfl, h'.rsp, h'⟩
  · intro r hr
    rw [hr] at hst
    generalize step t = y at hst ⊢
    cases hst with
    | refused => rfl

/-- Settles O57: `ACC_PUSH` alone writes bytes, those there is room for. -/
theorem stepKeepsFrameInvariant : Obligations.StepKeepsFrameInvariant := by
  intro s t h hst
  obtain ⟨-, ⟨-, rfl⟩ | ⟨rest, -, rfl⟩ | ⟨q, rest, -, he⟩⟩ := step_cases hst
  · exact h
  · exact (frameInv_resetOf s.build).of_eq rfl rfl (le_refl _)
  · exact (h.latch q rest).effect he

/-- Settles O58: publishing and pinning keep the store, and no other effect writes it. -/
theorem stepKeepsStoreInvariant : Obligations.StepKeepsStoreInvariant :=
  fun _ _ h hst => ⟨h.step hst, (h.step hst).length_le⟩

/-- Settles O59: a frame gives a sound record, a transition keeps one, and the store holds copies of
`W`. -/
theorem stepKeepsRecordInvariant : Obligations.StepKeepsRecordInvariant := by
  intro s t h hst
  obtain ⟨hb, ⟨-, rfl⟩ | ⟨rest, -, rfl⟩ | ⟨q, rest, -, he⟩⟩ := step_cases hst
  · exact h
  · exact (recordInv_resetOf s.build).of_eq rfl rfl (fun _ => .inl) rfl rfl
  · exact (h.latch q rest).effect (nbins_pos_of_valid hb) he

/-- Settles O54: of the effects a publish and a write of a pin alone drop records, and neither drops
one that stays current or pinned. -/
theorem storedRecordsNeverChange : Obligations.StoredRecordsNeverChange := by
  intro s t v hst hreset hv
  obtain ⟨-, ⟨-, rfl⟩ | ⟨rest, hin, -⟩ | ⟨q, rest, -, he⟩⟩ := step_cases hst
  · rfl
  · exact absurd hin (hreset rest)
  · exact he.snapAt_eq hv

/-- Settles O55: of the effects a publish alone writes `CUR`. -/
theorem versionsCountPublishes : Obligations.VersionsCountPublishes := by
  intro s t hst hreset
  obtain ⟨-, ⟨-, rfl⟩ | ⟨rest, hin, -⟩ | ⟨q, rest, hin, he⟩⟩ := step_cases hst
  · exact .inl rfl
  · exact absurd hin (hreset rest)
  · exact he.cur_cases.imp_right fun ⟨hcur, hrec, hp⟩ => ⟨hcur, hrec, q, rest, hin, hp⟩

/-- Settles O10: one lemma per invariant; the store holds the one reset record under version 0. -/
theorem invariantHoldsAtReset : Obligations.InvariantHoldsAtReset := fun b =>
  ⟨frameInv_resetOf b, storeInv_resetOf b, recordInv_resetOf b, fun _ => rfl⟩

/-- Settles O12: each number's row of the table, the words of more than one field as numbers. -/
theorem configurationRegistersRead : Obligations.ConfigurationRegistersRead := by
  intro s
  refine ⟨answers_csrRead rfl, answers_csrRead rfl, answers_csrRead rfl, answers_csrRead rfl,
    answers_csrRead rfl, answers_csrRead rfl, answers_csrRead rfl,
    answers_csrRead (congrArg some (extractLsb'_low _)), answers_csrRead rfl,
    answers_csrRead (congrArg some (geomReg_eq _)), answers_csrRead rfl, answers_csrRead rfl,
    answers_csrRead rfl, answers_csrRead rfl, answers_csrRead rfl, answers_csrRead rfl,
    fun h => ?_⟩
  have class_eq : ∀ bound : ClassTable → F32, bound s.build.classes = bound classesR8 :=
    fun bound => congrArg bound h.classes
  exact ⟨answers_csrRead (congrArg (some <| BitVec.ofNat 32 ·) h.fftLength),
    answers_csrRead (congrArg (some <| BitVec.ofNat 32 ·) h.sampleRate),
    answers_csrRead (congrArg some h.binWidth),
    answers_csrRead (congrArg (some <| BitVec.extractLsb' 0 32 ·) h.refractoryMs),
    answers_csrRead (congrArg some h.minImpulseFreq),
    answers_csrRead (congrArg some (geomReg_canonical h)),
    answers_csrRead (congrArg some (class_eq (·.aLo))),
    answers_csrRead (congrArg some (class_eq (·.aHi))),
    answers_csrRead (congrArg some (class_eq (·.bLo))),
    answers_csrRead (congrArg some (class_eq (·.bHi))),
    answers_csrRead (congrArg some (class_eq (·.cLo))),
    answers_csrRead (congrArg some (class_eq (·.cHi)))⟩

/-- Settles O13: each number's row of the table; at reset a valid build has room for a byte, so `FULL`
is 0. -/
theorem statusRegistersRead : Obligations.StatusRegistersRead := by
  intro s
  exact ⟨answers_csrRead (congrArg some (statusReg_eq s)), answers_csrRead rfl, answers_csrRead rfl,
    answers_csrRead (congrArg some (extractLsb'_low _)),
    answers_csrRead (congrArg some (extractLsb'_high _)), answers_csrRead rfl, answers_csrRead rfl,
    fun hb _ h₁ h₂ => answers_csrRead (regValue_resetOf _ hb h₁ h₂)⟩

/-- Settles O14: the numbers of the table have a value, the reserved ones have none. -/
theorem reservedRegistersAreRejected : Obligations.ReservedRegistersAreRejected := by
  intro s reg
  split
  · obtain ⟨v, hv⟩ := regValue_isSome s ‹_›
    exact ⟨v, answers_csrRead hv⟩
  · exact rejects_csrRead (regValue_reserved s (by omega))

end Sys2Proof.Machine
end

section
/-! Proofs of the statements of 20_memory.md: a pinned reader's record, the commands that only read, the
frame of the reader ports, split pushes and the byte order of the samples. -/

namespace Sys2Proof.Machine

open Sys2Proof.Config

/-! ## The word a command was decoded from -/

theorem decodePlain_ok {i j : Instr} {sel : BitVec 4} {imm : Half}
    (h : decodePlain i sel imm = .ok j) : sel = 0#4 ∧ imm = 0#16 ∧ j = i := by
  unfold decodePlain at h
  split_ifs at h with hsel himm
  exact ⟨not_not.mp hsel, not_not.mp himm, by simpa [eq_comm] using h⟩

theorem decodeImm_ok {f : Half → Instr} {j : Instr} {sel : BitVec 4} {imm : Half}
    (h : decodeImm f sel imm = .ok j) : sel = 0#4 ∧ j = f imm := by
  unfold decodeImm at h
  split_ifs at h with hsel
  exact ⟨not_not.mp hsel, by simpa [eq_comm] using h⟩

/-- `SEL` of a button word is its level in bit 0. -/
theorem sel_of_level : ∀ sel : BitVec 4, sel.extractLsb' 1 3 = 0#3 →
    (if sel.getLsbD 0 = true then 1#4 else 0#4) = sel := by decide

theorem decodeButton_ok {j : Instr} {sel : BitVec 4} {imm : Half}
    (h : decodeButton sel imm = .ok j) :
    ∃ level, j = .buttonEdge level ∧ (if level = true then 1#4 else 0#4) = sel ∧ imm = 0#16 := by
  unfold decodeButton at h
  split_ifs at h with hsel himm
  exact ⟨_, by simpa [eq_comm] using h, sel_of_level sel (not_not.mp hsel), not_not.mp himm⟩

theorem decodeSnapRead_ok {j : Instr} {sel : BitVec 4} {imm : Half}
    (h : decodeSnapRead sel imm = .ok j) : ∃ f : Selector, j = .snapRead f imm ∧ f.code = sel := by
  unfold decodeSnapRead at h
  split at h
  · cases h
  · split_ifs at h
    exact ⟨_, by simpa [eq_comm] using h, Selector.code_ofCode _ _ ‹_›⟩

theorem encode_of_decodeByOpcode {opc : BitVec 8} {sel : BitVec 4} {imm : Half} {i : Instr}
    (h : decodeByOpcode opc sel imm = .ok i) : encode i = packC32 opc sel 0#4 imm := by
  have opcode {k : Nat} (hk : opc.toNat = k) : opc = BitVec.ofNat 8 k := by simp [← hk]
  unfold decodeByOpcode at h
  split at h
  all_goals rename_i hopc
  case h_1 | h_3 | h_4 | h_6 | h_8 | h_10 =>
    obtain ⟨rfl, rfl, rfl⟩ := decodePlain_ok h
    rw [opcode hopc]; rfl
  case h_2 | h_7 =>
    obtain ⟨rfl, rfl⟩ := decodeImm_ok h
    rw [opcode hopc]; rfl
  case h_5 =>
    obtain ⟨level, rfl, rfl, rfl⟩ := decodeButton_ok h
    rw [opcode hopc]; rfl
  case h_9 =>
    obtain ⟨f, rfl, rfl⟩ := decodeSnapRead_ok h
    rw [opcode hopc]; rfl
  case h_11 => cases h

/-- A word that decodes is the encoding of its command. -/
theorem encode_of_decode {w : Word} {i : Instr} (h : decode w = .ok i) : encode i = w := by
  unfold decode at h
  split_ifs at h with hopc hrsv
  rw [encode_of_decodeByOpcode h, ← not_not.mp hrsv, packC32_fields]

/-! ## Commands that only read -/

/-- `f` answers `(e, d)` in `s`, and does so whatever the ports were answered before. -/
def AnswersFrom (f : State → Result) (s : State) (e : Status) (d : Word) : Prop :=
  ∀ rs : Responses, f { s with rsp := rs } = .next (respond { s with rsp := rs } e d)

theorem AnswersFrom.next {f : State → Result} {s t : State} {e : Status} {d : Word}
    (h : AnswersFrom f s e d) (hf : f s = .next t) : t = respond s e d := by
  have hs : f s = .next (respond s e d) := h s.rsp
  rw [hs] at hf
  cases hf
  rfl

/-- What is answered the same whatever was answered before is answered the same again. -/
theorem AnswersFrom.again {f : State → Result} {s : State} {e : Status} {d : Word}
    (h : AnswersFrom f s e d) : f (respond s e d) = .next (respond s e d) := by
  have hagain := h (respond s e d).rsp
  simpa [respond] using hagain

theorem execNop_answersFrom (s : State) : AnswersFrom execNop s .ok 0#32 := fun _ => rfl

theorem execCsrRead_answersFrom (reg : Half) (s : State) :
    ∃ e d, AnswersFrom (execCsrRead reg) s e d := by
  have hreg (rs : Responses) : regValue { s with rsp := rs } reg.toNat = regValue s reg.toNat := rfl
  cases hv : regValue s reg.toNat with
  | none => exact ⟨.badReg, 0#32, fun rs => by rw [execCsrRead, hreg, hv]; rfl⟩
  | some v => exact ⟨.ok, v, fun rs => by rw [execCsrRead, hreg, hv]; rfl⟩

/-- The one `SNAP_READ` without an answer is that of a pinned version that is not stored. -/
theorem execSnapRead_answersFrom {sel : Selector} {idx : Half} {s t : State}
    (h : execSnapRead sel idx s = .next t) : ∃ e d, AnswersFrom (execSnapRead sel idx) s e d := by
  obtain ⟨r, hp, h⟩ | ⟨hp, -⟩ := onReader_next h
  · cases hpin : pinOf s.pin r with
    | none => exact ⟨.noPin, 0#32, fun rs => by simp [execSnapRead, raiseStatus, hp, hpin]⟩
    | some v =>
      cases hsnap : snapAt s.snap v with
      | none => simp [hpin, hsnap] at h
      | some rec =>
        cases hfield : snapField s.build rec v sel idx.toNat with
        | error e =>
          exact ⟨e, 0#32, fun rs => by simp [execSnapRead, raiseStatus, hp, hpin, hsnap, hfield]⟩
        | ok x => exact ⟨.ok, x, fun rs => by simp [execSnapRead, succeed, hp, hpin, hsnap, hfield]⟩
  · exact ⟨.portDenied, 0#32, fun rs => by simp [execSnapRead, onReader, hp, raiseStatus]⟩

/-- `NOP`, `CSR_READ` and `SNAP_READ` answer from what no response touches. -/
theorem exec_read_answersFrom {i : Instr} {s t : State}
    (hi : i = .nop ∨ (∃ reg, i = .csrRead reg) ∨ ∃ sel idx, i = .snapRead sel idx)
    (h : exec i s = .next t) : ∃ e d, AnswersFrom (exec i) s e d := by
  obtain rfl | ⟨reg, rfl⟩ | ⟨sel, idx, rfl⟩ := hi
  · exact ⟨_, _, execNop_answersFrom s⟩
  · exact execCsrRead_answersFrom reg s
  · exact execSnapRead_answersFrom h

/-! ## Commands on a reader port -/

theorem onProducer_rd {s t : State} {k : Result} {r : Reader} (hp : s.txn.port = .rd r)
    (h : onProducer s k = .next t) : t = respond s .portDenied 0#32 := by
  obtain ⟨hp', -⟩ | ⟨-, -, ht⟩ := onProducer_next h
  · simp [hp] at hp'
  · exact ht

/-- Of the commands a reader port can issue two alone do more than answer. -/
theorem exec_rd_answers {i : Instr} {s t : State} {r : Reader} (hp : s.txn.port = .rd r)
    (ha : i ≠ .snapAcquire) (hr : i ≠ .snapRelease) (h : exec i s = .next t) :
    ∃ e d, t = respond s e d := by
  cases i with
  | nop => exact ⟨_, _, (succeed_next ..).mp h⟩
  | csrRead reg =>
    obtain ⟨e, d, hans⟩ := execCsrRead_answersFrom reg s
    exact ⟨e, d, hans.next h⟩
  | snapRead sel idx =>
    obtain ⟨e, d, hans⟩ := execSnapRead_answersFrom h
    exact ⟨e, d, hans.next h⟩
  | accPush len =>
    change execAccPush len s = _ at h
    unfold execAccPush at h
    split at h
    · cases h
    · exact ⟨_, _, onProducer_rd hp h⟩
  | accReset => exact ⟨_, _, onProducer_rd hp h⟩
  | analyze => exact ⟨_, _, onProducer_rd hp h⟩
  | buttonEdge level => exact ⟨_, _, onProducer_rd hp h⟩
  | idleTick => exact ⟨_, _, onProducer_rd hp h⟩
  | snapAcquire => exact absurd rfl ha
  | snapRelease => exact absurd rfl hr

/-- A pin is written from its own port alone. -/
theorem Effect.pinOf_eq {s t : State} (he : Effect s t) {q : Reader} (hq : s.txn.port ≠ .rd q) :
    pinOf t.pin q = pinOf s.pin q := by
  have other {r : Reader} (hp : s.txn.port = .rd r) : q ≠ r := by rintro rfl; exact hq hp
  cases he with
  | skipped _ _ hu _ _ => simp [hu.pin]
  | published _ _ hu _ _ _ => simp [hu.pin]
  | acquired r hp _ _ => exact pinOf_setPin_other _ _ _ _ (other hp)
  | released r hp _ => exact pinOf_setPin_other _ _ _ _ (other hp)
  | _ => rfl

theorem snapAt_withPin {s : State} {r : Reader} {p : Option Version} {v : Version}
    (hv : v = s.cur ∨ pinned (setPin s.pin r p) v = true) :
    snapAt (withPin s r p).snap v = snapAt s.snap v := by
  simp [snapAt_retained, hv]

/-! ## Inputs along a run -/

theorem Effect.inbox {s t : State} (h : Effect s t) : t.inbox = s.inbox := by
  cases h with
  | skipped _ _ hu _ _ => simpa using hu.inbox
  | published _ _ hu _ _ _ => simpa using hu.inbox
  | _ => rfl

/-- A step uses up its input and no other. -/
theorem step_inbox {s t : State} (h : step s = .next t) : t.inbox = s.inbox.tail := by
  obtain ⟨-, ⟨hin, rfl⟩ | ⟨rest, hin, rfl⟩ | ⟨q, rest, hin, he⟩⟩ := step_cases h
  · simp [hin]
  · simp [hin, resetInput]
  · simp [hin, he.inbox]

/-- A run of `n + 1` steps is one step and a run of `n`, of every machine. -/
theorem run_succ {M : Host.Core} {n : Nat} {s u : M.State} (h : M.run (n + 1) s = .next u) :
    ∃ t, M.step s = .next t ∧ M.run n t = .next u := by
  unfold Host.Core.run at h
  split at h
  · exact ⟨_, ‹_›, h⟩
  · cases h
  · cases h

theorem transact_cases {s t : State} {q : Request} {rest : List Input}
    (h : transact s q rest = .next t) :
    t = respond (latch s q rest) .illegal 0#32 ∨
      ∃ i, decode q.cmd = .ok i ∧ exec i (latch s q rest) = .next t := by
  unfold transact at h
  split at h
  · exact .inl ((raiseStatus_next ..).mp h)
  · exact .inr ⟨_, ‹_›, h⟩

/-! ## A pinned reader -/

/-- The input `x` is no reset and no acquire or release word on the port of `r`. -/
def LeavesPin (r : Reader) (x : Input) : Prop :=
  x ≠ .reset ∧
    ∀ q, x = .command q → q.port = .rd r → q.cmd ≠ 0x00000010#32 ∧ q.cmd ≠ 0x00000012#32

/-- On the reader's own port the two words are the encodings of the two commands that write the pin; from
another port none does. -/
theorem pinOf_transact {s t : State} {r : Reader} {q : Request} {rest : List Input}
    (hx : LeavesPin r (.command q)) (h : transact s q rest = .next t) :
    pinOf t.pin r = pinOf s.pin r := by
  obtain rfl | ⟨i, hd, hi⟩ := transact_cases h
  · rfl
  · by_cases hp : q.port = .rd r
    · obtain ⟨hacq, hrel⟩ := hx.2 q rfl hp
      have hword := encode_of_decode hd
      have ha : i ≠ .snapAcquire := by rintro rfl; exact hacq hword.symm
      have hr : i ≠ .snapRelease := by rintro rfl; exact hrel hword.symm
      obtain ⟨e, d, rfl⟩ := exec_rd_answers (s := latch s q rest) hp ha hr hi
      rfl
    · exact (exec_effect hi).pinOf_eq hp

theorem pinOf_step {s t : State} {r : Reader} (hx : ∀ x ∈ s.inbox.head?, LeavesPin r x)
    (h : step s = .next t) : pinOf t.pin r = pinOf s.pin r := by
  obtain ⟨hb, ⟨-, rfl⟩ | ⟨rest, hin, -⟩ | ⟨q, rest, hin, -⟩⟩ := step_cases h
  · rfl
  · exact absurd rfl (hx .reset (by simp [hin])).1
  · rw [step_command hb hin] at h
    exact pinOf_transact (hx _ (by simp [hin])) h

/-- One step of the run: the pin is where it was, and so is the record under it. -/
theorem pinned_reader_step {s t : State} {r : Reader} {v : Version} (hv : pinOf s.pin r = some v)
    (hx : ∀ x ∈ s.inbox.head?, LeavesPin r x) (h : step s = .next t) :
    pinOf t.pin r = some v ∧ snapAt t.snap v = snapAt s.snap v := by
  have ht : pinOf t.pin r = some v := (pinOf_step hx h).trans hv
  have hreset : ∀ rest, s.inbox ≠ .reset :: rest := fun rest hin =>
    (hx .reset (by simp [hin])).1 rfl
  exact ⟨ht, storedRecordsNeverChange s t v h hreset
    (.inr ⟨(pinned_iff _ _).mpr ⟨r, hv⟩, (pinned_iff _ _).mpr ⟨r, ht⟩⟩)⟩

/-! ## Pushes -/

theorem execAccPush_next {s t : State} {len : Half} (hp : s.txn.port = .p)
    (hr : s.recState = .recording) (h : execAccPush len s = .next t) :
    ∃ d, t = respond (accepted s) .ok d := by
  unfold execAccPush at h
  split at h
  · cases h
  · rw [onProducer_p _ hp, hr] at h
    exact ⟨_, (succeed_next ..).mp h⟩

/-- The bytes after a push: those of `DIN` where they were accepted, the others as they were. -/
theorem fbRead_accepted (s : State) (a : Nat) :
    fbRead (accepted s).fb a =
      if s.accCount ≤ a ∧ a < s.accCount + takeCount s then s.txn.din.getD (a - s.accCount) 0#8
      else fbRead s.fb a := by
  rw [accepted_fb, fbRead_fbWrite, takenBytes_length]
  split
  · exact takenBytes_getD s _ (by omega) _
  · rfl

/-- The state `s` with the chunk `din` on its port. -/
def withChunk (s : State) (din : List Byte) : State := { s with txn := { s.txn with din := din } }

/-- The state `s` after the chunk `din` was accepted. -/
def afterChunk (s : State) (din : List Byte) : State := accepted (withChunk s din)

theorem afterChunk_accCount (s : State) (din : List Byte) :
    (afterChunk s din).accCount = s.accCount + min din.length (s.build.frameBytes - s.accCount) :=
  rfl

theorem fbRead_afterChunk (s : State) (din : List Byte) (a : Nat) :
    fbRead (afterChunk s din).fb a =
      if s.accCount ≤ a ∧ a < s.accCount + min din.length (s.build.frameBytes - s.accCount) then
        din.getD (a - s.accCount) 0#8
      else fbRead s.fb a :=
  fbRead_accepted (withChunk s din) a

theorem afterChunk_append_accCount (s : State) (xs ys : List Byte) :
    (afterChunk (afterChunk s xs) ys).accCount = (afterChunk s (xs ++ ys)).accCount := by
  have hbuild : (afterChunk s xs).build = s.build := rfl
  simp only [afterChunk_accCount, hbuild, List.length_append]
  omega

/-- The second part begins where the first ended: at the end of `xs`, or with no room left. -/
theorem fbRead_afterChunk_append (s : State) (xs ys : List Byte) (a : Nat) :
    fbRead (afterChunk (afterChunk s xs) ys).fb a = fbRead (afterChunk s (xs ++ ys)).fb a := by
  have hbuild : (afterChunk s xs).build = s.build := rfl
  simp only [fbRead_afterChunk, afterChunk_accCount, hbuild, List.length_append]
  by_cases hxs : s.accCount ≤ a ∧ a < s.accCount + min xs.length (s.build.frameBytes - s.accCount)
  · rw [if_neg (by omega), if_pos hxs, if_pos (by omega), List.getD_append _ _ _ _ (by omega)]
  · rw [if_neg hxs]
    split_ifs with hpart hwhole hwhole
    · rw [List.getD_append_right _ _ _ _ (by omega)]
      congr 1
      omega
    · omega
    · omega
    · rfl

/-! ## The statements -/

/-- Settles O53: by induction on the steps. Each leaves the pin, since it takes an input that writes no
pin of `r`, and with the pin the record (O54). -/
theorem pinnedReaderSeesOneRecord : Obligations.PinnedReaderSeesOneRecord := by
  intro n
  induction n with
  | zero =>
    rintro s _ r v hv - ⟨⟩
    exact ⟨hv, rfl⟩
  | succ n ih =>
    intro s u r v hv hx hrun
    obtain ⟨t, (hst : step s = .next t), hrest⟩ := run_succ hrun
    have hhead : ∀ x ∈ s.inbox.head?, LeavesPin r x := fun x hm =>
      hx x (by cases hin : s.inbox <;> simp_all)
    have htail : ∀ x ∈ t.inbox.take n, LeavesPin r x := fun x hm =>
      hx x (by rw [step_inbox hst] at hm; cases hin : s.inbox <;> simp_all)
    obtain ⟨hpin, hrec⟩ := pinned_reader_step hv hhead hst
    obtain ⟨hpin', hrec'⟩ := ih t u r v hpin htail hrest
    exact ⟨hpin', hrec'.trans hrec⟩

/-- Settles O19: the three commands answer from what no response touches, so the answer is all they
write and a repeat gives it again. -/
theorem readsChangeNoStateAndRepeat : Obligations.ReadsChangeNoStateAndRepeat := by
  intro i s t hi h
  obtain ⟨e, d, hans⟩ := exec_read_answersFrom hi h
  obtain rfl := hans.next h
  exact ⟨rfl, hans.again⟩

/-- Settles O20: on a reader port a command errs, reads, or writes the pin of that reader, and a write of
a pin keeps what is current or pinned after it. -/
theorem readerPortsWriteOnlyTheirPin : Obligations.ReaderPortsWriteOnlyTheirPin := by
  intro i s t r hp h
  have he := exec_effect h
  have hpins : ∀ q, q ≠ r → pinOf t.pin q = pinOf s.pin q := fun q hq =>
    he.pinOf_eq (by rw [hp]; simpa using hq.symm)
  have not_p (hp' : s.txn.port = .p) : False := by simp [hp] at hp'
  cases he with
  | error _ _ | busy _ _ _ | read _ =>
    exact ⟨rfl, rfl, rfl, rfl, rfl, rfl, rfl, rfl, rfl, hpins, fun _ _ => rfl⟩
  | push hp' _ _ | drop hp' _ | level hp' _ _ | skipped hp' _ _ _ _ | published hp' _ _ _ _ _ =>
    exact (not_p hp').elim
  | acquired _ _ _ _ | released _ _ _ =>
    exact ⟨rfl, rfl, rfl, rfl, rfl, rfl, rfl, rfl, rfl, hpins, fun _ hv => snapAt_withPin hv⟩

/-- Settles O23: each push is one accepted chunk, and a chunk may be accepted in two parts. -/
theorem pushesMayBeSplit : Obligations.PushesMayBeSplit := by
  intro s t t₁ t₂ xs ys n n₁ n₂ hp hr h h₁ h₂
  obtain ⟨d, rfl⟩ := execAccPush_next (s := withChunk s (xs ++ ys)) hp hr h
  obtain ⟨d₁, rfl⟩ := execAccPush_next (s := withChunk s xs) hp hr h₁
  obtain ⟨d₂, rfl⟩ :=
    execAccPush_next (s := withChunk (respond (afterChunk s xs) .ok d₁) ys) hp hr h₂
  exact ⟨afterChunk_append_accCount s xs ys, fbRead_afterChunk_append s xs ys⟩

/-- Settles O35: `MemRead` weighs byte `j` by `2^(8j)`, and so does the concatenation. -/
theorem samplesAreLittleEndian : Obligations.SamplesAreLittleEndian := by
  intro fb n
  have hread : memRead fb (4 * n) 4 =
      (fbRead fb (4 * n)).toNat + 2 ^ 8 * ((fbRead fb (4 * n + 1)).toNat + 2 ^ 8 *
        ((fbRead fb (4 * n + 2)).toNat + 2 ^ 8 * ((fbRead fb (4 * n + 3)).toNat + 2 ^ 8 * 0))) := rfl
  apply BitVec.eq_of_toNat_eq
  simp only [sampleAt, hread, toNat_append_add, BitVec.toNat_ofNat]
  omega

end Sys2Proof.Machine
end

section
/-! Proofs of the statements of 30_encoding.md: the layout of the command word, decoding against encoding
and against the conditions of R97, and the two forms of commands that are refused. -/

namespace Sys2Proof.Machine

open Sys2Proof.Config

/-! ## Decoding what was encoded -/

theorem decode_packC32 {opc : BitVec 8} (h : opcodeDefined opc = true) (sel : BitVec 4)
    (imm : Half) : decode (packC32 opc sel 0#4 imm) = decodeByOpcode opc sel imm := by
  simp [decode, fieldOpc_packC32, fieldSel_packC32, fieldRsv_packC32, fieldImm_packC32, h]

theorem decodeSnapRead_code (f : Selector) (idx : Half) :
    decodeSnapRead f.code idx =
      if (Instr.snapRead f idx).wellFormed = true then .ok (.snapRead f idx)
      else .error .immNotZero := by
  simp only [decodeSnapRead, Selector.ofCode_code, Instr.wellFormed]
  by_cases ht : f.takesIndex = true <;> by_cases hi : idx = 0#16 <;> simp [ht, hi]

/-- The word of a command decodes to it, or is rejected for the index its selector does not take. -/
theorem decode_encode (i : Instr) :
    decode (encode i) = if i.wellFormed = true then .ok i else .error .immNotZero := by
  cases i with
  | snapRead f idx => exact (decode_packC32 rfl _ _).trans (decodeSnapRead_code f idx)
  | buttonEdge level => cases level <;> exact decode_packC32 rfl _ _
  | _ => exact decode_packC32 rfl _ _

/-- Decoding reads off the one well-formed command a word encodes. -/
theorem decode_eq_ok_iff {w : Word} {i : Instr} :
    decode w = .ok i ↔ i.wellFormed = true ∧ encode i = w := by
  constructor
  · intro h
    obtain rfl := encode_of_decode h
    rw [decode_encode] at h
    split_ifs at h with hi
    exact ⟨hi, rfl⟩
  · rintro ⟨hi, rfl⟩
    rw [decode_encode, if_pos hi]

/-! ## The layout of the word (R92) -/

/-- A bit of the word lies in one field, and the others are 0 there. -/
theorem packC32_eq_or (opc : BitVec 8) (sel rsv : BitVec 4) (imm : Half) :
    packC32 opc sel rsv imm =
      opc.setWidth 32 ||| (sel.setWidth 32 <<< 8) ||| (rsv.setWidth 32 <<< 12) |||
        (imm.setWidth 32 <<< 16) := by
  apply BitVec.eq_of_getLsbD_eq
  intro i hi
  simp only [packC32, BitVec.getLsbD_append, BitVec.getLsbD_or, BitVec.getLsbD_shiftLeft,
    BitVec.getLsbD_setWidth, Nat.sub_sub]
  grind

/-! ## The words that decode (R97) -/

@[simp] theorem isOk_ok {ε α : Type} (a : α) : (.ok a : Except ε α).isOk = true := rfl

@[simp] theorem isOk_error {ε α : Type} (e : ε) : (.error e : Except ε α).isOk = false := rfl

/-- A chain of checks gives a result when each of them passes. -/
theorem isOk_check {ε α : Type} {c : Prop} [Decidable c] (e : ε) (x : Except ε α) :
    (if c then .error e else x).isOk = true ↔ ¬ c ∧ x.isOk = true := by
  by_cases hc : c <;> simp [hc]

theorem ne_zero_iff_toNat {n : Nat} (x : BitVec n) : x ≠ 0#n ↔ x.toNat ≠ 0 := by
  simp [BitVec.toNat_eq]

theorem decodePlain_isOk (i : Instr) (sel : BitVec 4) (imm : Half) :
    (decodePlain i sel imm).isOk = true ↔ sel.toNat = 0 ∧ imm.toNat = 0 := by
  simp only [decodePlain, isOk_check, ne_zero_iff_toNat, not_not, isOk_ok, and_true]

theorem decodeImm_isOk (f : Half → Instr) (sel : BitVec 4) (imm : Half) :
    (decodeImm f sel imm).isOk = true ↔ sel.toNat = 0 := by
  simp only [decodeImm, isOk_check, ne_zero_iff_toNat, not_not, isOk_ok, and_true]

theorem decodeButton_isOk (sel : BitVec 4) (imm : Half) :
    (decodeButton sel imm).isOk = true ↔ sel.toNat / 2 = 0 ∧ imm.toNat = 0 := by
  have hlevel : (sel.extractLsb' 1 3).toNat = sel.toNat / 2 := by revert sel; decide
  simp only [decodeButton, isOk_check, ne_zero_iff_toNat, hlevel, not_not, isOk_ok, and_true]

/-- The codes of R100, and the four of them that take an index. -/
theorem selector_code_cases (f : Selector) : f.code.toNat < 13 ∧ (f.takesIndex = true ↔
    f.code.toNat = 0 ∨ f.code.toNat = 8 ∨ f.code.toNat = 9 ∨ f.code.toNat = 10) := by
  cases f <;> decide

theorem le_of_ofCode_eq_none {c : BitVec 4} (h : Selector.ofCode c = none) : 13 ≤ c.toNat := by
  revert c; decide

theorem decodeSnapRead_isOk (sel : BitVec 4) (imm : Half) :
    (decodeSnapRead sel imm).isOk = true ↔ sel.toNat < 13 ∧
      ((sel.toNat = 0 ∨ sel.toNat = 8 ∨ sel.toNat = 9 ∨ sel.toNat = 10) ∨ imm.toNat = 0) := by
  cases hf : Selector.ofCode sel with
  | none => simp [decodeSnapRead, hf, le_of_ofCode_eq_none hf]
  | some f =>
    obtain rfl := Selector.code_ofCode sel f hf
    obtain ⟨hlt, htakes⟩ := selector_code_cases f
    have hword : (Instr.snapRead f imm).wellFormed = true ↔
        f.takesIndex = true ∨ imm.toNat = 0 := by
      simp [Instr.wellFormed, BitVec.toNat_eq]
    rw [← htakes, ← hword, decodeSnapRead_code]
    split_ifs with hi <;> simp [hi, hlt]

/-- What the opcode's own checks let pass is what R97 does, `RSV` being 0. -/
theorem decodeByOpcode_isOk (opc : BitVec 8) (sel : BitVec 4) (imm : Half) :
    (decodeByOpcode opc sel imm).isOk = true ↔
      ¬ illegalFields opc.toNat sel.toNat 0 imm.toNat := by
  unfold decodeByOpcode
  split
  case h_1 | h_3 | h_4 | h_6 | h_8 | h_10 => simp [*, decodePlain_isOk]
  case h_2 | h_7 => simp [*, decodeImm_isOk]
  case h_5 => simp [*, decodeButton_isOk]
  case h_9 =>
    rw [decodeSnapRead_isOk]
    omega
  case h_11 =>
    simp only [imp_false] at *
    have hundefined : ¬(opc.toNat ≤ 0x06 ∨ (0x10 ≤ opc.toNat ∧ opc.toNat ≤ 0x12)) := by omega
    exact iff_of_false Bool.false_ne_true (not_not.2 (.inl hundefined))

theorem opcodeDefined_iff (opc : BitVec 8) : opcodeDefined opc = true ↔
    opc.toNat ≤ 0x06 ∨ (0x10 ≤ opc.toNat ∧ opc.toNat ≤ 0x12) := by
  simp [opcodeDefined]

/-- The two checks before the opcode's own are the first two conditions of R97. -/
theorem decode_isOk_iff (w : Word) : (decode w).isOk = true ↔ ¬ illegalWord w := by
  rw [illegalWord, ← fieldOpc_toNat, ← fieldSel_toNat, ← fieldRsv_toNat, ← fieldImm_toNat,
    decode, isOk_check, isOk_check, decodeByOpcode_isOk, ne_zero_iff_toNat, Bool.not_eq_true',
    Bool.not_eq_false, opcodeDefined_iff]
  constructor
  · rintro ⟨-, hrsv, h⟩
    rwa [not_not.1 hrsv]
  · intro h
    have hrsv : ¬ (fieldRsv w).toNat ≠ 0 := fun e => h (.inr (.inl e))
    rw [not_not.1 hrsv] at h
    exact ⟨not_not.1 fun e => h (.inl e), hrsv, h⟩

theorem transact_error {s : State} {q : Request} {rest : List Input} {e : DecodeError}
    (hd : decode q.cmd = .error e) :
    transact s q rest = raiseStatus (latch s q rest) .illegal := by
  simp [transact, hd]

/-! ## Commands that reach the gate -/

theorem Prepared.gateIsBusy {s u : State} (h : Prepared s u) : gateIsBusy u = gateIsBusy s := by
  rw [Machine.gateIsBusy, h.build, h.draws, ← Machine.gateIsBusy]

theorem edge_eq_true_iff (mode : ButtonMode) (level prev : Bool) :
    edge mode level prev = true ↔ mode = .toggle ∨ (level = true ∧ prev = false) := by
  cases mode <;> simp [edge]

theorem execAnalyze_full {s : State} (hp : s.txn.port = .p) (hr : s.recState = .recording)
    (hf : s.build.frameBytes ≤ s.accCount) :
    execAnalyze s = publishThen (analyzed s) fun skipped t =>
      succeed t (analyzeData (framePeak s).maxIndex skipped (framePeak s).valid
        (frameImpulse s).event.isSome) := by
  rw [execAnalyze, onProducer_p _ hp, hr]
  exact if_neg (not_lt.2 hf)

theorem execButtonEdge_edge {s : State} {level : Bool} (hp : s.txn.port = .p)
    (he : edge s.build.buttonMode level s.btnLevel = true) :
    execButtonEdge level s = publishThen (transition { s with btnLevel := level }) fun skipped t =>
      succeed t (buttonData skipped true t.recState) := by
  rw [execButtonEdge, onProducer_p _ hp, if_pos he]

theorem execIdleTick_idle {s : State} (hp : s.txn.port = .p) (hr : s.recState = .idle) :
    execIdleTick s = publishThen s fun skipped t => succeed t (idleTickData skipped) := by
  rw [execIdleTick, onProducer_p _ hp, hr]

/-- A command that reaches `publish()` publishes a prepared state, and answers after it. -/
theorem exec_of_reachesPublish {i : Instr} {s : State} (h : reachesPublish i s) :
    ∃ u k, Prepared s u ∧ exec i s = publishThen u k := by
  obtain ⟨hp, ⟨rfl, hr, hf⟩ | ⟨level, rfl, he⟩ | ⟨rfl, hr⟩⟩ := h
  · exact ⟨_, _, .analyzed hr hf, execAnalyze_full hp hr hf⟩
  · exact ⟨_, _, .transition level, execButtonEdge_edge hp ((edge_eq_true_iff ..).2 he)⟩
  · exact ⟨_, _, .tick hr, execIdleTick_idle hp hr⟩

theorem publishThen_pinned {s : State} (k : Bool → State → Result) (hg : gateIsBusy s = false)
    (hv : pinned s.pin (s.cur + 1#32) = true) :
    publishThen s k = .refused .pinnedVersionReused := by
  simp [publishThen, hg, hv]

/-! ## The statements -/

/-- Settles O2: a word decodes to the one well-formed command it encodes, and to no other. -/
theorem decodeInvertsEncode : Obligations.DecodeInvertsEncode :=
  ⟨fun _ hi => decode_eq_ok_iff.2 ⟨hi, rfl⟩, fun _ _ => decode_eq_ok_iff.1⟩

/-- Settles O4: the words under a condition of R97 are those that do not decode. -/
theorem illegalWordsHaveNoEffect : Obligations.IllegalWordsHaveNoEffect := by
  intro s q rest hb hin
  have hok := decode_isOk_iff q.cmd
  rw [step_command hb hin]
  cases hd : decode q.cmd with
  | error e =>
    rw [hd] at hok
    exact ⟨fun _ => transact_error hd, fun h => by cases hok.2 h⟩
  | ok i =>
    rw [hd] at hok
    exact ⟨fun h => absurd h (hok.1 rfl), fun _ => ⟨i, rfl, encode_of_decode hd⟩⟩

/-- Settles O1: the word is the four fields side by side, which is their sum by bits, and `encode` packs
the fields of R95. -/
theorem commandWordLayout : Obligations.CommandWordLayout := by
  intro opc sel rsv imm
  exact ⟨packC32_eq_or .., fieldOpc_packC32 .., fieldSel_packC32 .., fieldRsv_packC32 ..,
    fieldImm_packC32 .., rfl, fun _ => rfl, rfl, rfl, rfl, rfl, rfl, fun _ => rfl, rfl,
    fun _ _ => rfl, rfl⟩

/-- Settles O3: each line is a well-formed command and its encoding (O2). -/
theorem workedCommandWordsDecode : Obligations.WorkedCommandWordsDecode := by
  simp only [Obligations.WorkedCommandWordsDecode, decode_eq_ok_iff]
  decide

/-- Settles O56: the length is checked first, and a publish of a prepared state finds the version pinned
in `s`. -/
theorem refusedFormsStopByName : Obligations.RefusedFormsStopByName := by
  refine ⟨fun s len hlen => if_pos hlen, fun i s hreach hgate hpin => ?_⟩
  obtain ⟨u, k, hu, hexec⟩ := exec_of_reachesPublish hreach
  rw [hexec]
  exact publishThen_pinned k (hu.gateIsBusy.trans hgate) (by rw [hu.pin, hu.cur, hpin])

end Sys2Proof.Machine
end

section
/-! Proofs of the statements of 40_frame_input.md: what the accumulator accepts, its reset, and that a
partial frame is not analyzed. -/

namespace Sys2Proof.Machine

open Sys2Proof.Config

/-! ## Frame commands that reach their effect -/

theorem execAccPush_recording {s : State} {len : Half} (hp : s.txn.port = .p)
    (hr : s.recState = .recording) (hlen : s.txn.din.length = len.toNat) :
    execAccPush len s =
      succeed (accepted s) (accPushData (bufferFull (accepted s)) (takeCount s)) := by
  rw [execAccPush, if_neg (not_not.2 hlen), onProducer_p _ hp, hr]

theorem execAccReset_p {s : State} (hp : s.txn.port = .p) :
    execAccReset s = succeed { s with accCount := 0 } 0#32 :=
  onProducer_p _ hp

theorem execAnalyze_partial {s : State} (hp : s.txn.port = .p) (hr : s.recState = .recording)
    (hf : s.accCount < s.build.frameBytes) : execAnalyze s = raiseStatus s .notFull := by
  rw [execAnalyze, onProducer_p _ hp, hr]
  exact if_pos hf

/-! ## The answer of a push -/

theorem bufferFull_accepted (s : State) :
    bufferFull (accepted s) = true ↔ s.accCount + takeCount s = s.build.frameBytes := by
  simp [bufferFull]

/-- A push takes no more bytes than its length field counts, so `take` fits the answer's low half. -/
theorem takeCount_lt {s : State} {len : Half} (hlen : s.txn.din.length = len.toNat) :
    takeCount s < 2 ^ 16 :=
  calc takeCount s ≤ s.txn.din.length := Nat.min_le_left _ _
    _ = len.toNat := hlen
    _ < 2 ^ 16 := len.isLt

theorem accPushData_accepted {s : State} {len : Half} (hlen : s.txn.din.length = len.toNat) :
    accPushData (bufferFull (accepted s)) (takeCount s) =
      BitVec.ofNat 32 (takeCount s +
        if s.accCount + takeCount s = s.build.frameBytes then 2 ^ 16 else 0) := by
  simp only [accPushData_eq _ _ (takeCount_lt hlen), bufferFull_accepted]

/-! ## The statements -/

/-- Settles O22: a push of the right length answers from the state with its bytes accepted, and those
read as `DIN` where the buffer had room. -/
theorem accPushAppends : Obligations.AccPushAppends := by
  intro s len take hp hr hlen htake
  obtain rfl : take = takeCount s := by rw [htake, ← hlen, takeCount]
  refine ⟨(accepted s).fb, ?_, fbRead_accepted s⟩
  calc execAccPush len s
      = succeed (accepted s) (accPushData (bufferFull (accepted s)) (takeCount s)) :=
        execAccPush_recording hp hr hlen
    _ = _ := by
        rw [accPushData_accepted hlen, succeed, respond, accepted_txn, hp]
        rfl

/-- Settles O24: the reset asks for the port alone, so it acts alike in both recording states. -/
theorem accResetClearsProgress : Obligations.AccResetClearsProgress := by
  intro s hp
  calc execAccReset s
      = succeed { s with accCount := 0 } 0#32 := execAccReset_p hp
    _ = _ := by rw [succeed, respond, hp]

/-- Settles O31: an error answers and changes nothing else. -/
theorem partialFramesAreNotAnalyzed : Obligations.PartialFramesAreNotAnalyzed :=
  fun _ hp hr hf => execAnalyze_partial hp hr hf

end Sys2Proof.Machine
end

section
/-! Proofs of the statements of 41_spectral.md: the result and the frame of `ANALYZE`, the spectrum of an
all-zero frame, and the range of the normalised samples. -/

namespace Sys2Proof.Machine

open Sys2Proof.Config

/-! ## The state after `publish()` -/

/-- The state after `publish()`: with a busy gate the one of the skipped publish, else the one with `W`
published. -/
def afterPublish (s : State) : State :=
  if gateIsBusy s then afterDraw s else publishNow (afterDraw s)

/-- `publish()` to an unpinned version always goes on, with the gate's answer. -/
theorem publishThen_unpinned {s : State} (k : Bool → State → Result)
    (hv : pinned s.pin (s.cur + 1#32) = false) :
    publishThen s k = k (gateIsBusy s) (afterPublish s) := by
  cases hg : gateIsBusy s <;> simp [publishThen, afterPublish, hg, hv]

/-- `publish()` writes `CUR`, the store and the draws alone. -/
theorem afterPublish_frame (s : State) :
    afterPublish s =
      { s with
        cur := (afterPublish s).cur, snap := (afterPublish s).snap
        draws := (afterPublish s).draws } := by
  cases hg : gateIsBusy s <;> simp only [afterPublish, hg] <;> rfl

/-- What `publish()` does to the store: a skipped one nothing; else the new version is `W`, and the pinned
versions stay. -/
theorem afterPublish_store {s : State} (hv : pinned s.pin (s.cur + 1#32) = false) :
    if gateIsBusy s = true then (afterPublish s).cur = s.cur ∧ (afterPublish s).snap = s.snap
    else (afterPublish s).cur = s.cur + 1#32 ∧
      snapAt (afterPublish s).snap (afterPublish s).cur = some s.w ∧
      ∀ v, pinned s.pin v = true → snapAt (afterPublish s).snap v = snapAt s.snap v := by
  by_cases hg : gateIsBusy s = true
  · rw [if_pos hg, afterPublish, if_pos hg]
    exact ⟨rfl, rfl⟩
  · rw [if_neg hg, afterPublish, if_neg hg]
    refine ⟨rfl, (snapAt_publishNow ..).trans (if_pos rfl), fun v hpin => ?_⟩
    have hne : v ≠ s.cur + 1#32 := by rintro rfl; exact absurd hpin (by simp [hv])
    exact (snapAt_publishNow ..).trans ((if_neg hne).trans (if_pos hpin))

/-! ## The detector's step -/

@[simp] theorem impulseStep_prevSum (b : Build) (prevSum : F32) (last time : DWord)
    (mag : List F32) (peak : Peak) :
    (impulseStep b prevSum last mag peak time).prevSum = energy mag := by
  rw [impulseStep]; split <;> rfl

theorem impulseStep_lastImpTs (b : Build) (prevSum : F32) (last time : DWord) (mag : List F32)
    (peak : Peak) :
    (impulseStep b prevSum last mag peak time).lastImpTs =
      if fires b (energy mag) prevSum time last peak.dom = true then time else last := by
  rw [impulseStep]; split <;> rfl

theorem impulseStep_event (b : Build) (prevSum : F32) (last time : DWord) (mag : List F32)
    (peak : Peak) :
    (impulseStep b prevSum last mag peak time).event =
      if fires b (energy mag) prevSum time last peak.dom = true then
        some (impulseEvent b mag peak time)
      else none := by
  rw [impulseStep]; split <;> rfl

theorem impulseStep_isSome (b : Build) (prevSum : F32) (last time : DWord) (mag : List F32)
    (peak : Peak) :
    (impulseStep b prevSum last mag peak time).event.isSome =
      fires b (energy mag) prevSum time last peak.dom := by
  rw [impulseStep_event]
  cases fires b (energy mag) prevSum time last peak.dom <;> rfl

theorem latestImpulse_ite (policy : ImpulsePolicy) (old : Option ImpulseEvent) (e : ImpulseEvent)
    (fired : Bool) :
    latestImpulse policy old (if fired = true then some e else none) =
      if fired = true then some e else if policy = .retain then old else none := by
  cases fired <;> cases policy <;> rfl

/-! ## `ANALYZE` on a full frame -/

/-- `ANALYZE` on a full frame answers from the published state. -/
theorem execAnalyze_unpinned {s : State} (hp : s.txn.port = .p) (hr : s.recState = .recording)
    (hf : s.build.frameBytes ≤ s.accCount) (hv : pinned s.pin (s.cur + 1#32) = false) :
    execAnalyze s = .next (respond (afterPublish (analyzed s)) .ok
      (analyzeData (framePeak s).maxIndex (gateIsBusy s) (framePeak s).valid
        (frameImpulse s).event.isSome)) := by
  rw [execAnalyze_full hp hr hf]
  exact publishThen_unpinned (s := analyzed s) _ hv

/-! ## The spectrum of zeros -/

/-- What `zeroLike` keeps of a value is its sign. -/
theorem f32IsZero_zeroLike (a : F32) : f32IsZero (zeroLike a) = true := by
  rw [f32IsZero, beq_iff_eq, f32Mag, zeroLike, BitVec.toNat_and,
    show (0x80000000#32).toNat = 2 ^ 31 from rfl, Nat.and_two_pow]
  exact Nat.mul_mod_left _ _

/-- A positive natural converts to a positive number, perhaps infinity. -/
theorem f32OfNat_pos {n : Nat} (hn : 0 < n) :
    f32IsNaN (f32OfNat n) = false ∧ f32IsZero (f32OfNat n) = false ∧
      f32Sign (f32OfNat n) = false := by
  have hone : 0 < f32Round (n * 2 ^ 149) 1 :=
    calc 0 < 1 := Nat.one_pos
      _ = f32Round 1 1 := (f32Round_exact 1 1 Nat.one_pos (by decide)).symm
      _ ≤ f32Round (n * 2 ^ 149) 1 :=
        f32Round_mono _ _ 1 Nat.one_pos (Nat.mul_pos hn (Nat.two_pow_pos _))
  rw [f32OfNat_eq]
  refine ⟨f32IsNaN_f32OfMag_f32Round .., ?_, f32Sign_f32OfMag _ _ (f32Round_lt _ _)⟩
  rwa [f32IsZero_eq_false_iff, f32Mag_f32OfMag _ _ (f32Round_lt _ _)]

/-- `+0.0` over a positive number is `+0.0`. -/
theorem f32Div_zero_left {d : F32} (hnan : f32IsNaN d = false) (hz : f32IsZero d = false)
    (hs : f32Sign d = false) : f32Div 0#32 d = 0#32 := by
  cases hi : f32IsInf d with
  | true =>
    have hdiv : f32Div 0#32 d = f32Zero (f32Sign 0#32 != f32Sign d) := by
      simp [f32Div, hnan, hi, show f32IsNaN 0#32 = false from rfl,
        show f32IsInf 0#32 = false from rfl]
    rw [hdiv, hs]
    rfl
  | false =>
    rw [f32Div_finite (by decide) (finite_of_not_nan hnan hi) hz, hs,
      show f32Units 0#32 = 0 from rfl, Nat.zero_mul, f32Round_zero _ (f32Units_pos hz)]
    rfl

theorem f32Mul_self_of_zero {a : F32} (h : f32IsZero a = true) : f32Mul a a = 0#32 := by
  rcases (f32IsZero_iff a).1 h with rfl | rfl <;> decide +kernel

/-- The magnitude of a bin whose parts are zeros of either sign. -/
theorem magnitude_of_zero {n : Nat} {x : C32} (hn : 0 < n) (hre : f32IsZero x.re = true)
    (him : f32IsZero x.im = true) : magnitude n x = 0#32 := by
  obtain ⟨hnan, hz, hs⟩ := f32OfNat_pos hn
  have hsum : f32Add 0#32 0#32 = 0#32 := by decide
  rw [magnitude, f32Mul_self_of_zero hre, f32Mul_self_of_zero him, hsum, f32Sqrt_zero (by decide),
    f32Div_zero_left hnan hz hs]

/-- The spectrum of an all-zero sequence: FFT-Z gives zeros, and so do the magnitudes. -/
theorem magnitudesOf_of_allZero {b : Build} {z : List C32} (hz : allZero z = true) :
    magnitudesOf b z = List.replicate b.nbins 0#32 := by
  rw [List.eq_replicate_iff]
  refine ⟨magnitudesOf_length b z, fun y hy => ?_⟩
  obtain ⟨k, hk, rfl⟩ := List.mem_map.1 hy
  have hn : 0 < b.fftLength := by
    rw [List.mem_range, Build.nbins] at hk
    omega
  rw [fft32, if_pos hz]
  exact magnitude_of_zero hn (f32IsZero_zeroLike _) (f32IsZero_zeroLike _)

theorem normalise_zero : normalise 0#32 = 0#32 := by decide +kernel

/-- An entry of a window of finite entries is finite, also beyond its length. -/
theorem elemAt_finite {a : List F32} (h : ∀ x ∈ a, f32IsFinite x = true) (i : Nat) :
    f32IsFinite (elemAt a i) = true := by
  rw [elemAt, List.getD_eq_getElem?_getD]
  cases hi : a[i]? with
  | none => decide
  | some x => exact h x (List.mem_of_getElem? hi)

/-- A frame that lists no byte, under a finite window, is a sequence of zeros. -/
theorem allZero_complexFrame_nil {b : Build} (hw : ∀ x ∈ b.hann, f32IsFinite x = true) :
    allZero (complexFrame b []) = true := by
  refine List.all_eq_true.2 fun c hc => ?_
  obtain ⟨n, -, rfl⟩ := List.mem_map.1 hc
  have hre : f32IsZero (windowed b [] n) = true := by
    rw [windowed, show sampleAt [] n = 0#32 from rfl, normalise_zero]
    exact f32Mul_zero_left (by decide) (elemAt_finite hw n)
  simp only [hre, Bool.true_and]
  decide

/-! ## Normalised samples -/

/-- The encoding, without sign, of a normalised sample of absolute value `n`: `n` rounded, times
`2^-31`. -/
def normalMag (n : Nat) : Nat :=
  f32Round (magUnits (f32Round (n * 2 ^ 149) 1) * f32Units twoPowMinus31) (2 ^ 149)

theorem normalMag_mono {m n : Nat} (h : m ≤ n) : normalMag m ≤ normalMag n := by
  have hround : f32Round (m * 2 ^ 149) 1 ≤ f32Round (n * 2 ^ 149) 1 :=
    f32Round_mono _ _ 1 Nat.one_pos (Nat.mul_le_mul_right _ h)
  exact f32Round_mono _ _ _ (Nat.two_pow_pos _)
    (Nat.mul_le_mul_right _ (magUnits_strictMono.monotone hround))

/-- The largest absolute value of a sample gives 1.0. -/
theorem normalMag_top : normalMag (2 ^ 31) = 0x3F800000 := by decide +kernel

/-- `2^31 - 64` is midway between two values, and the tie goes up. -/
theorem normalMag_tie : normalMag (2 ^ 31 - 64) = 0x3F800000 := by decide +kernel

theorem sample_natAbs_le (x : BitVec 32) : x.toInt.natAbs ≤ 2 ^ 31 := by
  have hlo := BitVec.le_toInt x
  have hhi := BitVec.toInt_lt (x := x)
  norm_num at hlo hhi ⊢
  omega

/-- A sample converts to a finite value. -/
theorem f32Round_sample_lt (x : BitVec 32) : f32Round (x.toInt.natAbs * 2 ^ 149) 1 < f32InfMag :=
  calc f32Round (x.toInt.natAbs * 2 ^ 149) 1
      ≤ f32Round (2 ^ 31 * 2 ^ 149) 1 :=
        f32Round_mono _ _ 1 Nat.one_pos (Nat.mul_le_mul_right _ (sample_natAbs_le x))
    _ < f32InfMag := by decide +kernel

/-- A normalised sample keeps the sign of the sample. -/
theorem normalise_eq (x : BitVec 32) :
    normalise x = f32OfMag (decide (x.toInt < 0)) (normalMag x.toInt.natAbs) := by
  have hlt := f32Round_lt (x.toInt.natAbs * 2 ^ 149) 1
  have hfin : f32IsFinite (f32OfInt x.toInt) = true :=
    (f32IsFinite_f32OfMag _ _ hlt).2 (f32Round_sample_lt x)
  rw [normalise, f32Mul_finite hfin (by decide), f32OfInt, f32Units_f32OfMag _ _ hlt,
    f32Sign_f32OfMag _ _ hlt, show f32Sign twoPowMinus31 = false from rfl, Bool.bne_false,
    normalMag]

theorem normalMag_sample_le (x : BitVec 32) : normalMag x.toInt.natAbs ≤ 0x3F800000 :=
  normalMag_top ▸ normalMag_mono (sample_natAbs_le x)

/-- An encoding of either sign up to that of 1.0 lies in `[-1.0, 1.0]`. -/
theorem f32Le_one_of_mag {sign : Bool} {m : Nat} (h : m ≤ 0x3F800000) :
    f32Le 0xBF800000#32 (f32OfMag sign m) = true ∧
      f32Le (f32OfMag sign m) 0x3F800000#32 = true := by
  have hnan := not_nan_f32OfMag sign m (le_trans h (by decide))
  rw [f32Le_of_not_nan (by decide) hnan, f32Le_of_not_nan hnan (by decide),
    f32Key_f32OfMag sign m (by omega), show f32Key 0xBF800000#32 = -0x3F800000 from rfl,
    show f32Key 0x3F800000#32 = 0x3F800000 from rfl]
  cases sign
  · simp; omega
  · simp; omega

/-- From `2^31 - 64` up a sample lies between the tie and the largest absolute value. -/
theorem normalise_of_ge {x : BitVec 32} (h : 2 ^ 31 - 64 ≤ x.toInt) :
    normalise x = 0x3F800000#32 := by
  have hge : 2 ^ 31 - 64 ≤ x.toInt.natAbs := by omega
  have hmag : normalMag x.toInt.natAbs = 0x3F800000 :=
    le_antisymm (normalMag_sample_le x) (normalMag_tie ▸ normalMag_mono hge)
  have hsign : decide (x.toInt < 0) = false := decide_eq_false (by omega)
  rw [normalise_eq, hmag, hsign]
  rfl

/-! ## The statements -/

/-- Settles O32: the stages of the pipeline are the operations written out, and `ANALYZE` answers from the
analyzed state with `W` published. -/
theorem analyzeRunsThePipeline : Obligations.AnalyzeRunsThePipeline := by
  intro s z mag sum peak fired hp hr hf hv hz hmag hsum hpeak hfired
  have hspec : spectrumOf s.build s.fb = mag := by rw [hmag, hz]; rfl
  have henergy : energy mag = sum := by rw [hsum]; rfl
  have hframe : framePeak s = peak := by rw [framePeak, frameSpectrum, hspec, hpeak]
  have hstep : frameImpulse s = impulseStep s.build s.prevSum s.lastImpTs mag peak s.txn.opnd := by
    rw [frameImpulse, hframe, frameSpectrum, hspec, now]
  have hfires : fires s.build (energy mag) s.prevSum s.txn.opnd s.lastImpTs peak.dom = fired := by
    rw [henergy, hfired]; rfl
  have hpub := afterPublish_store (s := analyzed s) hv
  refine ⟨hspec, henergy, _, execAnalyze_unpinned hp hr hf hv, ?_⟩
  rw [afterPublish_frame]
  refine ⟨rfl, ?_, ?_, hspec, ?_, rfl, ?_, ?_, hpub, rfl, rfl, rfl, rfl, rfl, rfl, rfl⟩
  · show (frameImpulse s).prevSum = sum
    rw [hstep, impulseStep_prevSum, henergy]
  · show (frameImpulse s).lastImpTs = _
    rw [hstep, impulseStep_lastImpTs, hfires]
  · show (framePeak s).dom = peak.dom
    rw [hframe]
  · show latestImpulse s.build.policy s.w.imp (frameImpulse s).event = _
    rw [hstep, impulseStep_event, hfires, latestImpulse_ite]
    rfl
  · show deliver s.rsp s.txn.port _ = _
    rw [hp, analyzeData_eq, hframe, hstep, impulseStep_isSome, hfires]

/-- Settles O33: the spectrum reads the bytes of the frame alone, so it is the one of a buffer that lists
none. -/
theorem zeroFrameHasZeroSpectrum : Obligations.ZeroFrameHasZeroSpectrum := by
  intro b fb hfb hw
  calc spectrumOf b fb
      = spectrumOf b [] := spectrumOf_congr b hfb
    _ = List.replicate b.nbins 0#32 := magnitudesOf_of_allZero (allZero_complexFrame_nil hw)

/-- Settles O36: the encoding of a normalised sample rises with its absolute value, and is that of 1.0 at
`2^31 - 64` and at `2^31`. -/
theorem normalisedSamplesAreInRange : Obligations.NormalisedSamplesAreInRange := by
  refine ⟨fun x => ?_, by decide +kernel, normalise_zero⟩
  obtain ⟨hlo, hhi⟩ := f32Le_one_of_mag (sign := decide (x.toInt < 0)) (normalMag_sample_le x)
  rw [← normalise_eq] at hlo hhi
  exact ⟨hlo, hhi, normalise_of_ge⟩

end Sys2Proof.Machine
end

section
/-! Proofs of the statements of 42_peak.md: the dominant bin and its fallback, the interpolation, and the
harmonic peaks on the two sides of the dominant bin. -/

namespace Sys2Proof.Machine

open Sys2Proof.Config

/-! ## The dominant bin -/

/-- The two thresholds written out are `threshold` (R150). -/
theorem eq_threshold {b : Build} {thr : Nat → F32}
    (h : ∀ k, thr k =
      if f32Lt (f32Mul (f32OfNat k) b.binWidth) b.freqCutoff = true then b.lowThr else b.highThr) :
    thr = threshold b := funext h

theorem dominantBin_spec {b : Build} {mag : List F32} {i : Nat} (h : dominantBin b mag = some i) :
    i < mag.length ∧ qualifies b i (elemAt mag i) = true ∧
      ∀ k, k < mag.length → qualifies b k (elemAt mag k) = true →
        f32Gt (elemAt mag k) (elemAt mag i) = false ∧
          (k < i → f32Gt (elemAt mag i) (elemAt mag k) = true) := by
  obtain ⟨⟨m, i⟩, hr, rfl⟩ := Option.map_eq_some_iff.1 h
  obtain ⟨hfrom, hmax, -⟩ := (scanDominant_spec b mag 0 none (by simp)).2 _ hr
  obtain h | ⟨-, hlt, hm, hq⟩ := hfrom
  · cases h
  · have hm : m = elemAt mag i := hm
    subst hm
    exact ⟨hlt, hq, by simpa using hmax⟩

theorem dominantBin_eq_none_iff (b : Build) (mag : List F32) :
    dominantBin b mag = none ↔ ∀ k, k < mag.length → qualifies b k (elemAt mag k) = false := by
  constructor
  · intro h
    have hscan : scanDominant b mag 0 none = none := Option.map_eq_none_iff.1 h
    simpa using ((scanDominant_spec b mag 0 none (by simp)).1 hscan).2
  · intro h
    cases hd : dominantBin b mag with
    | none => rfl
    | some i =>
      obtain ⟨hlt, hq, -⟩ := dominantBin_spec hd
      simp [h i hlt] at hq

theorem detectPeak_valid (b : Build) (mag : List F32) :
    (detectPeak b mag).valid = false ↔ dominantBin b mag = none := by
  cases hd : dominantBin b mag with
  | none => simp [detectPeak_of_none hd]
  | some i => simp [detectPeak_of_some hd]

/-! ## Interpolation -/

theorem f32Val_of_not_zero {a : F32} (h : f32IsZero a = false) :
    f32Val a ≠ 0 ∧ decide (f32Val a < 0) = f32Sign a ∧ (f32Val a).natAbs = f32Units a := by
  have hpos := f32Units_pos h
  unfold f32Val
  cases f32Sign a <;> simp <;> omega

/-- A zero added to a number that is not zero changes nothing. -/
theorem f32Add_of_zero {a z : F32} (ha : f32IsNaN a = false) (ha0 : f32IsZero a = false)
    (hz : f32IsZero z = true) : f32Add a z = a := by
  cases hi : f32IsInf a with
  | true =>
    have hnan : f32IsNaN (f32Add a z) = false :=
      Bool.eq_false_iff.2 fun h => by
        simp [f32IsNaN_f32Add_iff, ha, not_nan_of_zero hz, not_inf_of_zero hz] at h
    exact (f32Add_inf hnan).1 hi
  | false =>
    have hzu : f32Val z = 0 := by rcases (f32IsZero_iff z).1 hz with rfl | rfl <;> decide
    have hround : f32Round (f32Units a) 1 = f32Mag a := by
      simpa [f32Units_eq] using f32Round_exact (f32Mag a) 1 Nat.one_pos
        (le_of_lt ((f32IsFinite_iff a).1 (finite_of_not_nan ha hi)))
    obtain ⟨hne, hsign, habs⟩ := f32Val_of_not_zero ha0
    rw [f32Add_finite (finite_of_not_nan ha hi) (finite_of_zero hz), f32AddFinite, hzu, Int.add_zero,
      if_neg hne, hsign, habs, hround, f32OfMag_sign_mag]

/-- A zero over a number that is not zero is a zero. -/
theorem f32Div_of_zero {z d : F32} (hz : f32IsZero z = true) (hd : f32IsNaN d = false)
    (hd0 : f32IsZero d = false) : f32IsZero (f32Div z d) = true := by
  have zero : ∀ sign, f32IsZero (f32Zero sign) = true := by decide
  cases hi : f32IsInf d with
  | true => simp [f32Div, not_nan_of_zero hz, not_inf_of_zero hz, hd, hi, zero]
  | false =>
    have hu : f32Units z = 0 := by rcases (f32IsZero_iff z).1 hz with rfl | rfl <;> decide
    rw [f32Div_finite (finite_of_zero hz) (finite_of_not_nan hd hi) hd0, hu, Nat.zero_mul,
      f32Round_zero _ (f32Units_pos hd0)]
    exact zero _

theorem f32Sub_self {a : F32} (ha : f32IsFinite a = true) : f32Sub a a = 0#32 := by
  rw [f32Sub, f32Add_finite ha (by rwa [f32IsFinite_f32Neg]), f32AddFinite, f32Val_f32Neg,
    if_pos (Int.add_right_neg _), f32Sign_f32Neg, Bool.and_not_self]
  rfl

/-- Finite neighbours leave `denom` a number: at most one term of each of its sums is infinite. -/
theorem parabolaDenom_not_nan {ym y0 yp : F32} (hm : f32IsFinite ym = true)
    (h0 : f32IsNaN y0 = false) (hp : f32IsFinite yp = true) :
    f32IsNaN (parabolaDenom ym y0 yp) = false := by
  refine Bool.eq_false_iff.2 fun h => ?_
  simp [parabolaDenom, f32IsNaN_f32Add_iff, f32IsNaN_f32Sub_iff, f32IsNaN_f32Mul_iff,
    not_nan_of_finite hm, not_inf_of_finite hm, not_nan_of_finite hp, not_inf_of_finite hp, h0,
    show f32IsNaN f32Two = false from rfl, show f32IsInf f32Two = false from rfl,
    show f32IsZero f32Two = false from rfl] at h

/-- Equal finite neighbours give the offset zero, of either sign. -/
theorem parabolaOffset_symmetric {y y0 : F32} (hy : f32IsFinite y = true)
    (h0 : f32IsNaN y0 = false) (hd : f32IsZero (parabolaDenom y y0 y) = false) :
    f32IsZero (parabolaOffset y y0 y) = true := by
  have hnum : f32IsZero (f32Mul f32Half (f32Sub y y)) = true := by
    rw [f32Sub_self hy]
    decide +kernel
  exact f32Div_of_zero hnum (parabolaDenom_not_nan hy h0 hy) hd

theorem refine_symmetric {b : Build} {mag : List F32} {i : Nat}
    (hsym : elemAt mag (i - 1) = elemAt mag (i + 1))
    (hfin : f32IsFinite (elemAt mag (i - 1)) = true) (h0 : f32IsNaN (elemAt mag i) = false) :
    refine b mag i = binFreq b i := by
  unfold refine
  split
  · rfl
  · split
    · rfl
    next hin hden =>
      rw [← hsym] at hden ⊢
      obtain ⟨hnan, hzero, -⟩ := f32OfNat_pos (show 0 < i by omega)
      rw [f32Add_of_zero hnan hzero
        (parabolaOffset_symmetric hfin h0 (by simpa using hden)), binFreq]

/-! ## The two sides of the harmonic peaks -/

theorem mem_findPeaks_idx (b : Build) (mag : List F32) (d k : Nat) :
    k ∈ (findPeaks b mag d).map (·.idx) ↔ k < b.nbins ∧ k ∈ selectedBins b mag d := by
  rw [findPeaks_idx, List.mem_filter, List.mem_range, List.contains_iff_mem]

/-- Counting peaks by their bins: as many peaks have a property of the index as a list without
duplicates of all such selected bins has entries. -/
theorem length_filter_findPeaks {b : Build} {mag : List F32} {d : Nat} {l : List Nat}
    {q : Nat → Bool} (hnd : l.Nodup)
    (hl : ∀ k, k ∈ l ↔ k ∈ (findPeaks b mag d).map (·.idx) ∧ q k = true) :
    ((findPeaks b mag d).filter fun p => q p.idx).length = l.length := by
  have hidx : ((findPeaks b mag d).map (·.idx)).Nodup := by
    rw [findPeaks_idx]
    exact List.nodup_range.filter _
  have hperm : List.Perm (((findPeaks b mag d).map (·.idx)).filter q) l :=
    (List.perm_ext_iff_of_nodup (hidx.filter q) hnd).2 fun k => by rw [List.mem_filter, hl]
  rw [← hperm.length_eq, List.filter_map, List.length_map]
  rfl

/-- The selected bins as the dominant bin and the picks on its two sides. -/
structure Sides (b : Build) (mag : List F32) (d : Nat) (above below : List Nat) : Prop where
  selected : selectedBins b mag d = above ++ (below ++ [d])
  nodup : (above ++ (below ++ [d])).Nodup
  dominant : d < b.nbins
  aboveGt : ∀ c ∈ above, d < c ∧ c < b.nbins
  belowLt : ∀ c ∈ below, c < d

namespace Sides

variable {b : Build} {mag : List F32} {d : Nat} {above below : List Nat}

theorem mem_idx (h : Sides b mag d above below) (k : Nat) :
    k ∈ (findPeaks b mag d).map (·.idx) ↔ k ∈ above ∨ k ∈ below ∨ k = d := by
  rw [mem_findPeaks_idx, h.selected]
  simp only [List.mem_append, List.mem_singleton, and_iff_right_iff_imp]
  rintro (hk | hk | rfl)
  · exact (h.aboveGt k hk).2
  · exact (h.belowLt k hk).trans h.dominant
  · exact h.dominant

theorem mem_below (h : Sides b mag d above below) (k : Nat) :
    k ∈ below ↔ k ∈ (findPeaks b mag d).map (·.idx) ∧ k < d := by
  rw [h.mem_idx]
  constructor
  · exact fun hk => ⟨.inr (.inl hk), h.belowLt k hk⟩
  · rintro ⟨hk | hk | rfl, hlt⟩
    · exact absurd (h.aboveGt k hk).1 (by omega)
    · exact hk
    · exact absurd hlt (lt_irrefl _)

theorem mem_above (h : Sides b mag d above below) (k : Nat) :
    k ∈ above ↔ k ∈ (findPeaks b mag d).map (·.idx) ∧ d < k := by
  rw [h.mem_idx]
  constructor
  · exact fun hk => ⟨.inl hk, (h.aboveGt k hk).1⟩
  · rintro ⟨hk | hk | rfl, hlt⟩
    · exact hk
    · exact absurd (h.belowLt k hk) (by omega)
    · exact absurd hlt (lt_irrefl _)

theorem length_below (h : Sides b mag d above below) :
    ((findPeaks b mag d).filter fun p => p.idx < d).length = below.length :=
  length_filter_findPeaks (q := fun k => decide (k < d))
    (List.nodup_append.1 (List.nodup_append.1 h.nodup).2.1).1 (by simpa using h.mem_below)

theorem length_above (h : Sides b mag d above below) :
    ((findPeaks b mag d).filter fun p => d < p.idx).length = above.length :=
  length_filter_findPeaks (q := fun k => decide (d < k))
    (List.nodup_append.1 h.nodup).1 (by simpa using h.mem_above)

end Sides

theorem findPeaks_mag {b : Build} {mag : List F32} {d : Nat} {p : PeakData}
    (hp : p ∈ findPeaks b mag d) : p.mag = elemAt mag p.idx := by
  obtain ⟨k, -, -, rfl⟩ := (mem_findPeaks ..).1 hp
  rfl

/-! ## The statements -/

/-- Settles O40: the scan keeps a qualifying bin that no qualifying bin exceeds, and leaves it for a
larger one alone. -/
theorem dominantBinIsLargestQualifying : Obligations.DominantBinIsLargestQualifying := by
  intro b mag i thr hthr h
  rw [eq_threshold hthr]
  exact dominantBin_spec h

/-- Settles O41: without a dominant bin `DETECT_PEAK` gives the fallback, and there is none exactly when
no bin qualifies. -/
theorem noQualifyingBinGivesZero : Obligations.NoQualifyingBinGivesZero := by
  intro b mag thr hthr
  rw [eq_threshold hthr, detectPeak_valid]
  exact ⟨dominantBin_eq_none_iff b mag, detectPeak_of_none⟩

/-- Settles O42: `refine` with the zero test and the boundary bins written out. -/
theorem dominantFrequencyIsRefined : Obligations.DominantFrequencyIsRefined := by
  intro b mag i denom h hdenom
  have hlast : i = 0 ∨ i = b.nbins - 1 ↔ i = 0 ∨ i + 1 = b.nbins := by omega
  simp only [detectPeak_of_some h, ← f32IsZero_iff, hlast, hdenom]
  rfl

/-- Settles O43: the offset is a zero, and adding it leaves the index of an interior bin. -/
theorem symmetricNeighboursGiveBinFrequency : Obligations.SymmetricNeighboursGiveBinFrequency :=
  fun _ _ _ _ => refine_symmetric

/-- Settles O44: the list is sound as a list of peaks, and each other bin is a pick of one side. -/
theorem harmonicPeaksAreSound : Obligations.HarmonicPeaksAreSound := by
  intro b mag d hd
  have hok := peaksOk_findPeaks b mag hd
  refine ⟨(mem_findPeaks_idx ..).2 ⟨hd, mem_selectedBins_self b mag d⟩, hok.ascending, hok.nonempty,
    hok.bounded, fun p hp => ?_⟩
  obtain ⟨above, below, e, -, -, -, hbelow, habove, -⟩ := selectedBins_spec b mag d
  obtain ⟨k, hk, hsel, rfl⟩ := (mem_findPeaks ..).1 hp
  show d ≤ k + _ ∧ k ≤ d + _ ∧ k < _ ∧ _ ∧ _ ∧ (k = d ∨ f32Gt (elemAt mag k) 0#32 = true)
  simp only [e, List.mem_append, List.mem_singleton] at hsel
  obtain hka | hkb | rfl := hsel
  · obtain ⟨hgt, htop, hpos⟩ := habove k hka
    exact ⟨by omega, by omega, hk, rfl, rfl, .inr hpos⟩
  · obtain ⟨hlo, hlt, hpos⟩ := hbelow k hkb
    exact ⟨by omega, by omega, hk, rfl, rfl, .inr hpos⟩
  · exact ⟨by omega, by omega, hk, rfl, rfl, .inl rfl⟩

/-- Settles O45: the peaks below are the picks of the rounds over the fixed window. -/
theorem lowerPicksAreTheLargest : Obligations.LowerPicksAreTheLargest := by
  intro b mag d hd hnan
  obtain ⟨above, below, e, hnd, -, hlen, hbelow, habove, hmax, -⟩ := selectedBins_spec b mag d
  have hs : Sides b mag d above below :=
    ⟨e, hnd, hd, fun c hc => by have := habove c hc; omega, fun c hc => (hbelow c hc).2.1⟩
  rw [hs.length_below]
  refine ⟨hlen, fun k hk hw hout => ?_⟩
  obtain ⟨hlargest, hall⟩ := hmax (nanFree_of_forall hnan) k (by omega) hk
    fun h => hout ((hs.mem_below k).1 h).1
  refine ⟨hall, fun p hp hlt => ?_⟩
  rw [findPeaks_mag hp]
  exact hlargest p.idx ((hs.mem_below _).2 ⟨List.mem_map_of_mem hp, hlt⟩)

/-- Settles O46: the peaks above are the picks of the rounds over the shrinking span. -/
theorem upperPicksDominateTheirRight : Obligations.UpperPicksDominateTheirRight := by
  intro b mag d hd hnan
  obtain ⟨above, below, e, hnd, hlen, -, hbelow, habove, -, hmax⟩ := selectedBins_spec b mag d
  have hs : Sides b mag d above below :=
    ⟨e, hnd, hd, fun c hc => by have := habove c hc; omega, fun c hc => (hbelow c hc).2.1⟩
  have hpeak : ∀ q ∈ above, ∃ p ∈ findPeaks b mag d, p.idx = q := fun q hq =>
    List.mem_map.1 ((hs.mem_above q).1 hq).1
  obtain ⟨hdom, hrest⟩ := hmax (nanFree_of_forall hnan)
  rw [hs.length_above]
  refine ⟨hlen, fun p hp hgt => ?_, fun hshort k hk hw hkn hq => ?_⟩
  · obtain ⟨right, left⟩ := hdom p.idx ((hs.mem_above _).2 ⟨List.mem_map_of_mem hp, hgt⟩)
    rw [findPeaks_mag hp]
    refine ⟨fun k hk hw hkn => right k hk (by omega), fun k hk hkp hq => left k hk hkp ?_⟩
    intro q hqa hqp
    obtain ⟨p', hp', rfl⟩ := hpeak q hqa
    exact hq p' hp' hqp
  · refine hrest hshort k hk (by omega) fun q hqa => ?_
    obtain ⟨p', hp', rfl⟩ := hpeak q hqa
    exact hq p' hp'

end Sys2Proof.Machine
end

section
/-! Proofs of the statements of 43_impulse.md: the three conditions of an impulse, the time of the last
event, and the class of a frequency. -/

namespace Sys2Proof.Machine

open Sys2Proof.Config

/-! ## The detector -/

theorem fires_iff (b : Build) (sum prevSum : F32) (time last : DWord) (dom : F32) :
    fires b sum prevSum time last dom = true ↔
      f32Gt (f32Abs (f32Sub sum prevSum)) b.impulseThr = true ∧
        b.refractoryMs.toNat < (time - last).toNat ∧ f32Gt dom b.minImpulseFreq = true := by
  simp only [fires, energyJumps, refractoryOver, audible, Bool.and_eq_true, decide_eq_true_eq,
    BitVec.lt_def, and_assoc]

/-- There is an event only if the detector fired, and it is the one of the frame. -/
theorem impulseStep_event_eq_some {b : Build} {prevSum : F32} {last time : DWord} {mag : List F32}
    {peak : Peak} {e : ImpulseEvent}
    (h : (impulseStep b prevSum last mag peak time).event = some e) :
    fires b (energy mag) prevSum time last peak.dom = true ∧
      e = impulseEvent b mag peak time := by
  rw [impulseStep_event] at h
  split at h
  · exact ⟨‹_›, (Option.some.inj h).symm⟩
  · cases h

theorem f32Gt_eq_false_of_le {a b : F32} (h : f32Le a b = true) : f32Gt a b = false := by
  simp only [f32Le, Bool.and_eq_true, decide_eq_true_eq] at h
  simp only [f32Gt, f32Lt, Bool.and_eq_false_iff, decide_eq_false_iff_not]
  exact .inr (not_lt.2 h.2)

/-- The fallback of a frame without a qualifying peak is 0, which is above no frequency that is not
negative (R176). -/
theorem detectPeak_valid_of_audible {b : Build} {mag : List F32}
    (hmin : f32Le 0#32 b.minImpulseFreq = true)
    (h : f32Gt (detectPeak b mag).dom b.minImpulseFreq = true) : (detectPeak b mag).valid = true := by
  cases hd : dominantBin b mag with
  | none => simp [detectPeak_of_none hd, f32Gt_eq_false_of_le hmin] at h
  | some i => rw [detectPeak_of_some hd]

/-! ## The time of the last event -/

/-- The detector leaves the time of the last event, or fires past the refractory window and sets it to
the time of its event. -/
theorem frameImpulse_lastImpTs_cases (s : State) :
    (frameImpulse s).lastImpTs = s.lastImpTs ∨
      (s.build.refractoryMs.toNat < (now s - s.lastImpTs).toNat ∧
        (frameImpulse s).lastImpTs = now s ∧
        ∃ e, (frameImpulse s).event = some e ∧ e.ts = now s) := by
  by_cases hf : fires s.build (energy (frameSpectrum s)) s.prevSum (now s) s.lastImpTs
      (framePeak s).dom = true
  · obtain ⟨-, hwindow, -⟩ := (fires_iff ..).1 hf
    rw [frameImpulse, impulseStep_fired hf]
    exact .inr ⟨hwindow, rfl, _, rfl, impulseEvent_ts ..⟩
  · rw [frameImpulse, impulseStep_quiet hf]
    exact .inl rfl

theorem publishThen_lastImpTs {s t : State} {f : Bool → State → Word}
    (h : publishThen s (fun skipped u => succeed u (f skipped u)) = .next t) :
    t.lastImpTs = s.lastImpTs := by
  obtain ⟨-, h⟩ | ⟨-, -, h⟩ := publishThen_next h
  · rw [(succeed_next ..).1 h]; rfl
  · rw [(succeed_next ..).1 h]; rfl

theorem onReader_p_lastImpTs {s t : State} {k : Reader → Result} (hp : s.txn.port = .p)
    (h : onReader s k = .next t) : t.lastImpTs = s.lastImpTs := by
  obtain ⟨r, hr, -⟩ | ⟨-, rfl⟩ := onReader_next h
  · simp [hp] at hr
  · rfl

/-- Of the effects the one of a full frame alone writes the time of the last event. -/
theorem Effect.lastImpTs_cases {s t : State} (he : Effect s t) :
    t.lastImpTs = s.lastImpTs ∨
      (s.txn.port = .p ∧ s.recState = .recording ∧
        t.lastImpTs = (frameImpulse s).lastImpTs ∧ t.w = (analyzed s).w) := by
  have prepared {u : State} (hu : Prepared s u) : u.lastImpTs = s.lastImpTs ∨
      (s.recState = .recording ∧ u.lastImpTs = (frameImpulse s).lastImpTs ∧ u.w = (analyzed s).w) := by
    cases hu with
    | analyzed hr _ => exact .inr ⟨hr, rfl, rfl⟩
    | transition level => exact .inl (transition_lastImpTs _)
    | tick _ => exact .inl rfl
  cases he with
  | skipped hp _ hu _ _ => exact (prepared hu).imp_right (.intro hp)
  | published hp _ hu _ _ _ => exact (prepared hu).imp_right (.intro hp)
  | _ => exact .inl rfl

/-- While recording, no producer command but `ANALYZE` writes the time of the last event. -/
theorem exec_lastImpTs_of_ne_analyze {i : Instr} {s t : State} (hp : s.txn.port = .p)
    (hr : s.recState = .recording) (hi : i ≠ .analyze) (h : exec i s = .next t) :
    t.lastImpTs = s.lastImpTs := by
  cases i with
  | analyze => exact absurd rfl hi
  | nop => rw [(execNop_answersFrom s).next h]; rfl
  | csrRead reg =>
    obtain ⟨e, d, hans⟩ := execCsrRead_answersFrom reg s
    rw [hans.next h]
    rfl
  | accPush len =>
    obtain ⟨d, rfl⟩ := execAccPush_next hp hr h
    rfl
  | accReset =>
    rw [(succeed_next ..).1 ((execAccReset_p hp).symm.trans h)]
    rfl
  | buttonEdge level =>
    obtain ⟨-, h⟩ | ⟨r, -, rfl⟩ := onProducer_next h
    · split at h
      · exact (publishThen_lastImpTs h).trans (transition_lastImpTs _)
      · rw [(succeed_next ..).1 h]
        rfl
    · rfl
  | idleTick =>
    obtain ⟨-, h⟩ | ⟨r, -, rfl⟩ := onProducer_next h
    · rw [hr] at h
      rw [(raiseStatus_next ..).1 h]
      rfl
    · rfl
  | snapAcquire => exact onReader_p_lastImpTs hp h
  | snapRead sel idx => exact onReader_p_lastImpTs hp h
  | snapRelease => exact onReader_p_lastImpTs hp h

theorem exec_lastImpTs_cases {i : Instr} {s t : State} (h : exec i s = .next t) :
    t.lastImpTs = s.lastImpTs ∨
      (i = .analyze ∧ s.txn.port = .p ∧
        t.lastImpTs = (frameImpulse s).lastImpTs ∧ t.w = (analyzed s).w) := by
  obtain hsame | ⟨hp, hr, hts, hw⟩ := (exec_effect h).lastImpTs_cases
  · exact .inl hsame
  · by_cases hi : i = .analyze
    · exact .inr ⟨hi, hp, hts, hw⟩
    · exact .inl (exec_lastImpTs_of_ne_analyze hp hr hi h)

/-! ## Intervals of encodings -/

theorem f32Sign_eq_true_iff (a : F32) : f32Sign a = true ↔ 2 ^ 31 ≤ a.toNat := by
  rw [f32Sign, BitVec.msb_eq_decide, decide_eq_true_eq]

/-- An encoding up to that of infinity is its own key, and no NaN. -/
theorem key_of_le_inf {a : F32} (h : a.toNat ≤ f32InfMag) :
    f32IsNaN a = false ∧ f32Key a = a.toNat := by
  have hlt : a.toNat < 2 ^ 31 := lt_of_le_of_lt h (by decide)
  have hmag : f32Mag a = a.toNat := Nat.mod_eq_of_lt hlt
  refine ⟨?_, by rw [f32Key, if_neg (mt (f32Sign_eq_true_iff a).1 (not_le.2 hlt)), hmag]⟩
  rw [f32IsNaN, hmag]
  exact decide_eq_false (not_lt.2 h)

theorem comparisons_of_le_inf {a b : F32} (ha : a.toNat ≤ f32InfMag) (hb : b.toNat ≤ f32InfMag) :
    (f32Le a b = true ↔ a.toNat ≤ b.toNat) ∧ (f32Lt a b = true ↔ a.toNat < b.toNat) := by
  obtain ⟨hna, hka⟩ := key_of_le_inf ha
  obtain ⟨hnb, hkb⟩ := key_of_le_inf hb
  rw [f32Le_of_not_nan hna hnb, f32Lt_of_not_nan hna hnb, hka, hkb]
  exact ⟨Int.ofNat_le, Int.ofNat_lt⟩

/-- What is at least a positive number has no sign and is no NaN. -/
theorem le_inf_of_pos_le {lo f : F32} (hpos : 0 < lo.toNat) (hlo : lo.toNat ≤ f32InfMag)
    (h : f32Le lo f = true) : f.toNat ≤ f32InfMag := by
  obtain ⟨hnlo, hklo⟩ := key_of_le_inf hlo
  have hnf : f32IsNaN f = false := by
    cases hn : f32IsNaN f
    · rfl
    · simp [f32Le, hn] at h
  rw [f32Le_of_not_nan hnlo hnf, hklo] at h
  have hsign : f32Sign f ≠ true := fun hs => by
    have hneg : f32Key f = -(f32Mag f : Int) := if_pos hs
    omega
  have hmag : f32Mag f = f.toNat :=
    Nat.mod_eq_of_lt (not_le.1 (mt (f32Sign_eq_true_iff f).2 hsign))
  rw [← Bool.not_eq_true, f32IsNaN_iff, not_lt, hmag] at hnf
  exact hnf

/-- The numbers of an interval with positive bounds are those of the encodings between, whether or not
it has its upper bound. -/
theorem interval_iff (f : F32) {lo hi : F32}
    (h : 0 < lo.toNat ∧ lo.toNat ≤ f32InfMag ∧ hi.toNat ≤ f32InfMag) :
    ((f32Le lo f && f32Le f hi) = true ↔ lo.toNat ≤ f.toNat ∧ f.toNat ≤ hi.toNat) ∧
      ((f32Le lo f && f32Lt f hi) = true ↔ lo.toNat ≤ f.toNat ∧ f.toNat < hi.toNat) := by
  obtain ⟨hpos, hlo, hhi⟩ := h
  by_cases hf : f.toNat ≤ f32InfMag
  · obtain ⟨hle, hlt⟩ := comparisons_of_le_inf hf hhi
    rw [Bool.and_eq_true, Bool.and_eq_true, (comparisons_of_le_inf hlo hf).1, hle, hlt]
    exact ⟨.rfl, .rfl⟩
  · have hout : f32Le lo f = false :=
      Bool.eq_false_iff.2 fun hle => hf (le_inf_of_pos_le hpos hlo hle)
    simp only [hout, Bool.false_and, Bool.false_eq_true, false_iff]
    omega

/-! ## The statements -/

/-- Settles O47: an event is that of a detector that fired, on a frame whose dominant frequency is above
the fallback. -/
theorem impulsesNeedAllThreeConditions : Obligations.ImpulsesNeedAllThreeConditions := by
  intro b prevSum last time mag e h
  obtain ⟨hfires, rfl⟩ := impulseStep_event_eq_some h
  obtain ⟨henergy, hwindow, haudible⟩ := (fires_iff ..).1 hfires
  exact ⟨fun hmin => detectPeak_valid_of_audible hmin haudible, henergy, hwindow, haudible, rfl, rfl⟩

/-- Settles O48: of all commands `ANALYZE` alone writes the time of the last event, as its detector
says. -/
theorem eventsKeepTheRefractoryWindow : Obligations.EventsKeepTheRefractoryWindow := by
  intro s t h hreset
  obtain ⟨hb, ⟨-, rfl⟩ | ⟨rest, hin, -⟩ | ⟨q, rest, hin, -⟩⟩ := step_cases h
  · exact .inl rfl
  · exact absurd hin (hreset rest)
  · rw [step_command hb hin] at h
    obtain rfl | ⟨i, hd, hi⟩ := transact_cases h
    · exact .inl rfl
    obtain hsame | ⟨rfl, hp, hts, hw⟩ := exec_lastImpTs_cases hi
    · exact .inl hsame
    obtain hquiet | ⟨hwindow, hnow, e, he, hets⟩ := frameImpulse_lastImpTs_cases (latch s q rest)
    · exact .inl (hts.trans hquiet)
    · have htime : t.lastImpTs = q.opnd := hts.trans hnow
      refine .inr ⟨by rw [htime]; exact hwindow, q, rest, e, hin, hd, hp, htime, ?_, hets⟩
      rw [hw, analyzed_w, he]
      rfl

/-- Settles O49: each interval of the table is the one of the encodings between its bounds. -/
theorem classesFollowTheTable : Obligations.ClassesFollowTheTable := by
  intro f
  have ha := (interval_iff f (lo := classesR8.aLo) (hi := classesR8.aHi) (by decide)).1
  have hb := (interval_iff f (lo := classesR8.bLo) (hi := classesR8.bHi) (by decide)).2
  have hc := (interval_iff f (lo := classesR8.cLo) (hi := classesR8.cHi) (by decide)).2
  rw [classify, if_congr ha rfl rfl, if_congr hb rfl rfl, if_congr hc rfl rfl]
  rfl

end Sys2Proof.Machine
end

section
/-! Proofs of the statements of 44_snapshot.md: the recording state machine and its resets, the idle
republish, the reader commands of the gate, and that the current snapshot is `W`. -/

namespace Sys2Proof.Machine

open Sys2Proof.Config

/-! ## The current snapshot -/

/-- `PublishedInv` reads the build, `W` and the record under `CUR`. -/
theorem PublishedInv.of_eq {s t : State} (h : PublishedInv s) (hb : t.build = s.build)
    (hw : t.w = s.w) (hs : snapAt t.snap t.cur = snapAt s.snap s.cur) : PublishedInv t := by
  intro hg
  rw [hb] at hg
  rw [hs, hw, h hg]

theorem publishedInv_publishNow (s : State) : PublishedInv (publishNow s) := fun _ =>
  (snapAt_publishNow ..).trans (if_pos rfl)

theorem PublishedInv.latch {s : State} (h : PublishedInv s) (q : Request) (rest : List Input) :
    PublishedInv (latch s q rest) := h.of_eq rfl rfl rfl

/-- `W` changes on the way to `publish()` alone, which a lock-free gate never skips. -/
theorem PublishedInv.effect {s t : State} (h : PublishedInv s) (he : Effect s t) :
    PublishedInv t := by
  cases he with
  | skipped _ u _ hb _ =>
    intro hg
    rw [gateIsBusy_of_lockFree u hg] at hb
    cases hb
  | published _ u _ _ _ _ => exact (publishedInv_publishNow (afterDraw u)).of_eq rfl rfl rfl
  | acquired _ _ _ _ => exact h.of_eq rfl rfl (snapAt_withPin (.inl rfl))
  | released _ _ _ => exact h.of_eq rfl rfl (snapAt_withPin (.inl rfl))
  | _ => exact h.of_eq rfl rfl rfl

/-! ## Commands while Idle -/

/-- `t` has the frame buffer, the detector state and the spectrum and dominant frequency of `s`. -/
structure SameCapture (s t : State) : Prop where
  fb : t.fb = s.fb
  prevSum : t.prevSum = s.prevSum
  lastImpTs : t.lastImpTs = s.lastImpTs
  mag : t.w.mag = s.w.mag
  dom : t.w.dom = s.w.dom

theorem Prepared.sameCapture {s u : State} (hr : s.recState = .idle) (hu : Prepared s u) :
    SameCapture s u := by
  cases hu with
  | analyzed hr' _ => rw [hr] at hr'; cases hr'
  | transition level =>
    exact ⟨transition_fb _, transition_prevSum _, transition_lastImpTs _, transition_mag _,
      transition_dom _⟩
  | tick _ => exact ⟨rfl, rfl, rfl, rfl, rfl⟩

/-- While Idle no effect is that of a push or of a frame. -/
theorem Effect.sameCapture {s t : State} (hr : s.recState = .idle) (he : Effect s t) :
    SameCapture s t := by
  cases he with
  | push _ hr' _ => rw [hr] at hr'; cases hr'
  | skipped _ _ hu _ _ | published _ _ hu _ _ _ =>
    obtain ⟨hfb, hsum, hts, hmag, hdom⟩ := hu.sameCapture hr
    exact ⟨hfb, hsum, hts, hmag, hdom⟩
  | _ => exact ⟨rfl, rfl, rfl, rfl, rfl⟩

theorem execAccPush_idle {s : State} {len : Half} (hp : s.txn.port = .p) (hr : s.recState = .idle)
    (hlen : s.txn.din.length = len.toNat) : execAccPush len s = raiseStatus s .wrongState := by
  rw [execAccPush, if_neg (not_not.2 hlen), onProducer_p _ hp, hr]

theorem execAnalyze_idle {s : State} (hp : s.txn.port = .p) (hr : s.recState = .idle) :
    execAnalyze s = raiseStatus s .wrongState := by
  rw [execAnalyze, onProducer_p _ hp, hr]

/-! ## The recording state machine -/

theorem transition_recState (s : State) :
    (transition s).recState = if s.recState = .idle then .recording else .idle := by
  cases hr : s.recState <;> simp [transition, hr]

theorem transition_w (s : State) :
    (transition s).w =
      if s.recState = .idle then { s.w with recording := true, imp := none }
      else { s.w with recording := false } := by
  cases hr : s.recState <;> simp [transition, hr]

theorem execButtonEdge_level {s : State} {level : Bool} (hp : s.txn.port = .p)
    (he : ¬ edge s.build.buttonMode level s.btnLevel = true) :
    execButtonEdge level s =
      succeed { s with btnLevel := level } (buttonData false false s.recState) := by
  rw [execButtonEdge, onProducer_p _ hp, if_neg he]

/-- A `BUTTON_EDGE` with an edge answers from the state of the transition, published. -/
theorem execButtonEdge_unpinned {s : State} {level : Bool} (hp : s.txn.port = .p)
    (he : edge s.build.buttonMode level s.btnLevel = true)
    (hv : pinned s.pin (s.cur + 1#32) = false) :
    execButtonEdge level s =
      .next (respond (afterPublish (transition { s with btnLevel := level })) .ok
        (buttonData (gateIsBusy s) true (transition { s with btnLevel := level }).recState)) := by
  have hu : Prepared s (transition { s with btnLevel := level }) := .transition level
  rw [execButtonEdge_edge hp he, publishThen_unpinned _ (by rw [hu.pin, hu.cur, hv]),
    hu.gateIsBusy, afterPublish_frame]
  rfl

/-- What a `publish()` that was not refused answers from. -/
theorem publishThen_succeed_next {s t : State} {f : Bool → State → Word}
    (h : publishThen s (fun skipped u => succeed u (f skipped u)) = .next t) :
    (gateIsBusy s = true ∨ pinned s.pin (s.cur + 1#32) = false) ∧
      ∃ d, t = respond (afterPublish s) .ok d := by
  obtain ⟨hb, h⟩ | ⟨hb, hv, h⟩ := publishThen_next h
  · exact ⟨.inl hb, _, by rw [afterPublish, if_pos hb]; exact (succeed_next ..).1 h⟩
  · exact ⟨.inr hv, _, by rw [afterPublish, hb]; exact (succeed_next ..).1 h⟩

/-- A `BUTTON_EDGE` that moves the recording state machine is one with an edge on port `P`. -/
theorem execButtonEdge_moves {s t : State} {level : Bool} (h : execButtonEdge level s = .next t)
    (hmoved : t.recState ≠ s.recState) :
    (gateIsBusy s = true ∨ pinned s.pin (s.cur + 1#32) = false) ∧
      ∃ d, t = respond (afterPublish (transition { s with btnLevel := level })) .ok d := by
  obtain ⟨-, h⟩ | ⟨_, -, rfl⟩ := onProducer_next h
  · split at h
    · have hu : Prepared s (transition { s with btnLevel := level }) := .transition level
      have hpub := publishThen_succeed_next h
      rwa [hu.gateIsBusy, hu.pin, hu.cur] at hpub
    · rw [(succeed_next ..).1 h] at hmoved
      exact absurd rfl hmoved
  · exact absurd rfl hmoved

/-- A `BUTTON_EDGE` that starts recording clears the latest impulse and the progress, and unless the gate
is busy it publishes that. -/
theorem execButtonEdge_starts {s t : State} {level : Bool} (h : execButtonEdge level s = .next t)
    (hidle : s.recState = .idle) (hrec : t.recState = .recording) :
    t.w.imp = none ∧ t.accCount = 0 ∧
      (gateIsBusy s = false → t.cur = s.cur + 1#32 ∧ snapAt t.snap t.cur = some t.w) := by
  obtain ⟨hv, d, rfl⟩ := execButtonEdge_moves h (by simp [hrec, hidle])
  have hu : Prepared s (transition { s with btnLevel := level }) := .transition level
  have himp : (transition { s with btnLevel := level }).w.imp = none := by
    rw [transition_w, if_pos hidle]
  rw [afterPublish_frame]
  refine ⟨himp, transition_accCount _, fun hg => ?_⟩
  have hfree : pinned s.pin (s.cur + 1#32) = false := hv.resolve_left (by simp [hg])
  have hpub := afterPublish_store (s := transition { s with btnLevel := level })
    (by rw [hu.pin, hu.cur, hfree])
  rw [hu.gateIsBusy, hg, if_neg Bool.false_ne_true, hu.cur] at hpub
  obtain ⟨hcur, hsnap, -⟩ := hpub
  exact ⟨hcur, hsnap⟩

/-! ## The idle republish -/

theorem execIdleTick_unpinned {s : State} (hp : s.txn.port = .p) (hr : s.recState = .idle)
    (hv : pinned s.pin (s.cur + 1#32) = false) :
    execIdleTick s = .next (respond (afterPublish s) .ok (idleTickData (gateIsBusy s))) := by
  rw [execIdleTick_idle hp hr, publishThen_unpinned _ hv]
  rfl

/-! ## The reader commands -/

theorem afterDraw_of_busy {s : State} (hb : gateIsBusy s = true) :
    afterDraw s = { s with draws := s.draws + 1 } := by
  obtain ⟨hbuild, -⟩ : s.build.gateBusy = true ∧ _ := by simpa [gateIsBusy] using hb
  rw [afterDraw, if_pos hbuild]

theorem execSnapAcquire_busy {s : State} {r : Reader} (hp : s.txn.port = .rd r)
    (hb : gateIsBusy s = true) : execSnapAcquire s = raiseStatus (afterDraw s) .busy := by
  rw [execSnapAcquire, onReader_rd _ r hp, if_pos hb]

theorem execSnapAcquire_free {s : State} {r : Reader} (hp : s.txn.port = .rd r)
    (hb : ¬ gateIsBusy s = true) :
    execSnapAcquire s = succeed (withPin (afterDraw s) r (some s.cur)) s.cur := by
  rw [execSnapAcquire, onReader_rd _ r hp, if_neg hb]

theorem execSnapRelease_rd {s : State} {r : Reader} (hp : s.txn.port = .rd r) :
    execSnapRelease s = succeed (withPin s r none) 0#32 :=
  onReader_rd _ r hp

theorem rejects_snapRead_of_unpinned {s : State} {r : Reader} {sel : Selector} {k : Half}
    (hp : s.txn.port = .rd r) (hpin : pinOf s.pin r = none) : rejects (.snapRead sel k) s .noPin := by
  show execSnapRead sel k s = _
  rw [execSnapRead, onReader_rd _ r hp, hpin]
  rfl

section
variable {s : State} {r : Reader} {v : Version} {x : Snapshot} {sel : Selector} {k : Half}
  (hp : s.txn.port = .rd r) (hpin : pinOf s.pin r = some v) (hrec : snapAt s.snap v = some x)
include hp hpin hrec

theorem answers_snapRead {d : Word} (h : snapField s.build x v sel k.toNat = .ok d) :
    answers (.snapRead sel k) s d := by
  show execSnapRead sel k s = _
  rw [execSnapRead, onReader_rd _ r hp, hpin]
  simp only [hrec, h]
  rfl

theorem rejects_snapRead {e : Status} (h : snapField s.build x v sel k.toNat = .error e) :
    rejects (.snapRead sel k) s e := by
  show execSnapRead sel k s = _
  rw [execSnapRead, onReader_rd _ r hp, hpin]
  simp only [hrec, h]
  rfl

end

/-- The fields of the event are not there without an event. -/
theorem snapField_noData {b : Build} {x : Snapshot} {v : Version} {sel : Selector} {j : Nat}
    (himp : x.imp = none)
    (hsel : sel ∈ [Selector.impTsLo, .impTsHi, .impFreq, .impNpeaks, .pkIdx, .pkFreq, .pkMag,
      .impLabel]) : snapField b x v sel j = .error .noData := by
  fin_cases hsel <;> rw [snapField, himp] <;> rfl

theorem impulseField_some {imp : Option ImpulseEvent} {e : ImpulseEvent} (h : imp = some e)
    (f : ImpulseEvent → Except Status Word) : impulseField imp f = f e := by
  rw [h]
  rfl

theorem peakField_of_getElem? {e : ImpulseEvent} {j : Nat} {p : PeakData}
    (h : e.peaks[j]? = some p) (f : PeakData → Word) : peakField e j f = .ok (f p) := by
  rw [peakField, h]

theorem peakField_of_length_le {e : ImpulseEvent} {j : Nat} (h : e.peaks.length ≤ j)
    (f : PeakData → Word) : peakField e j f = .error .badIndex := by
  rw [peakField, List.getElem?_eq_none h]

theorem bitWord_eq (b : Bool) : bitWord b = if b = true then 1#32 else 0#32 := by
  cases b <;> rfl

theorem bitWord_isSome {α : Type} (o : Option α) [Decidable (o = none)] :
    bitWord o.isSome = if o = none then 0#32 else 1#32 := by
  cases o <;> simp [bitWord_eq]

/-! ## The statements -/

/-- Settles O60: `W` changes in a command that publishes it, and the record under `CUR` stays stored. -/
theorem stepKeepsPublishedInvariant : Obligations.StepKeepsPublishedInvariant := by
  intro s t h hst
  obtain ⟨-, ⟨-, rfl⟩ | ⟨rest, -, rfl⟩ | ⟨q, rest, -, he⟩⟩ := step_cases hst
  · exact h
  · exact fun _ => rfl
  · exact (h.latch q rest).effect he

/-- Settles O26: while Idle the effects that capture or process are out of reach. -/
theorem nothingIsCapturedWhileIdle : Obligations.NothingIsCapturedWhileIdle := by
  intro s hr
  refine ⟨fun i t h => ?_, fun hp =>
    ⟨fun len hlen => execAccPush_idle hp hr hlen, execAnalyze_idle hp hr⟩⟩
  obtain ⟨hfb, hsum, hts, hmag, hdom⟩ := (exec_effect h).sameCapture hr
  exact ⟨hfb, hsum, hts, hmag, hdom⟩

/-- Settles O28: the transition, then `publish()` of its state. -/
theorem buttonEdgeMovesTheMachine : Obligations.ButtonEdgeMovesTheMachine := by
  intro s level hp he hv
  have hu : Prepared s (transition { s with btnLevel := level }) := .transition level
  have hpub := afterPublish_store (s := transition { s with btnLevel := level })
    (by rw [hu.pin, hu.cur, hv])
  rw [hu.gateIsBusy, hu.cur, hu.snap, hu.pin] at hpub
  refine ⟨_, execButtonEdge_unpinned hp ((edge_eq_true_iff ..).2 he) hv, ?_⟩
  rw [afterPublish_frame]
  refine ⟨transition_btnLevel _, transition_accCount _, fun hr => ⟨?_, ?_⟩, fun hr => ⟨?_, ?_⟩, ?_,
    hpub, hu.build, hu.fb, transition_prevSum _, transition_lastImpTs _, hu.pin, hu.inbox, hu.txn⟩
  · exact (transition_recState _).trans (if_pos hr)
  · exact (transition_w _).trans (if_pos hr)
  · exact (transition_recState _).trans (if_neg (by simp [hr]))
  · exact (transition_w _).trans (if_neg (by simp [hr]))
  · show deliver _ _ _ = _
    rw [hu.rsp, hu.txn, hp, buttonData_eq, transition_recState]
    cases s.recState <;> rfl

/-- Settles O29: the second transition starts from Idle, so it clears both itself, whatever happened
before. -/
theorem restartClearsImpulseAndProgress : Obligations.RestartClearsImpulseAndProgress := by
  intro s t₁ u t₂ l₁ l₂ n q _ _ _ _ hidle h hrec
  obtain ⟨himp, hcount, hpub⟩ := execButtonEdge_starts h hidle hrec
  refine ⟨himp, hcount, fun hg => ?_⟩
  obtain ⟨hcur, hsnap⟩ := hpub hg
  exact ⟨hcur, _, hsnap, himp⟩

/-- Settles O30: `publish()` of the state itself. -/
theorem idleTickRepublishes : Obligations.IdleTickRepublishes := by
  intro s hp hr hv
  refine ⟨_, execIdleTick_unpinned hp hr hv, ?_, afterPublish_store hv⟩
  rw [afterPublish_frame, idleTickData_eq, respond, hp]

/-- Settles O50: a busy gate answers after its draw, a free one writes the pin, and the current version
is one the store keeps. -/
theorem snapAcquirePinsCurrent : Obligations.SnapAcquirePinsCurrent := by
  intro s r hp
  by_cases hb : gateIsBusy s = true
  · refine ⟨_, execSnapAcquire_busy hp hb, ?_⟩
    rw [if_pos hb, afterDraw_of_busy hb, respond, hp]
  · refine ⟨_, execSnapAcquire_free hp hb, ?_⟩
    rw [if_neg hb]
    refine ⟨pinOf_setPin_self .., fun q hq => pinOf_setPin_other _ _ _ _ hq,
      fun v hv => snapAt_withPin (s := afterDraw s) hv, ?_⟩
    rw [respond, withPin_txn, afterDraw_txn, hp]
    rfl

/-- Settles O51: the release writes the pin alike whether it is held or not. -/
theorem snapReleaseDropsPin : Obligations.SnapReleaseDropsPin := by
  intro s r hp
  refine ⟨_, execSnapRelease_rd hp, pinOf_setPin_self .., fun q hq => pinOf_setPin_other _ _ _ _ hq,
    fun v hv => snapAt_withPin hv, ?_⟩
  rw [respond, withPin_txn, hp]
  rfl

/-- Settles O52: a read answers the field of the pinned record, or the error of the field's checks. -/
theorem snapReadAnswersFields : Obligations.SnapReadAnswersFields := by
  intro s r k hp
  refine ⟨fun hpin _ => rejects_snapRead_of_unpinned hp hpin, fun v x hpin hrec => ?_⟩
  have ok {sel : Selector} {d : Word} := answers_snapRead (sel := sel) (k := k) (d := d) hp hpin hrec
  have error {sel : Selector} {e : Status} :=
    rejects_snapRead (sel := sel) (k := k) (e := e) hp hpin hrec
  refine ⟨fun hk => ok (if_neg (not_le.2 hk)), fun hk => error (if_pos hk), ok rfl,
    ok (congrArg _ (bitWord_eq _)), ok (congrArg _ (bitWord_isSome _)), ok rfl,
    fun himp _ hsel => error (snapField_noData himp hsel), fun e he => ?_⟩
  have field (f : ImpulseEvent → Except Status Word) : impulseField x.imp f = f e :=
    impulseField_some he f
  refine ⟨ok ((field _).trans (congrArg _ (extractLsb'_low _))),
    ok ((field _).trans (congrArg _ (extractLsb'_high _))), ok (field _), ok (field _),
    ok (field _), fun p hpk => ?_, fun hk => ?_⟩
  · have peak (f : PeakData → Word) :=
      (field fun e => peakField e k.toNat f).trans (peakField_of_getElem? hpk f)
    exact ⟨ok (peak _), ok (peak _), ok (peak _)⟩
  · have noPeak (f : PeakData → Word) :=
      (field fun e => peakField e k.toNat f).trans (peakField_of_length_le hk f)
    exact ⟨error (noPeak _), error (noPeak _), error (noPeak _)⟩

/-- Settles O27: in RISING mode a low level or one that was high is no edge. -/
theorem buttonLevelWithoutEdge : Obligations.ButtonLevelWithoutEdge := by
  intro s level hp hmode hlevel
  have he : ¬ edge s.build.buttonMode level s.btnLevel = true := by
    rw [edge_eq_true_iff, hmode]
    rcases hlevel with rfl | hprev <;> simp [*]
  refine (execButtonEdge_level hp he).trans ?_
  rw [succeed, respond, buttonData_eq, hp]
  cases s.recState <;> rfl

end Sys2Proof.Machine
end

section
/-! Proof of the statement of 45_control.md: `NOP`. -/

namespace Sys2Proof.Machine

/-- Settles O11: `NOP` answers 0 whatever the ports were answered before, so it does after the last
answer. -/
theorem nopAnswersZero : Obligations.NopAnswersZero := fun s => execNop_answersFrom s s.rsp

end Sys2Proof.Machine
end

section
/-! Proofs of the statements of 60_exceptions.md: what a step answers and where, the order of its checks,
what refuses it, the ports' permissions, and that an all-zero frame is no error. -/

namespace Sys2Proof.Machine

open Sys2Proof.Config

/-! ## The answer of a command -/

/-- Every effect answers on the issuing port alone, and one that answers an error does nothing else but
use up a draw. -/
theorem Effect.answered {s t : State} (he : Effect s t) :
    ∃ x, t.rsp = deliver s.rsp s.txn.port x ∧
      (x.status ≠ .ok → x.data = 0#32 ∧ t = { s with rsp := t.rsp, draws := t.draws }) := by
  cases he with
  | error _ _ | busy _ _ _ => exact ⟨_, rfl, fun _ => ⟨rfl, rfl⟩⟩
  | skipped _ _ hu _ d | published _ _ hu _ _ d =>
    exact ⟨⟨.ok, d⟩, by simp [hu.rsp, hu.txn], fun hx => absurd rfl hx⟩
  | _ => exact ⟨_, rfl, fun hx => absurd rfl hx⟩

theorem step_command_effect {s t : State} {q : Request} {rest : List Input}
    (hin : s.inbox = .command q :: rest) (h : step s = .next t) : Effect (latch s q rest) t := by
  obtain ⟨-, ⟨hin', -⟩ | ⟨_, hin', -⟩ | ⟨_, _, hin', he⟩⟩ := step_cases h
  · simp [hin] at hin'
  · simp [hin] at hin'
  · obtain ⟨rfl, rfl⟩ : q = _ ∧ rest = _ := by simpa [hin] using hin'
    exact he

/-! ## Refused commands -/

/-- A prepared state is refused for a version pinned in the state it was prepared from. -/
theorem gate_of_prepared_refused {s u : State} (hu : Prepared s u) {f : Bool → State → Word}
    {x : Refusal} (h : publishThen u (fun skipped t => succeed t (f skipped t)) = .refused x) :
    gateIsBusy s = false ∧ pinned s.pin (s.cur + 1#32) = true := by
  obtain ⟨-, hgate, hpin⟩ := publishThen_refused (fun _ _ => by simp) h
  rw [hu.pin, hu.cur] at hpin
  exact ⟨hu.gateIsBusy.symm.trans hgate, hpin⟩

theorem execAccPush_refused {len : Half} {s : State} {x : Refusal}
    (h : execAccPush len s = .refused x) : s.txn.din.length ≠ len.toNat := by
  intro hlen
  rw [execAccPush, if_neg (not_not.2 hlen)] at h
  obtain ⟨-, h⟩ := onProducer_refused h
  split at h <;> simp at h

theorem execAnalyze_refused {s : State} {x : Refusal} (h : execAnalyze s = .refused x) :
    reachesPublish .analyze s ∧ gateIsBusy s = false ∧ pinned s.pin (s.cur + 1#32) = true := by
  obtain ⟨hp, h⟩ := onProducer_refused h
  split at h
  · simp at h
  · split at h
    · simp at h
    · have hfull : s.build.frameBytes ≤ s.accCount := by omega
      exact ⟨⟨hp, .inl ⟨rfl, ‹_›, hfull⟩⟩, gate_of_prepared_refused (.analyzed ‹_› hfull) h⟩

theorem execButtonEdge_refused {level : Bool} {s : State} {x : Refusal}
    (h : execButtonEdge level s = .refused x) :
    reachesPublish (.buttonEdge level) s ∧ gateIsBusy s = false ∧
      pinned s.pin (s.cur + 1#32) = true := by
  obtain ⟨hp, h⟩ := onProducer_refused h
  split at h
  · exact ⟨⟨hp, .inr (.inl ⟨level, rfl, (edge_eq_true_iff ..).1 ‹_›⟩)⟩,
      gate_of_prepared_refused (.transition level) h⟩
  · simp at h

theorem execIdleTick_refused {s : State} {x : Refusal} (h : execIdleTick s = .refused x) :
    reachesPublish .idleTick s ∧ gateIsBusy s = false ∧ pinned s.pin (s.cur + 1#32) = true := by
  obtain ⟨hp, h⟩ := onProducer_refused h
  split at h
  · simp at h
  · exact ⟨⟨hp, .inr (.inr ⟨rfl, ‹_›⟩)⟩, gate_of_prepared_refused (.tick ‹_›) h⟩

/-- A read of a store that holds every pinned version is answered. -/
theorem execSnapRead_not_refused {sel : Selector} {idx : Half} {s : State} {x : Refusal}
    (hs : StoreInv s) : execSnapRead sel idx s ≠ .refused x := by
  intro h
  obtain ⟨r, -, h⟩ := onReader_refused h
  cases hpin : pinOf s.pin r with
  | none => simp [hpin] at h
  | some v =>
    obtain ⟨rec, hrec⟩ := Option.isSome_iff_exists.1 (hs.pinnedStored r v hpin)
    simp only [hpin, hrec] at h
    split at h <;> simp at h

/-- A command is refused for the length of its `DIN` or for the version its publish would reuse. -/
theorem exec_refused_iff {i : Instr} {s : State} (hs : StoreInv s) :
    (∃ x, exec i s = .refused x) ↔
      (∃ len : Half, i = .accPush len ∧ s.txn.din.length ≠ len.toNat) ∨
        (reachesPublish i s ∧ gateIsBusy s = false ∧ pinned s.pin (s.cur + 1#32) = true) := by
  constructor
  · rintro ⟨x, h⟩
    cases i with
    | nop => cases h
    | accPush len => exact .inl ⟨len, rfl, execAccPush_refused h⟩
    | accReset => cases (onProducer_refused h).2
    | analyze => exact .inr (execAnalyze_refused h)
    | buttonEdge level => exact .inr (execButtonEdge_refused h)
    | idleTick => exact .inr (execIdleTick_refused h)
    | csrRead reg =>
      obtain ⟨e, d, hans⟩ := execCsrRead_answersFrom reg s
      cases (hans s.rsp).symm.trans h
    | snapAcquire =>
      obtain ⟨r, -, h⟩ := onReader_refused h
      split at h <;> simp at h
    | snapRead sel idx => exact absurd h (execSnapRead_not_refused hs)
    | snapRelease =>
      obtain ⟨r, -, h⟩ := onReader_refused h
      cases h
  · obtain ⟨hlen, hpublish⟩ := refusedFormsStopByName
    rintro (⟨len, rfl, hne⟩ | ⟨hreach, hgate, hpin⟩)
    · exact ⟨_, hlen s len hne⟩
    · exact ⟨_, hpublish i s hreach hgate hpin⟩

theorem transact_refused_iff {s : State} {q : Request} {rest : List Input} :
    (∃ x, transact s q rest = .refused x) ↔
      ∃ i, decode q.cmd = .ok i ∧ ∃ x, exec i (latch s q rest) = .refused x := by
  cases hd : decode q.cmd with
  | error e => simp [transact_error hd]
  | ok i => simp [transact_ok hd]

theorem step_refused_iff {s : State} :
    (∃ x, step s = .refused x) ↔
      buildValid s.build = false ∨
        ∃ q rest, s.inbox = .command q :: rest ∧ ∃ x, transact s q rest = .refused x := by
  cases hb : buildValid s.build with
  | false => simp [step_invalid hb]
  | true =>
    match hin : s.inbox with
    | [] => simp [step_idle hb hin]
    | .reset :: rest => simp [step, hb, hin]
    | .command q :: rest => simp [step_command hb hin]

/-! ## Denied ports -/

theorem onProducer_denied {s : State} {r : Reader} (k : Result) (hp : s.txn.port = .rd r) :
    onProducer s k = raiseStatus s .portDenied := by
  rw [onProducer, hp]

theorem onReader_denied {s : State} (k : Reader → Result) (hp : s.txn.port = .p) :
    onReader s k = raiseStatus s .portDenied := by
  rw [onReader, hp]

theorem execAccPush_denied {s : State} {r : Reader} {len : Half} (hp : s.txn.port = .rd r)
    (hlen : s.txn.din.length = len.toNat) : execAccPush len s = raiseStatus s .portDenied := by
  rw [execAccPush, if_neg (not_not.2 hlen), onProducer_denied _ hp]

/-! ## The first check that fails -/

/-- The status on `port` of a command of port `P`, `e` being that of its own checks. -/
def producerStatus (port : Port) (e : Status) : Status :=
  match port with
  | .p => e
  | .rd _ => .portDenied

/-- The status on `port` of a command of the reader ports, `e` being that of its own checks. -/
def readerStatus (port : Port) (e : Status) : Status :=
  match port with
  | .p => .portDenied
  | .rd _ => e

/-- `firstFailure` of the command `i` issued on `port` (`firstFailure_of_decode`). -/
def commandStatus (s : State) (port : Port) : Instr → Status
  | .nop => .ok
  | .accPush _ => producerStatus port (if s.recState = .idle then .wrongState else .ok)
  | .accReset => producerStatus port .ok
  | .analyze =>
    producerStatus port <|
      if s.recState = .idle then .wrongState
      else if s.accCount < s.build.frameBytes then .notFull else .ok
  | .buttonEdge _ => producerStatus port .ok
  | .idleTick => producerStatus port (if s.recState = .recording then .wrongState else .ok)
  | .csrRead reg => if 0x16 < reg.toNat then .badReg else .ok
  | .snapAcquire => readerStatus port (if gateIsBusy s = true then .busy else .ok)
  | .snapRead sel idx => readerStatus port (firstReadFailure s port sel.code.toNat idx.toNat)
  | .snapRelease => readerStatus port .ok

theorem firstFailure_of_decode_error {s : State} {q : Request} {e : DecodeError}
    (hd : decode q.cmd = .error e) : firstFailure s q = .illegal :=
  if_pos (by_contra fun h => by simpa [hd] using (decode_isOk_iff q.cmd).2 h)

/-- With the fields of its word known, the checks that are not those of the command drop out. -/
theorem firstFailure_of_decode (s : State) {q : Request} {i : Instr} (hd : decode q.cmd = .ok i) :
    firstFailure s q = commandStatus s q.port i := by
  have hlegal : ¬ illegalWord q.cmd := (decode_isOk_iff q.cmd).1 (by rw [hd, isOk_ok])
  rw [firstFailure, if_neg hlegal, ← fieldOpc_toNat, ← fieldSel_toNat, ← fieldImm_toNat,
    ← encode_of_decode hd]
  generalize q.port = port
  cases i with
  | nop => simp [commandStatus, encode, fieldOpc_packC32]
  | csrRead reg => simp [commandStatus, encode, fieldOpc_packC32, fieldImm_packC32]
  | accPush _ | accReset | analyze | buttonEdge _ | idleTick =>
    cases port <;> simp [commandStatus, producerStatus, encode, fieldOpc_packC32]
  | snapAcquire | snapRead _ _ | snapRelease =>
    cases port <;> simp [commandStatus, readerStatus, encode, fieldOpc_packC32, fieldSel_packC32,
      fieldImm_packC32]

/-- Where the outcome `f` is a next state, it answers the command in `s` with the status `e`. -/
def Reports (s : State) (f : Result) (e : Status) : Prop :=
  ∀ t, f = .next t → ∃ x, responseOn t.rsp s.txn.port = some x ∧ x.status = e

theorem reports_refused (s : State) (r : Refusal) (e : Status) : Reports s (.refused r) e := by
  intro t h
  cases h

theorem reports_raiseStatus {s u : State} (hu : u.txn = s.txn) (e : Status) :
    Reports s (raiseStatus u e) e := by
  rintro _ ⟨⟩
  exact ⟨_, by rw [respond_rsp, hu, responseOn_deliver_self], rfl⟩

theorem reports_succeed {s u : State} (hu : u.txn = s.txn) (d : Word) :
    Reports s (succeed u d) .ok := by
  rintro _ ⟨⟩
  exact ⟨_, by rw [respond_rsp, hu, responseOn_deliver_self], rfl⟩

theorem reports_publishThen {s u : State} (hu : u.txn = s.txn) (f : Bool → State → Word) :
    Reports s (publishThen u fun skipped t => succeed t (f skipped t)) .ok := by
  intro t h
  obtain ⟨-, h⟩ | ⟨-, -, h⟩ := publishThen_next h
  · exact reports_succeed (u := afterDraw u) hu _ t h
  · exact reports_succeed (u := publishNow (afterDraw u)) hu _ t h

theorem reports_onProducer {s : State} {k : Result} {e : Status} (h : Reports s k e) :
    Reports s (onProducer s k) (producerStatus s.txn.port e) := by
  cases hp : s.txn.port with
  | p => rwa [onProducer_p _ hp]
  | rd r =>
    rw [onProducer_denied _ hp]
    exact reports_raiseStatus rfl _

theorem reports_onReader {s : State} {k : Reader → Result} {e : Status}
    (h : ∀ r, s.txn.port = .rd r → Reports s (k r) e) :
    Reports s (onReader s k) (readerStatus s.txn.port e) := by
  cases hp : s.txn.port with
  | p =>
    rw [onReader_denied _ hp]
    exact reports_raiseStatus rfl _
  | rd r =>
    rw [onReader_rd _ r hp]
    exact h r hp

theorem execAccPush_reports (len : Half) (s : State) :
    Reports s (execAccPush len s) (commandStatus s s.txn.port (.accPush len)) := by
  unfold execAccPush
  split
  · exact reports_refused _ _ _
  · refine reports_onProducer ?_
    cases s.recState with
    | idle => exact reports_raiseStatus rfl _
    | recording => exact reports_succeed (accepted_txn s) _

theorem execAnalyze_reports (s : State) :
    Reports s (execAnalyze s) (commandStatus s s.txn.port .analyze) := by
  refine reports_onProducer ?_
  cases s.recState with
  | idle => exact reports_raiseStatus rfl _
  | recording =>
    rw [if_neg (show ¬ RecState.recording = .idle by decide)]
    dsimp only
    split_ifs
    · exact reports_raiseStatus rfl _
    · exact reports_publishThen (analyzed_txn s) _

theorem execButtonEdge_reports (level : Bool) (s : State) :
    Reports s (execButtonEdge level s) (commandStatus s s.txn.port (.buttonEdge level)) := by
  refine reports_onProducer ?_
  split
  · exact reports_publishThen (transition_txn _) _
  · exact reports_succeed rfl _

theorem execIdleTick_reports (s : State) :
    Reports s (execIdleTick s) (commandStatus s s.txn.port .idleTick) := by
  refine reports_onProducer ?_
  cases s.recState with
  | idle => exact reports_publishThen rfl _
  | recording => exact reports_raiseStatus rfl _

theorem execCsrRead_reports (reg : Half) (s : State) :
    Reports s (execCsrRead reg s) (commandStatus s s.txn.port (.csrRead reg)) := by
  simp only [execCsrRead, commandStatus]
  split_ifs with hreg
  · rw [regValue_reserved s hreg]
    exact reports_raiseStatus rfl _
  · obtain ⟨v, hv⟩ := regValue_isSome s (not_lt.1 hreg)
    rw [hv]
    exact reports_succeed rfl _

theorem execSnapAcquire_reports (s : State) :
    Reports s (execSnapAcquire s) (commandStatus s s.txn.port .snapAcquire) := by
  refine reports_onReader fun r _ => ?_
  split
  · exact reports_raiseStatus (afterDraw_txn s) _
  · exact reports_succeed rfl _

/-- The status a field of a record is answered with. -/
def fieldStatus : Except Status Word → Status
  | .ok _ => .ok
  | .error e => e

@[simp] theorem fieldStatus_ok (d : Word) : fieldStatus (.ok d) = .ok := rfl

@[simp] theorem fieldStatus_error (e : Status) : fieldStatus (.error e) = e := rfl

theorem fieldStatus_peakField (e : ImpulseEvent) (j : Nat) (f : PeakData → Word) :
    fieldStatus (peakField e j f) = if e.peaks.length ≤ j then .badIndex else .ok := by
  split_ifs with hj
  · rw [peakField_of_length_le hj, fieldStatus_error]
  · rw [peakField_of_getElem? (List.getElem?_eq_getElem (not_le.1 hj)), fieldStatus_ok]

/-- The checks of a read of a stored record are those of its field. -/
theorem firstReadFailure_stored {s : State} {r : Reader} {v : Version} {x : Snapshot}
    (hpin : pinOf s.pin r = some v) (hrec : snapAt s.snap v = some x) (sel : Selector) (j : Nat) :
    firstReadFailure s (.rd r) sel.code.toNat j = fieldStatus (snapField s.build x v sel j) := by
  simp only [firstReadFailure, hpin, hrec]
  cases sel with
  | mag => by_cases hj : s.build.nbins ≤ j <;> simp [Selector.code, snapField, hj]
  | dom | recording | impPresent | version => simp [Selector.code, snapField]
  | impTsLo | impTsHi | impFreq | impNpeaks | impLabel =>
    cases himp : x.imp <;> simp [Selector.code, snapField, himp, impulseField]
  | pkIdx | pkFreq | pkMag =>
    cases himp : x.imp <;>
      simp [Selector.code, snapField, himp, impulseField, fieldStatus_peakField]

theorem execSnapRead_reports (sel : Selector) (idx : Half) (s : State) :
    Reports s (execSnapRead sel idx s) (commandStatus s s.txn.port (.snapRead sel idx)) := by
  refine reports_onReader fun r hp => ?_
  rw [hp]
  cases hpin : pinOf s.pin r with
  | none =>
    rw [firstReadFailure, hpin]
    exact reports_raiseStatus rfl _
  | some v =>
    cases hrec : snapAt s.snap v with
    | none => simp only [hrec]; exact reports_refused _ _ _
    | some x =>
      simp only [hrec]
      rw [firstReadFailure_stored hpin hrec]
      cases snapField s.build x v sel idx.toNat with
      | error e => exact reports_raiseStatus rfl _
      | ok d => exact reports_succeed rfl _

/-- Every command answers with the status of its first failing check. -/
theorem exec_reports (i : Instr) (s : State) :
    Reports s (exec i s) (commandStatus s s.txn.port i) := by
  cases i with
  | nop => exact reports_succeed rfl _
  | accPush len => exact execAccPush_reports len s
  | accReset => exact reports_onProducer (reports_succeed rfl _)
  | analyze => exact execAnalyze_reports s
  | buttonEdge level => exact execButtonEdge_reports level s
  | idleTick => exact execIdleTick_reports s
  | csrRead reg => exact execCsrRead_reports reg s
  | snapAcquire => exact execSnapAcquire_reports s
  | snapRead sel idx => exact execSnapRead_reports sel idx s
  | snapRelease => exact reports_onReader fun r _ => reports_succeed rfl _

theorem transact_reports (s : State) (q : Request) (rest : List Input) :
    Reports (latch s q rest) (transact s q rest) (firstFailure s q) := by
  cases hd : decode q.cmd with
  | error e =>
    rw [transact_error hd, firstFailure_of_decode_error hd]
    exact reports_raiseStatus rfl _
  | ok i =>
    rw [transact_ok hd, firstFailure_of_decode s hd]
    exact exec_reports i (latch s q rest)

/-- A command is turned away with the status of its first failing check and no other. -/
theorem commandStatus_of_rejects {i : Instr} {s : State} {e : Status} (h : rejects i s e) :
    commandStatus s s.txn.port i = e := by
  obtain ⟨x, hx, hstatus⟩ := exec_reports i s _ h
  rw [responseOn_deliver_self] at hx
  cases hx
  exact hstatus.symm

/-! ## A frame of zeros -/

theorem energy_replicate_zero (n : Nat) : energy (List.replicate n 0#32) = 0#32 := by
  have hadd : f32Add 0#32 0#32 = 0#32 := by decide
  induction n with
  | zero => rfl
  | succ n ih => rwa [energy, List.replicate_succ, List.foldl_cons, hadd]

/-- A threshold of a valid build is not negative, so a magnitude of `+0.0` does not qualify. -/
theorem qualifies_zero {b : Build} (hb : buildValid b = true) (k : Nat) :
    qualifies b k 0#32 = false := by
  obtain ⟨-, hlow, hhigh⟩ := (buildValid_iff b).1 hb
  rw [qualifies, threshold]
  split_ifs
  · exact f32Gt_eq_false_of_le hlow
  · exact f32Gt_eq_false_of_le hhigh

theorem detectPeak_replicate_zero {b : Build} (hb : buildValid b = true) (n : Nat) :
    detectPeak b (List.replicate n 0#32) = ⟨false, 0, 0#32⟩ := by
  refine detectPeak_of_none ((dominantBin_eq_none_iff ..).2 fun k hk => ?_)
  have hmag : elemAt (List.replicate n 0#32) k = 0#32 := by simp [elemAt]
  rw [hmag, qualifies_zero hb]

theorem fires_zero_eq_false {b : Build} (hmin : f32Le 0#32 b.minImpulseFreq = true)
    (sum prevSum : F32) (time last : DWord) : fires b sum prevSum time last 0#32 = false := by
  rw [fires, audible, f32Gt_eq_false_of_le hmin, Bool.and_false]

/-! ## The statements -/

/-- Settles O7: the three checks that refuse are the step's own on the build, that of a push on its `DIN`
and that of `publish()`; the store holds every pinned version, so a read passes the fourth. -/
theorem stepsAreRefusedForThreeReasonsOnly : Obligations.StepsAreRefusedForThreeReasonsOnly := by
  intro s hs
  refine ⟨nofun, step_refused_iff.trans (or_congr_right ?_)⟩
  have hexec (q : Request) (rest : List Input) (i : Instr) :=
    exec_refused_iff (i := i) (hs.latch q rest)
  simp only [transact_refused_iff, hexec]
  constructor
  · rintro ⟨q, rest, hin, i, hd, h⟩
    exact ⟨q, rest, i, hin, hd, h⟩
  · rintro ⟨q, rest, i, hin, hd, h⟩
    exact ⟨q, rest, hin, i, hd, h⟩

/-- Settles O16: of the effects of a command those that answer an error do nothing else. -/
theorem errorsChangeNoState : Obligations.ErrorsChangeNoState := by
  intro s t q rest x hin h hx hstatus
  obtain ⟨y, hrsp, herror⟩ := (step_command_effect hin h).answered
  obtain rfl : y = x := by
    rw [hrsp] at hx
    exact Option.some.inj ((responseOn_deliver_self ..).symm.trans hx)
  obtain ⟨hdata, ht⟩ := herror hstatus
  rw [hrsp] at ht
  exact ⟨hdata, ht⟩

/-- Settles O17: every effect of a command answers on its port. -/
theorem responsesGoToTheIssuingPort : Obligations.ResponsesGoToTheIssuingPort := by
  intro s t q rest hin h
  obtain ⟨x, hrsp, -⟩ := (step_command_effect hin h).answered
  refine ⟨⟨x, hrsp⟩, fun port hport => ?_⟩
  rw [hrsp]
  exact responseOn_deliver_other _ _ _ _ hport

/-- Settles O18: a word that does not decode is `ILLEGAL`, and a command answers with the first of its
checks that fails. -/
theorem errorsAreReportedInOrder : Obligations.ErrorsAreReportedInOrder := by
  intro s t q rest hin h
  obtain ⟨hb, -⟩ := step_cases h
  rw [step_command hb hin] at h
  exact transact_reports s q rest t h

/-- Settles O34: the spectrum of the frame is all `+0.0`, so there is no peak, and the fallback frequency
`+0.0` is too low for an impulse. -/
theorem zeroFrameIsNoError : Obligations.ZeroFrameIsNoError := by
  intro s hp hr hf hb hg hv hfb hw hmin
  have hmag : frameSpectrum s = List.replicate s.build.nbins 0#32 :=
    zeroFrameHasZeroSpectrum s.build s.fb hfb hw
  have hpeak : framePeak s = ⟨false, 0, 0#32⟩ := by
    rw [framePeak, hmag, detectPeak_replicate_zero hb]
  have himpulse : frameImpulse s = ⟨none, 0#32, s.lastImpTs⟩ := by
    rw [frameImpulse, hpeak, impulseStep_quiet (by simp [fires_zero_eq_false hmin]), hmag,
      energy_replicate_zero]
  have hdata : analyzeData (framePeak s).maxIndex (gateIsBusy s) (framePeak s).valid
      (frameImpulse s).event.isSome = 0#32 := by
    rw [hpeak, himpulse, gateIsBusy_of_lockFree s hg]
    exact analyzeData_eq 0 false false false
  refine ⟨_, execAnalyze_unpinned hp hr hf hv, ?_⟩
  rw [afterPublish_frame, hdata]
  refine ⟨?_, congrArg Peak.dom hpeak, hmag, congrArg Impulse.lastImpTs himpulse,
    congrArg Impulse.prevSum himpulse⟩
  show responseOn (deliver s.rsp s.txn.port _) .p = _
  rw [hp, responseOn_deliver_self]

/-- Settles O15: a denied port is turned away before the command's own checks, and the two commands
without a port check report another status. -/
theorem portPermissions : Obligations.PortPermissions := by
  intro s
  refine ⟨fun r hp => ⟨fun len hlen => execAccPush_denied hp hlen, onProducer_denied _ hp,
    onProducer_denied _ hp, fun level => onProducer_denied _ hp, onProducer_denied _ hp⟩,
    fun hp => ⟨onReader_denied _ hp, fun sel idx => onReader_denied _ hp, onReader_denied _ hp⟩,
    fun h => ?_, fun reg h => ?_⟩
  · cases commandStatus_of_rejects h
  · have hstatus := commandStatus_of_rejects h
    rw [commandStatus] at hstatus
    split_ifs at hstatus

end Sys2Proof.Machine
end

section
/-! Proof of the statement of 70_reset_and_hazards.md: what the reset input sets. -/

namespace Sys2Proof.Machine

open Sys2Proof.Config

/-! ## The reset input -/

theorem step_reset {s : State} {rest : List Input} (hb : buildValid s.build = true)
    (hin : s.inbox = .reset :: rest) : step s = .next (resetInput s rest) := by
  simp [step, hb, hin]

/-- The store holds the reset record under version 0 and nothing else (R261). -/
theorem snapAt_resetOf (b : Build) (v : Version) (r : Snapshot) :
    snapAt (resetOf b).snap v = some r ↔ v = 0#32 ∧ r = (resetOf b).w := by
  show snapAt [(0#32, resetSnapshot b)] v = some r ↔ v = 0#32 ∧ r = resetSnapshot b
  by_cases hv : v = 0#32
  · subst hv; simp [snapAt, eq_comm]
  · simp [snapAt, List.lookup_cons, beq_false_of_ne hv, hv]

theorem pinOf_resetOf (b : Build) (r : Reader) : pinOf (resetOf b).pin r = none := by
  cases r <;> rfl

theorem statusReg_resetOf {b : Build} (hb : buildValid b = true) : statusReg (resetOf b) = 0#32 :=
  Option.some.inj (regValue_resetOf b hb (n := 0x10) le_rfl (by decide))

/-- Settles O9: the step gives the state of `resetOf` with the inputs still to come; `STATUS` reads 0
because the buffer of a valid build has room for a byte. -/
theorem resetInputSetsResetValues : Obligations.ResetInputSetsResetValues := by
  intro s rest hb hin
  exact ⟨resetInput s rest, step_reset hb hin, rfl, rfl, rfl, rfl, rfl, rfl, rfl, rfl,
    snapAt_resetOf s.build, pinOf_resetOf s.build, statusReg_resetOf hb⟩

end Sys2Proof.Machine
end
